-- ==== Sys2Proof/Word.lean ====
section
/-! DEFINITION. The data words of the frame engine (spec 00_scope.md R7): a byte, the 32-bit result word, a duration. -/

namespace Sys2Proof

/-- An 8-bit value, bit 0 least significant (R7). -/
abbrev Byte := BitVec 8

/-- The width of FVAL (10_state.md R23). -/
abbrev Word32 := BitVec 32

/-- A duration of the collaborators. The spec gives no unit and no value (60_exceptions.md R192);
it is only ever recorded (log entry 26, DESIGN CHOICE). -/
abbrev Duration := Nat

end Sys2Proof
end

