-- ==== Sys2Proof/Config.lean ====
section
/-! DEFINITION. The named constants of 00_scope.md R5, the open parameters of R6 (the record CFG of
10_state.md R11) and the model's two free values. -/

namespace Sys2Proof

/-- FRAME_LEN (R5). -/
abbrev frameLen : Nat := 13
/-- HEADER_LEN (R5). -/
abbrev headerLen : Nat := 4
/-- PAYLOAD_LEN (R5). -/
abbrev payloadLen : Nat := 8
/-- CSUM_LEN (R5). -/
abbrev csumLen : Nat := 1
/-- START_BYTE (R5). -/
abbrev startByte : Byte := 0xA5
/-- LEN_BYTE (R5). -/
abbrev lenByte : Byte := 0x08
/-- CSUM_MOD (R5). -/
abbrev csumMod : Nat := 256
/-- OFF_START, OFF_ADDR, OFF_CMD and OFF_LEN (R5). -/
abbrev offStart : Nat := 0
abbrev offAddr : Nat := 1
abbrev offCmd : Nat := 2
abbrev offLen : Nat := 3
/-- OFF_PAYLOAD (R5): the payload follows the header. -/
abbrev offPayload : Nat := headerLen
/-- OFF_CSUM (R5): FRAME_LEN - 1. -/
abbrev offCsum : Nat := 12
/-- SEQ_INVALID (R5). -/
abbrev seqInvalid : Byte := 0xFF
/-- VOLT_PER_FRAME and VOLT_WIDTH (R5). -/
abbrev voltPerFrame : Nat := 3
abbrev voltWidth : Nat := 2
/-- TEMP_PER_FRAME and TEMP_WIDTH (R5). -/
abbrev tempPerFrame : Nat := 7
abbrev tempWidth : Nat := 1
/-- TEMP_OFFSET (R5). -/
abbrev tempOffset : Int := 40
/-- CURRENT_OFFSET (R5). -/
abbrev currentOffset : Int := 30000
/-- MILLI (R5). -/
abbrev milli : Nat := 1000
/-- BALANCE_BYTES and BALANCE_BITS (R5). -/
abbrev balanceBytes : Nat := 6
abbrev balanceBits : Nat := 48
/-- FAULT_ROWS, FAULT_COLS and FAULT_LAST_ROW_COLS (R5). -/
abbrev faultRows : Nat := 8
abbrev faultCols : Nat := 8
abbrev faultLastRowCols : Nat := 1
/-- DEFAULT_MAX_RESPONSES (R5). -/
abbrev defaultMaxResponses : Nat := 1
/-- DEFAULT_EXTRA (R5). -/
abbrev defaultExtra : List Byte := []

/-- The payload region of a frame, payload offsets 0 to 7 (20_memory.md R41). -/
abbrev Payload := Vector Byte payloadLen

/-- A frame, frame offsets 0 to 12 (30_encoding.md R60). -/
abbrev Frame := Vector Byte frameLen

/-- FAULT_TABLE (R6): FAULT_ROWS rows of FAULT_COLS strings, but FAULT_LAST_ROW_COLS in the last. The strings are open. -/
structure FaultTable where
  rows : Vector (Vector String faultCols) (faultRows - 1)
  last : Vector String faultLastRowCols
  deriving DecidableEq, Repr, Inhabited

/-- The configuration record CFG (10_state.md R11): constant for a run, written by no operation.
Every field is an open parameter of 00_scope.md R6. -/
structure Config where
  addr : Byte
  retryCount : Nat
  readTimeout : Duration
  interCommandDelay : Duration
  backoff : Duration
  cmdSoc : Byte
  cmdCellVoltageRange : Byte
  cmdTemperatureRange : Byte
  cmdMosfetStatus : Byte
  cmdStatus : Byte
  cmdCellVoltages : Byte
  cmdTemperatures : Byte
  cmdBalancingStatus : Byte
  cmdFaultCodes : Byte
  faultTable : FaultTable
  deriving DecidableEq, Repr, Inhabited

/-- FREE VALUE. The configuration the surrounding application bound before the run (R6, R204: no default
exists for any of it). Nothing can be proved of it (log entry 1). -/
opaque Config.bound : Config

/-- FREE VALUE. The answer the link's oracle gives to the n-th read for which the state lists no answer
(42_exchange_engine.md R112: "The oracle is unconstrained"). Only its first 13 bytes are taken (log entry 4). -/
opaque Config.linkAnswer : Nat → List Byte

end Sys2Proof
end

