-- ==== Sys2Proof/Syntax.lean ====
section
/-! DEFINITION. The operations of the frame engine, one constructor of `Instr` for each row of
spec/opcode_table.json (30_encoding.md R68), their operand forms, and the ports a binary word comes through. -/

namespace Sys2Proof

/-- Where FD_LOAD and DECODE_FIELDS take their eight bytes from (20_memory.md R40, 10_state.md R21,
70_reset_and_hazards.md R217): the view RX_PAYLOAD, an element of EX_COLLECTED, or bytes the host has copied. -/
inductive PayloadSrc where
  | rxPayload
  | collected (i : Nat)
  | bytes (p : Payload)
  deriving DecidableEq, Repr

/-- The two uses of REASSEMBLE (44_interpreters.md R156 to R158): the operands count, per_frame, w, d and g
come in exactly these two combinations. -/
inductive Series where
  | voltages
  | temperatures
  deriving DecidableEq, Repr

/-- The operations. Constructors follow the order of spec/opcode_table.json. -/
inductive Instr where
  /-- FRAME_REQUEST (30 R61): a frame with START = 0xA5 and LEN = 0x08 on the transmit side. -/
  | frameRequest (addr cmd : Byte) (payload : Payload) (csum : Byte)
  /-- FRAME_RESPONSE (30 R63): a frame on the receive side; no byte of it is fixed. -/
  | frameResponse (start addr cmd len : Byte) (payload : Payload) (csum : Byte)
  | u8
  | u16
  | u32
  | i8
  | i16
  | i32
  | bool
  /-- DESC_RESERVED (30 R67): the strobe fd_field with a reserved descriptor byte. -/
  | descReserved (d : Byte)
  | csum (b : List Byte)
  | verify (b : List Byte)
  | b2h (b : Byte)
  | h2b (text : List Char)
  | encode (addr cmd : Byte) (extra : List Byte)
  | validate (buf : Frame) (expect : Byte)
  | txLoad (cmd : Byte) (extra : List Byte)
  | txByte
  | rxArm (expect : Byte)
  | rxByte (b : Byte)
  | rxAbort
  | flush
  | write (bytes : Frame)
  | read (timeout : Duration)
  | sleep (duration : Duration)
  /-- ATTEMPT (42 R115): its operand is the latched request EX_REQ. -/
  | attempt
  /-- EXCHANGE (42 R116). An absent operand stands for its default: no extra bytes, one response, and the
  two configured durations (90_conflicts.md C6). -/
  | exchange (cmd : Byte) (extra : Option (List Byte)) (maxResponses : Option Nat)
      (interCommandDelay readTimeout : Option Duration)
  | fdLoad (src : PayloadSrc) (start : Nat)
  | decodeFields (src : PayloadSrc) (schema : List Byte)
  | getSoc
  | getCellVoltageRange
  | getTemperatureRange
  | getMosfetStatus
  | getStatus
  | getCellVoltages
  | getTemperatures
  | getBalancingStatus
  | getFaultCodes
  | reassemble (payloads : List Payload) (series : Series)
  | reset
  deriving DecidableEq, Repr

/-- The three places a binary word enters the machine: the descriptor operand of the strobe fd_field
(43 R140), the transmit side and the receive side of the link (41 R90). Nothing else is encoded (30 R68, D5). -/
inductive Port where
  | fdField
  | txFrame
  | rxFrame
  deriving DecidableEq, Repr

/-- A binary word at a port, its bytes in offset order. -/
structure PortWord where
  port : Port
  bytes : List Byte
  deriving DecidableEq, Repr

/-- Why a word is no operation. -/
inductive DecodeError where
  /-- the port takes words of another length (one byte for fd_field, 13 for a frame: 30 R66, R70) -/
  | badLength (port : Port) (n : Nat)
  /-- a transmit-side frame without the two constant bytes of a request (30 R61) -/
  | notRequest (start len : Byte)
  deriving DecidableEq, Repr

end Sys2Proof
end

