-- ==== Sys2Proof/WellFormed.lean ====
section
/-! DEFINITION. Which terms of `Instr` are operations of the machine. One check: DESC_RESERVED carries a
reserved descriptor code (30_encoding.md R67). Every other operand value is legal or raises a cause the spec names. -/

namespace Sys2Proof

/-- The reserved codes as R67 lists them: 0x03, 0x07, 0x09 to 0x0F, and 0x10 to 0xFF. -/
def listedReserved (d : Byte) : Bool :=
  d.toNat == 0x03 || d.toNat == 0x07 || decide (0x09 ≤ d.toNat)

def Instr.wf : Instr → Bool
  | .frameRequest _ _ _ _ => true
  | .frameResponse _ _ _ _ _ _ => true
  | .u8 => true
  | .u16 => true
  | .u32 => true
  | .i8 => true
  | .i16 => true
  | .i32 => true
  | .bool => true
  | .descReserved d => listedReserved d
  | .csum _ => true
  | .verify _ => true
  | .b2h _ => true
  | .h2b _ => true
  | .encode _ _ _ => true
  | .validate _ _ => true
  | .txLoad _ _ => true
  | .txByte => true
  | .rxArm _ => true
  | .rxByte _ => true
  | .rxAbort => true
  | .flush => true
  | .write _ => true
  | .read _ => true
  | .sleep _ => true
  | .attempt => true
  | .exchange _ _ _ _ _ => true
  | .fdLoad _ _ => true
  | .decodeFields _ _ => true
  | .getSoc => true
  | .getCellVoltageRange => true
  | .getTemperatureRange => true
  | .getMosfetStatus => true
  | .getStatus => true
  | .getCellVoltages => true
  | .getTemperatures => true
  | .getBalancingStatus => true
  | .getFaultCodes => true
  | .reassemble _ _ => true
  | .reset => true

end Sys2Proof
end

