-- ==== Sys2Proof/Decode.lean ====
section
/-! DEFINITION. The two encodings of the hardware (30_encoding.md): the descriptor byte and the 13-byte
frame. `decodeWord` is total on any bytes at any port and rejects by name; `encodeWord` is its inverse on the
operations that have a word; `decodeTableWord` reads a word in the table's numbering. -/

namespace Sys2Proof

/-- The descriptor codes of 30 R66, mnemonic by mnemonic (match, with mask 0xFF). -/
def descriptorTable : List (Byte × Instr) :=
  [(0x00, .u8), (0x01, .u16), (0x02, .u32), (0x04, .i8), (0x05, .i16), (0x06, .i32), (0x08, .bool)]

/-- The field operation a descriptor byte names; every code outside R66's table is reserved (R67). -/
def decodeDescriptor (d : Byte) : Instr :=
  match descriptorTable.find? (fun row => row.1 == d) with
  | some row => row.2
  | none => .descReserved d

/-- A frame from its six fields, each at its frame offset (30 R60). -/
def wireFrame (start addr cmd len : Byte) (p : Payload) (k : Byte) : Frame :=
  Vector.ofFn fun i =>
    if i.val = offStart then start
    else if i.val = offAddr then addr
    else if i.val = offCmd then cmd
    else if i.val = offLen then len
    else if i.val = offCsum then k
    else p.toList.getD (i.val - offPayload) 0

/-- PAYLOAD of a frame: the bytes from OFF_PAYLOAD on (20_memory.md R41, 30 R64). -/
def framePayload (f : Frame) : Payload := Vector.ofFn fun i => f.toList.getD (offPayload + i.val) 0

/-- The frame of a sequence of FRAME_LEN bytes; none for any other length (30 R70). -/
def frameOfBytes (bs : List Byte) : Option Frame :=
  if h : bs.length = frameLen then some ⟨bs.toArray, h⟩ else none

/-- A frame word. A transmit-side word must carry the two constants of a request (R61); of a receive-side word nothing
is fixed (R63). -/
def decodeFrame (port : Port) (f : Frame) : Except DecodeError Instr :=
  match port with
  | .fdField => .error (.badLength .fdField frameLen)
  | .txFrame =>
    if f[offStart] = startByte ∧ f[offLen] = lenByte then
      .ok (.frameRequest f[offAddr] f[offCmd] (framePayload f) f[offCsum])
    else .error (.notRequest f[offStart] f[offLen])
  | .rxFrame => .ok (.frameResponse f[offStart] f[offAddr] f[offCmd] f[offLen] (framePayload f) f[offCsum])

/-- The operation a word at a port stands for. -/
def decodeWord (w : PortWord) : Except DecodeError Instr :=
  match w.port, w.bytes with
  | .fdField, [d] => .ok (decodeDescriptor d)
  | port, bs =>
    match frameOfBytes bs with
    | some f => decodeFrame port f
    | none => .error (.badLength port bs.length)

/-- The word of an operation, for the nine rows that have one (30 R61, R63, R66, R67); every other operation
has its own strobe or is an event, and no word (R68). -/
def encodeWord : Instr → Option PortWord
  | .frameRequest a c p k => some ⟨.txFrame, (wireFrame startByte a c lenByte p k).toList⟩
  | .frameResponse t a c l p k => some ⟨.rxFrame, (wireFrame t a c l p k).toList⟩
  | .u8 => some ⟨.fdField, [0x00]⟩
  | .u16 => some ⟨.fdField, [0x01]⟩
  | .u32 => some ⟨.fdField, [0x02]⟩
  | .i8 => some ⟨.fdField, [0x04]⟩
  | .i16 => some ⟨.fdField, [0x05]⟩
  | .i32 => some ⟨.fdField, [0x06]⟩
  | .bool => some ⟨.fdField, [0x08]⟩
  | .descReserved d => some ⟨.fdField, [d]⟩
  | .csum _ => none
  | .verify _ => none
  | .b2h _ => none
  | .h2b _ => none
  | .encode _ _ _ => none
  | .validate _ _ => none
  | .txLoad _ _ => none
  | .txByte => none
  | .rxArm _ => none
  | .rxByte _ => none
  | .rxAbort => none
  | .flush => none
  | .write _ => none
  | .read _ => none
  | .sleep _ => none
  | .attempt => none
  | .exchange _ _ _ _ _ => none
  | .fdLoad _ _ => none
  | .decodeFields _ _ => none
  | .getSoc => none
  | .getCellVoltageRange => none
  | .getTemperatureRange => none
  | .getMosfetStatus => none
  | .getStatus => none
  | .getCellVoltages => none
  | .getTemperatures => none
  | .getBalancingStatus => none
  | .getFaultCodes => none
  | .reassemble _ _ => none
  | .reset => none

/-- Byte k of the bytes of a frame number, frame offset 0 in the most significant (30 R60; log entry 23). -/
def frameNumberByte (w k : Nat) : Byte := BitVec.ofNat 8 (w >>> (8 * (offCsum - k)))

/-- The bytes of a frame number, in offset order. -/
def frameOfNumber (w : Nat) : List Byte := (List.range frameLen).map (frameNumberByte w)

/-- The port a table word stands at: 8 bits are a descriptor; the bits of a frame are a frame, on the transmit side when
they match FRAME_REQUEST's mask and match, else on the receive side (log entry 23, DESIGN CHOICE). -/
def tableWord (nbits w : Nat) : PortWord :=
  if nbits = 8 then ⟨.fdField, [BitVec.ofNat 8 w]⟩
  else if nbits = 8 * frameLen then
    if frameNumberByte w offStart = startByte ∧ frameNumberByte w offLen = lenByte then ⟨.txFrame, frameOfNumber w⟩
    else ⟨.rxFrame, frameOfNumber w⟩
  else ⟨.fdField, []⟩

/-- The operation the decoder reads from a word of the opcode table. -/
def decodeTableWord (nbits w : Nat) : Option Instr :=
  match decodeWord (tableWord nbits w) with
  | .ok i => some i
  | .error _ => none

end Sys2Proof
end

