-- ==== Sys2Proof/Machine/State.lean ====
section
/-! DEFINITION. The state of the frame engine: the registers of 10_state.md R10 grouped by unit, the configuration
of R11, the recordings the spec asks for (20_memory.md R52, 60_exceptions.md R180), and what the model needs to be
one deterministic machine (the requests and answers to come, the owner's blocked call, the last result).
`State.reset` is the machine right after RESET (70_reset_and_hazards.md R200). -/

namespace Sys2Proof.Machine

/-- TX_STATE (10 R14). -/
inductive TxState where
  | idle
  | sending
  deriving DecidableEq, Repr

/-- RX_STATE (10 R19); the last four are the done values. -/
inductive RxState where
  | idle
  | receiving
  | accept
  | rejectCmd
  | rejectCsum
  | noData
  deriving DecidableEq, Repr

/-- FD_STATE (10 R22). -/
inductive FdState where
  | empty
  | loaded
  | faulted
  deriving DecidableEq, Repr

/-- EX_STATE (10 R26). -/
inductive ExState where
  | idle
  | running
  deriving DecidableEq, Repr

/-- The cause codes of 60_exceptions.md R180, in the order of their numbers 0 to 9. -/
inductive Cause where
  | none
  | rxCmdMismatch
  | rxCsumFail
  | rxNoData
  | exRetriesExhausted
  | txBadLen
  | opBusy
  | fdNotLoaded
  | fdRange
  | fdBadDesc
  deriving DecidableEq, Repr

/-- A cause with the info R180 records with the raise. FD_RANGE has two forms because R186 gives its two
raisers, FD_LOAD and a field operation, different entry actions. -/
inductive Raise where
  | rxCmdMismatch (received expected : Byte)
  | rxCsumFail (received computed : Byte)
  | rxNoData (n : Nat)
  | exRetriesExhausted
  | txBadLen (n : Nat)
  | opBusy
  | fdNotLoaded
  | fdLoadRange (start : Nat)
  | fdFieldRange (cur width : Nat)
  | fdBadDesc (d : Byte)
  deriving DecidableEq, Repr

/-- An entry of the event history (20_memory.md R52). -/
inductive LinkEvent where
  | flush
  | write (bytes : Frame)
  | sleep (d : Duration)
  | read (timeout : Duration) (answer : List Byte)
  deriving DecidableEq, Repr

/-- The value of a decoded field: a mathematical integer, or a truth value for BOOL (43 R139). -/
inductive FieldValue where
  | num (z : Int)
  | truth (b : Bool)
  deriving DecidableEq, Repr

/-- The names of a Measurement Result's entries (44_interpreters.md R151 to R155), and its item numbers
(R156, R159). -/
inductive MKey where
  | totalVoltage
  | current
  | socPercent
  | highestVoltage
  | highestCell
  | lowestVoltage
  | lowestCell
  | highestTemperature
  | highestSensor
  | lowestTemperature
  | lowestSensor
  | bmsState
  | chargingMosfet
  | dischargingMosfet
  | bmsLife
  | capacityAh
  | cells
  | temperatureSensors
  | chargerRunning
  | loadRunning
  | item (n : Nat)
  deriving DecidableEq, Repr

/-- An entry's value: an integer, an exact quotient kept as the pair of R163 (numerator, divisor), or a truth value. -/
inductive MVal where
  | num (z : Int)
  | quot (num : Int) (den : Nat)
  | truth (b : Bool)
  deriving DecidableEq, Repr

/-- A Measurement Result (00_scope.md R9): a map, the empty map being the empty result; or the emitted fault
strings of R160, whose empty list is not the empty result. -/
inductive Measurement where
  | map (entries : List (MKey × MVal))
  | faults (names : List String)
  deriving DecidableEq, Repr

/-- What an operation returns to the host (log entry 8). -/
inductive Value where
  | byte (b : Byte)
  | truth (b : Bool)
  | text (t : List Char)
  | bytes (b : List Byte)
  | frame (f : Frame)
  | accept (p : Payload)
  | reject (c : Cause)
  | field (v : FieldValue)
  | tuple (vs : List FieldValue)
  | payloads (ps : List Payload)
  | measurement (m : Measurement)
  deriving DecidableEq, Repr

/-- EX_REQ (10 R27). -/
structure ExReq where
  cmd : Byte
  extra : List Byte
  maxResponses : Nat
  interCommandDelay : Duration
  readTimeout : Duration
  deriving DecidableEq, Repr

/-- The transmit framer (10 R12 to R14). -/
structure TxUnit where
  buf : Frame
  idx : Nat
  state : TxState
  deriving DecidableEq, Repr

/-- The receive validator (10 R15 to R19). -/
structure RxUnit where
  buf : Frame
  idx : Nat
  sum : Byte
  expect : Byte
  state : RxState
  deriving DecidableEq, Repr

/-- The field decoder (10 R20 to R23): FCUR, FDBUF, FD_STATE, FVAL and FVAL_KIND. -/
structure FdUnit where
  cur : Nat
  buf : Payload
  state : FdState
  val : Word32
  kind : Byte
  deriving DecidableEq, Repr

/-- The exchange sequencer (10 R26, R27). -/
structure ExUnit where
  state : ExState
  attempt : Nat
  collected : List Payload
  req : ExReq
  deriving DecidableEq, Repr

/-- The Device State (10 R28). -/
structure DeviceState where
  cells : Byte
  sensors : Byte
  deriving DecidableEq, Repr

/-- The link as the model sees it: the event history of 20_memory.md R52, the transmit stream of R40, the bytes the
transport holds that no read has taken yet (R40's receive stream, 92_eei_decisions.md D28), and the oracle of 42 R112
(whether it has answered the read in progress, the answers still to come, and how many free answers have been drawn;
log entry 4). -/
structure Link where
  history : List LinkEvent
  sent : List Byte
  buffered : List Byte
  answered : Bool
  oracle : List (List Byte)
  draws : Nat
  deriving DecidableEq, Repr

/-- The nine interpreters (44 R151 to R160). -/
inductive Interp where
  | soc
  | cellVoltageRange
  | temperatureRange
  | mosfetStatus
  | status
  | cellVoltages
  | temperatures
  | balancingStatus
  | faultCodes
  deriving DecidableEq, Repr

/-- A call of the owner that takes more than one event (42 R114; log entry 7). -/
inductive Call where
  | write
  | read (timeout : Duration)
  | sleep (d : Duration)
  | attempt
  | exchange
  | interp (k : Interp)
  | decodeFields
  | reassemble
  deriving DecidableEq, Repr

/-- Where in its call the owner stands, between two events (42 R120, 70 R221; log entry 6): at a strobe or a transport call that
it issues next, or in a wait. The operands are what the pseudocode holds in its variables there. -/
inductive Phase where
  /-- R120's SEND, step 1 of R115: LinkFlush is next, then the write of the frame -/
  | flush (f : Frame)
  /-- R120's SEND: TX_LOAD is next -/
  | load (f : Frame)
  /-- R120's SEND: waits for the last TX_BYTE -/
  | send
  /-- R120's PACE, and SLEEP alone: waits for the return of SLEEP -/
  | pace
  /-- R120's COLLECT: RX_ARM is next -/
  | arm
  /-- R120's COLLECT: waits for the end of the read -/
  | collect
  /-- R120's BACKOFF: waits for the return of SLEEP -/
  | backoff
  /-- 43 R138: FD_LOAD(p, 0) is next, then the schema -/
  | bind (p : Payload) (schema : List Byte)
  /-- 43 R138: FIELD(d) is next, then the schema's rest, the values `got` read -/
  | decode (d : Byte) (schema : List Byte) (got : List FieldValue)
  /-- 44 R156: FD_LOAD(p, 1) is next, then the frames `ps`, the items before number `item` made -/
  | bindItems (k : Series) (p : Payload) (ps : List Payload) (item : Nat) (got : List (MKey × MVal))
  /-- 44 R156: FIELD is next in a frame of which up to `n` fields follow it -/
  | items (k : Series) (n : Nat) (ps : List Payload) (item : Nat) (got : List (MKey × MVal))
  deriving DecidableEq, Repr

/-- The owner in a call (42 R114): the call, and where in it the owner stands. -/
structure Wait where
  call : Call
  phase : Phase
  deriving DecidableEq, Repr

/-- A request or event of the agenda (log entry 3). -/
inductive Request where
  /-- an operation invoked by its own strobe, call or event (30 R68) -/
  | op (i : Instr)
  /-- a binary word at one of the ports -/
  | word (w : PortWord)
  /-- the next event of the link or the clock, whichever it is -/
  | event
  /-- the return of SLEEP (60 R190) -/
  | wake
  deriving DecidableEq, Repr

/-- The machine: the configuration, the registers of 10_state.md R10, the link, and the model's own fields (log entries 3, 4, 7,
8, 9); INVENTORY.md lists them with their rules. -/
structure State where
  cfg : Config
  tx : TxUnit
  rx : RxUnit
  fd : FdUnit
  lastCause : Cause
  ex : ExUnit
  dev : DeviceState
  link : Link
  raised : List Raise
  ret : Option Value
  owner : Option Wait
  agenda : List Request
  deriving DecidableEq, Repr

/-- Where the machine has no step. -/
inductive Fault where
  /-- TX_BYTE while TX_STATE is not TX_SENDING: "in TX_IDLE the event cannot occur" (41 R95). Raised by TX_BYTE.
  Safe: no state follows. -/
  | txByteNotEnabled
  /-- RX_ABORT while RX_STATE is not RX_RECEIVING: "Enabled only when RX_STATE = RX_RECEIVING" (41 R98).
  Raised by RX_ABORT. Safe: no state follows. -/
  | rxAbortNotEnabled
  /-- WRITE, FRAME_REQUEST, READ, SLEEP, ATTEMPT, EXCHANGE, an interpreter, DECODE_FIELDS or REASSEMBLE started while a call is
  in progress: a second owner, which "has no defined behaviour" (70 R210, 42 R116 corner f). Raised by those seventeen
  operations. Safe: no state follows. -/
  | secondOwner
  deriving DecidableEq, Repr

/-- Why a request is turned away. -/
inductive Refusal where
  /-- an instruction without a meaning yet; raised by no arm of this model. Safe. -/
  | notModelled (mnemonic : String)
  /-- a word that is no operation; raised by the step. Safe. -/
  | undecodable (e : DecodeError)
  /-- an agenda entry that is no operation of the machine (`Instr.wf`); raised by the step. Safe. -/
  | illFormed
  deriving DecidableEq, Repr

/-- EX_REQ at reset: the spec gives "no value" (10 R27); the defaults of R5 and zeros (log entry 2, DESIGN CHOICE). -/
def ExReq.reset : ExReq := ⟨0, [], defaultMaxResponses, 0, 0⟩

/-- R12 to R14. TXBUF holds "no value"; zeros (log entry 2, DESIGN CHOICE). -/
def TxUnit.reset : TxUnit := ⟨Vector.replicate frameLen 0, 0, .idle⟩

/-- R15 to R19. RXBUF and RX_EXPECT hold "no value"; zeros (log entry 2, DESIGN CHOICE). -/
def RxUnit.reset : RxUnit := ⟨Vector.replicate frameLen 0, 0, 0, 0, .idle⟩

/-- R20 to R23. FDBUF, FVAL and FVAL_KIND hold "no value"; zeros (log entry 2, DESIGN CHOICE). -/
def FdUnit.reset : FdUnit := ⟨0, Vector.replicate payloadLen 0, .empty, 0, 0⟩

/-- R26, R27. -/
def ExUnit.reset : ExUnit := ⟨.idle, 0, [], ExReq.reset⟩

/-- The machine right after reset (70 R200): the registers at their reset values, the configuration whatever was
bound (log entry 1), nothing recorded, nothing requested. -/
def State.reset : State where
  cfg := Config.bound
  tx := TxUnit.reset
  rx := RxUnit.reset
  fd := FdUnit.reset
  lastCause := .none
  ex := ExUnit.reset
  dev := ⟨0, 0⟩
  link := ⟨[], [], [], false, [], 0⟩
  raised := []
  ret := none
  owner := none
  agenda := []

end Sys2Proof.Machine
end

