-- ==== Sys2Proof/Machine/Flags.lean ====
section
/-! DEFINITION. The status flags of 10_state.md R24: all derived from the state registers, none stored. -/

namespace Sys2Proof.Machine

def txBusy (s : State) : Bool := s.tx.state == .sending

def rxBusy (s : State) : Bool := s.rx.state == .receiving

/-- The four done values of 10 R19. -/
def RxState.isDone : RxState → Bool
  | .idle => false
  | .receiving => false
  | .accept => true
  | .rejectCmd => true
  | .rejectCsum => true
  | .noData => true

def rxDone (s : State) : Bool := s.rx.state.isDone

def rxOk (s : State) : Bool := s.rx.state == .accept

def rxErrCmd (s : State) : Bool := s.rx.state == .rejectCmd

def rxErrCsum (s : State) : Bool := s.rx.state == .rejectCsum

def rxEmpty (s : State) : Bool := s.rx.state == .noData

def fdOk (s : State) : Bool := s.fd.state == .loaded

def fdErr (s : State) : Bool := s.fd.state == .faulted

def fdEnd (s : State) : Bool := s.fd.state == .loaded && s.fd.cur == payloadLen

/-- The busy condition of TX_LOAD and RX_ARM (41 R94, R96). -/
def lineBusy (s : State) : Bool := txBusy s || rxBusy s

/-- A call of the sequencer is in progress: EX_RUNNING, or the owner blocked in a read (42 R116 corner f, 70 R210). -/
def engaged (s : State) : Bool := s.ex.state == .running || s.owner.isSome

end Sys2Proof.Machine
end

