-- ==== Sys2Proof/Machine/Operands.lean ====
section
/-! DEFINITION. Operand forms: the bytes of a payload, the descriptor byte's fields, the value of a field,
the eight bytes FD_LOAD takes, the characters of hex text. -/

namespace Sys2Proof.Machine

/-- A big-endian number: the first byte is the most significant (20_memory.md R43). -/
def bigEndian (bs : List Byte) : Nat := bs.foldl (fun acc b => 256 * acc + b.toNat) 0

/-- MemRead(addr, n) over a payload buffer (00_scope.md R7, 20 R43). -/
def memRead (p : Payload) (addr n : Nat) : Nat := bigEndian ((p.toList.drop addr).take n)

/-- d[1:0], the width field of a descriptor (30 R66). -/
def descW (d : Byte) : Nat := (d.extractLsb' 0 2).toNat

/-- d[2], the sign bit of a descriptor (30 R66). -/
def descS (d : Byte) : Bool := d.getLsbD 2

/-- d[3], the boolean bit of a descriptor (30 R66). -/
def descB (d : Byte) : Bool := d.getLsbD 3

/-- Reserved descriptor codes by their fields: W = 11, or B = 1 with W or S non-zero, or any of d[7:4] set (30 R67). -/
def descReserved (d : Byte) : Bool :=
  descW d == 3 || (descB d && (descW d != 0 || descS d)) || d.extractLsb' 4 4 != 0

/-- The width of a descriptor in bytes (30 R66). -/
def descWidth (d : Byte) : Nat := 1 <<< descW d

/-- Two's complement reading of a `bits`-bit number (00 R7; log entry 10). -/
def sext (bits raw : Nat) : Int := if raw < 2 ^ (bits - 1) then (raw : Int) else (raw : Int) - (2 ^ bits : Nat)

/-- The value FIELD(d) makes of the raw number (43 R139). -/
def fieldValue (d : Byte) (raw : Nat) : FieldValue :=
  if descS d then .num (sext (8 * descWidth d) raw)
  else if descB d then .truth (raw != 0)
  else .num raw

/-- The register image of a value: modulo 2^32, true 1 and false 0 (43 R139). -/
def fvalImage : FieldValue → Word32
  | .num z => BitVec.ofInt 32 z
  | .truth b => if b then 1 else 0

/-- A decoded value as a number (44 R163); a truth value counts 0 or 1. -/
def FieldValue.toInt : FieldValue → Int
  | .num z => z
  | .truth b => if b then 1 else 0

/-- A decoded value as a truth value; a number counts by being non-zero. -/
def FieldValue.toBool : FieldValue → Bool
  | .num z => z != 0
  | .truth b => b

/-- Addition of bytes modulo CSUM_MOD (40_byte_codec.md R80, 10_state.md R17). -/
def addByte (a b : Byte) : Byte := BitVec.ofNat 8 ((a.toNat + b.toNat) % csumMod)

/-- The payload region of a request: the extra bytes first, zeros after (30 R62). -/
def padPayload (extra : List Byte) : Payload := Vector.ofFn fun i => extra.getD i.val 0

/-- RX_PAYLOAD has a value only in RX_ACCEPT (10 R19). -/
def rxPayload (s : State) : Option Payload :=
  if s.rx.state = .accept then some (framePayload s.rx.buf) else none

/-- RX_SEQ (10 R19). -/
def rxSeq (s : State) : Option Byte := if s.rx.state = .accept then some s.rx.buf[offPayload] else none

/-- RX_CMD (10 R19). -/
def rxCmd (s : State) : Option Byte := if s.rx.state = .accept then some s.rx.buf[offCmd] else none

/-- The eight bytes an operand form stands for, none when it holds no value (43 R130). -/
def payloadOperand (s : State) : PayloadSrc → Option Payload
  | .rxPayload => rxPayload s
  | .collected i => s.ex.collected[i]?
  | .bytes p => some p

/-- digit(n) of 40 R84, for a nibble. -/
def hexDigit (n : Nat) : Char := if n < 10 then Char.ofNat (48 + n) else Char.ofNat (87 + n)

/-- The value of a lower-case hex digit; every other character is malformed (40 R85, U1). -/
def hexValue (c : Char) : Option Nat :=
  if 48 ≤ c.toNat ∧ c.toNat ≤ 57 then some (c.toNat - 48)
  else if 97 ≤ c.toNat ∧ c.toNat ≤ 102 then some (c.toNat - 87)
  else none

end Sys2Proof.Machine
end

