-- ==== Sys2Proof/Machine/Ops.lean ====
section
/-! DEFINITION. The operations over the registers that the meanings share: taking a cause (60_exceptions.md R186),
returning a value, the link's primitives, and the register steps of the three L0 units. There is no return
instruction (60 R187): what leaves a cause's state is the next RX_ARM, FD_LOAD or RESET. -/

namespace Sys2Proof.Machine

/-- The cause code of a raise (60 R180). -/
def Raise.cause : Raise → Cause
  | .rxCmdMismatch _ _ => .rxCmdMismatch
  | .rxCsumFail _ _ => .rxCsumFail
  | .rxNoData _ => .rxNoData
  | .exRetriesExhausted => .exRetriesExhausted
  | .txBadLen _ => .txBadLen
  | .opBusy => .opBusy
  | .fdNotLoaded => .fdNotLoaded
  | .fdLoadRange _ => .fdRange
  | .fdFieldRange _ _ => .fdRange
  | .fdBadDesc _ => .fdBadDesc

/-- The number of a cause (60 R180). -/
def Cause.code : Cause → Nat
  | .none => 0
  | .rxCmdMismatch => 1
  | .rxCsumFail => 2
  | .rxNoData => 3
  | .exRetriesExhausted => 4
  | .txBadLen => 5
  | .opBusy => 6
  | .fdNotLoaded => 7
  | .fdRange => 8
  | .fdBadDesc => 9

/-- LAST_CAUSE and the info of the raise (60 R186, R189). -/
def recordCause (r : Raise) (s : State) : State :=
  { s with lastCause := r.cause, raised := s.raised ++ [r] }

def setRxState (x : RxState) (s : State) : State := { s with rx := { s.rx with state := x } }

def setFdState (x : FdState) (s : State) : State := { s with fd := { s.fd with state := x } }

/-- EX_STATE <- EX_IDLE; EX_ATTEMPT <- 0 (42 R116). -/
def closeExchange (s : State) : State := { s with ex := { s.ex with state := .idle, attempt := 0 } }

/-- TAKING A CAUSE: the entry actions of 60 R186, cause by cause. -/
def takeCause (r : Raise) (s : State) : State :=
  match r with
  | .rxCmdMismatch _ _ => setRxState .rejectCmd (recordCause r s)
  | .rxCsumFail _ _ => setRxState .rejectCsum (recordCause r s)
  | .rxNoData _ => setRxState .noData (recordCause r s)
  | .exRetriesExhausted => closeExchange (recordCause r s)
  | .txBadLen _ => recordCause r s
  | .opBusy => recordCause r s
  | .fdNotLoaded => recordCause r s
  | .fdLoadRange _ => recordCause r s
  | .fdFieldRange _ _ => setFdState .faulted (recordCause r s)
  | .fdBadDesc _ => setFdState .faulted (recordCause r s)

/-- What the operation returned to the host (log entry 8). -/
def setRet (v : Option Value) (s : State) : State := { s with ret := v }

def setOwner (c : Option Wait) (s : State) : State := { s with owner := c }

/-- The owner's call stands at `p`: it has returned nothing yet. -/
def waitFor (c : Call) (p : Phase) (s : State) : State := setRet none (setOwner (some ⟨c, p⟩) s)

/-- The owner's call returns. -/
def returnCall (v : Option Value) (s : State) : State := setRet v (setOwner none s)

/-- The end of an operation that returns nothing. -/
def done (s : State) : Host.Outcome State Fault Refusal := .next (setRet none s)

/-- The end of an operation that returns a value, or nothing when it raised. -/
def give (v : Option Value) (s : State) : Host.Outcome State Fault Refusal := .next (setRet v s)

/-- An entry of the event history (20 R52). -/
def record (e : LinkEvent) (s : State) : State :=
  { s with link := { s.link with history := s.link.history ++ [e] } }

/-- The bytes the transport holds (20 R40, 92 D28). -/
def setBuffered (bs : List Byte) (s : State) : State := { s with link := { s.link with buffered := bs } }

/-- The bytes reach the transport, behind those it holds (20 R51 d). -/
def bufferBytes (bs : List Byte) (s : State) : State := setBuffered (s.link.buffered ++ bs) s

/-- LinkFlush (42 R110, 20 R53): every byte the transport holds is dropped; the event is recorded. No register of the
validator is touched. It does the same in RX_RECEIVING, where R110 says that no FLUSH is issued; the bytes dropped there are
also the rest of an answer the oracle has given to the read in progress (log entry 5, DESIGN CHOICE). -/
def flushLink (s : State) : State := record .flush (setBuffered [] s)

/-- TXBUF <- f, TXIDX <- 0, TX_STATE <- TX_SENDING, in one event (41 R94, 20 R48). -/
def loadTx (f : Frame) (s : State) : State := { s with tx := ⟨f, 0, .sending⟩ }

/-- The byte TX_BYTE emits: TXBUF[TXIDX] (41 R95). -/
def txNext (s : State) : Byte := s.tx.buf.toList.getD s.tx.idx 0

/-- TX_BYTE (41 R95): emit TXBUF[TXIDX], count it, end after the last. The byte that ends a frame completes a LinkWrite of
it, whoever loaded it, and the write is recorded then (R99, 42 R111; log entry 13, DESIGN CHOICE). -/
def sendByte (s : State) : State :=
  { s with
    link := { s.link with
      sent := s.link.sent ++ [txNext s]
      history := s.link.history ++ if s.tx.idx + 1 = frameLen then [.write s.tx.buf] else [] }
    tx := { s.tx with
      idx := s.tx.idx + 1
      state := if s.tx.idx + 1 = frameLen then .idle else s.tx.state } }

/-- The register step of RX_ARM (41 R96). The oracle has not answered this read yet (log entry 4). -/
def armRx (expect : Byte) (s : State) : State :=
  { s with
    rx := { s.rx with expect := expect, idx := 0, sum := 0, state := .receiving }
    link := { s.link with answered := false } }

/-- RXBUF[RXIDX] <- b, the running sum of the offsets before OFF_CSUM, RXIDX + 1 (41 R97, 10 R17). -/
def storeByte (b : Byte) (s : State) : State :=
  { s with rx := { s.rx with
      buf := s.rx.buf.setIfInBounds s.rx.idx b
      sum := if s.rx.idx < offCsum then addByte s.rx.sum b else s.rx.sum
      idx := s.rx.idx + 1 } }

/-- The judgement at the 13th byte: the command id first, then the checksum (41 R97, 60 R188). -/
def judgeFrame (s : State) : State :=
  if s.rx.buf[offCmd] ≠ s.rx.expect then takeCause (.rxCmdMismatch s.rx.buf[offCmd] s.rx.expect) s
  else if s.rx.buf[offCsum] ≠ s.rx.sum then takeCause (.rxCsumFail s.rx.buf[offCsum] s.rx.sum) s
  else setRxState .accept s

/-- The register step of RX_BYTE(b) (41 R97). -/
def takeByte (b : Byte) (s : State) : State :=
  if (storeByte b s).rx.idx = frameLen then judgeFrame (storeByte b s) else storeByte b s

/-- The time-out of a read (41 R98): RX_NO_DATA with the number of bytes received. -/
def abortRx (s : State) : State := takeCause (.rxNoData s.rx.idx) s

/-- The bytes a read has taken so far. -/
def received (s : State) : List Byte := s.rx.buf.toList.take s.rx.idx

/-- The oracle's next answer to the read in progress (42 R112): the next listed one, else a free one, at most FRAME_LEN
bytes of it (log entry 4). -/
def drawAnswer (s : State) : List Byte × State :=
  match s.link.oracle with
  | r :: rest => (r.take frameLen, { s with link := { s.link with answered := true, oracle := rest } })
  | [] =>
    ((Config.linkAnswer s.link.draws).take frameLen,
      { s with link := { s.link with answered := true, draws := s.link.draws + 1 } })

/-- The next event of a read out of the bytes `bs`: the first of them, the others left with the transport; with none the
read times out (41 R97, R98). -/
def feed (bs : List Byte) (s : State) : State :=
  match bs with
  | b :: rest => takeByte b (setBuffered rest s)
  | [] => abortRx s

/-- RX_BYTE(b) (41 R97), `b` being the byte that reaches the transport: the validator takes the first byte that the transport
then holds, since bytes already held are delivered first and in their order (R96, 20 R51 d; log entry 17). Outside RX_RECEIVING
the block takes no byte: it stays with the transport (92 D28). -/
def rxByteEvent (b : Byte) (s : State) : State :=
  if rxBusy s then feed (s.link.buffered ++ [b]) s else bufferBytes [b] s

/-- The next event of the read in progress: a byte the transport holds; else the end of the oracle's answer; else the oracle
answers (42 R112, 41 R96: "bytes already buffered there will be the first delivered"). -/
def receiveNext (s : State) : State :=
  match s.link.buffered with
  | b :: rest => feed (b :: rest) s
  | [] => if s.link.answered then feed [] s else feed (drawAnswer s).1 (drawAnswer s).2

/-- FDBUF <- payload, FCUR <- start, FD_STATE <- FD_LOADED (43 R130). -/
def loadFd (p : Payload) (start : Nat) (s : State) : State :=
  { s with fd := { s.fd with buf := p, cur := start, state := .loaded } }

/-- A successful field: FVAL, FVAL_KIND and the cursor (43 R139). -/
def retireField (d : Byte) (v : FieldValue) (w : Nat) (s : State) : State :=
  { s with fd := { s.fd with val := fvalImage v, kind := d, cur := s.fd.cur + w } }

/-- CELLS and SENSORS (44 R155). -/
def setCounts (cells sensors : Byte) (s : State) : State := { s with dev := ⟨cells, sensors⟩ }

/-- EX_COLLECTED (42 R115). -/
def setCollected (ps : List Payload) (s : State) : State := { s with ex := { s.ex with collected := ps } }

/-- EX_ATTEMPT (42 R116). -/
def setAttempt (n : Nat) (s : State) : State := { s with ex := { s.ex with attempt := n } }

/-- EX_REQ latched, EX_STATE <- EX_RUNNING (42 R116). -/
def latchRequest (q : ExReq) (s : State) : State :=
  { s with ex := { s.ex with req := q, state := .running } }

end Sys2Proof.Machine
end

