-- ==== Sys2Proof/Machine/FieldDecoder.lean ====
section
/-! DEFINITION. The Field Decoder (43_field_decoder.md): FD_LOAD, the common body FIELD(d) of the field operations
(R139), the seven field operations and the reserved descriptor codes (30_encoding.md R67). -/

namespace Sys2Proof.Machine

/-- FD_LOAD (R130): no value in the operand before a start above 8 (60 R188). The flag says whether it loaded. -/
def fdLoadOp (operand : Option Payload) (start : Nat) (s : State) : State × Bool :=
  match operand with
  | none => (takeCause .fdNotLoaded s, false)
  | some p =>
    if payloadLen < start then (takeCause (.fdLoadRange start) s, false) else (loadFd p start s, true)

/-- FIELD(d) (R139): not loaded, then reserved descriptor, then range; else the big-endian field at the cursor. -/
def field (d : Byte) (s : State) : State × Option FieldValue :=
  if s.fd.state ≠ .loaded then (takeCause .fdNotLoaded s, none)
  else if descReserved d then (takeCause (.fdBadDesc d) s, none)
  else if payloadLen < s.fd.cur + descWidth d then (takeCause (.fdFieldRange s.fd.cur (descWidth d)) s, none)
  else
    (retireField d (fieldValue d (memRead s.fd.buf s.fd.cur (descWidth d))) (descWidth d) s,
      some (fieldValue d (memRead s.fd.buf s.fd.cur (descWidth d))))

/-- A field operation returns its value, or nothing when it raised (R139). -/
def giveField (r : State × Option FieldValue) : Host.Outcome State Fault Refusal := give (r.2.map .field) r.1

/-- U8 (R131). -/
def execU8 (s : State) : Host.Outcome State Fault Refusal := giveField (field 0x00 s)

/-- U16 (R134). -/
def execU16 (s : State) : Host.Outcome State Fault Refusal := giveField (field 0x01 s)

/-- U32 (R136). -/
def execU32 (s : State) : Host.Outcome State Fault Refusal := giveField (field 0x02 s)

/-- I8 (R132). -/
def execI8 (s : State) : Host.Outcome State Fault Refusal := giveField (field 0x04 s)

/-- I16 (R135). -/
def execI16 (s : State) : Host.Outcome State Fault Refusal := giveField (field 0x05 s)

/-- I32 (R137). -/
def execI32 (s : State) : Host.Outcome State Fault Refusal := giveField (field 0x06 s)

/-- BOOL (R133). -/
def execBool (s : State) : Host.Outcome State Fault Refusal := giveField (field 0x08 s)

/-- DESC_RESERVED (30 R67). -/
def execDescReserved (d : Byte) (s : State) : Host.Outcome State Fault Refusal := giveField (field d s)

/-- FD_LOAD (R130). -/
def execFdLoad (src : PayloadSrc) (start : Nat) (s : State) : Host.Outcome State Fault Refusal :=
  done (fdLoadOp (payloadOperand s src) start s).1

end Sys2Proof.Machine
end

