-- ==== Sys2Proof/Machine/Results.lean ====
section
/-! DEFINITION. What the Measurement Interpreters (44_interpreters.md) make of the decoded values of their payloads: schemas
(R164), the operands of multi-frame reassembly (R156), bitmaps (R159, R160), and the arithmetic of R163. -/

namespace Sys2Proof.Machine

/-- `ceil(a / b)` (00_scope.md R7). -/
def ceilDiv (a b : Nat) : Nat := (a + b - 1) / b

/-- The empty Measurement Result (R150). -/
def emptyResult : Measurement := .map []

/-- The command id of an interpreter (R150, 00 R6). -/
def interpCommand (c : Config) : Interp → Byte
  | .soc => c.cmdSoc
  | .cellVoltageRange => c.cmdCellVoltageRange
  | .temperatureRange => c.cmdTemperatureRange
  | .mosfetStatus => c.cmdMosfetStatus
  | .status => c.cmdStatus
  | .cellVoltages => c.cmdCellVoltages
  | .temperatures => c.cmdTemperatures
  | .balancingStatus => c.cmdBalancingStatus
  | .faultCodes => c.cmdFaultCodes

/-- `max_responses` of an interpreter's exchange (R150, R157, R158). -/
def interpResponses (d : DeviceState) : Interp → Nat
  | .soc => 1
  | .cellVoltageRange => 1
  | .temperatureRange => 1
  | .mosfetStatus => 1
  | .status => 1
  | .cellVoltages => ceilDiv d.cells.toNat voltPerFrame
  | .temperatures => ceilDiv d.sensors.toNat tempPerFrame
  | .balancingStatus => 1
  | .faultCodes => 1

/-- The series of a multi-frame interpreter (R157, R158). -/
def interpSeries : Interp → Option Series
  | .soc => none
  | .cellVoltageRange => none
  | .temperatureRange => none
  | .mosfetStatus => none
  | .status => none
  | .cellVoltages => some .voltages
  | .temperatures => some .temperatures
  | .balancingStatus => none
  | .faultCodes => none

/-- The schema of an interpreter that decodes one payload (R164). The two of REASSEMBLE decode none so. GET_FAULT_CODES's eight
bytes are taken as `u8` fields (R150, R164; log entry 20). -/
def interpSchema : Interp → List Byte
  | .soc => [0x01, 0x01, 0x01, 0x01]
  | .cellVoltageRange => [0x05, 0x00, 0x05, 0x00]
  | .temperatureRange => [0x04, 0x04, 0x04, 0x04]
  | .mosfetStatus => [0x04, 0x08, 0x08, 0x00, 0x06]
  | .status => [0x00, 0x00, 0x00, 0x00]
  | .cellVoltages => []
  | .temperatures => []
  | .balancingStatus => List.replicate balanceBytes 0x00
  | .faultCodes => List.replicate faultRows 0x00

/-- GET_SOC's map (R151). -/
def socResult : List FieldValue → Option Measurement
  | [f0, _, f2, f3] =>
    some (.map [(.totalVoltage, .num f0.toInt), (.current, .num (f2.toInt - currentOffset)), (.socPercent, .num f3.toInt)])
  | _ => none

/-- GET_CELL_VOLTAGE_RANGE's map (R152). -/
def cellVoltageRangeResult : List FieldValue → Option Measurement
  | [f0, f1, f2, f3] =>
    some (.map [(.highestVoltage, .quot f0.toInt milli), (.highestCell, .num f1.toInt),
      (.lowestVoltage, .quot f2.toInt milli), (.lowestCell, .num f3.toInt)])
  | _ => none

/-- GET_TEMPERATURE_RANGE's map (R153). -/
def temperatureRangeResult : List FieldValue → Option Measurement
  | [f0, f1, f2, f3] =>
    some (.map [(.highestTemperature, .num (f0.toInt - tempOffset)), (.highestSensor, .num f1.toInt),
      (.lowestTemperature, .num (f2.toInt - tempOffset)), (.lowestSensor, .num f3.toInt)])
  | _ => none

/-- GET_MOSFET_STATUS's map (R154). -/
def mosfetStatusResult : List FieldValue → Option Measurement
  | [f0, f1, f2, f3, f4] =>
    some (.map [(.bmsState, .num f0.toInt), (.chargingMosfet, .truth f1.toBool),
      (.dischargingMosfet, .truth f2.toBool), (.bmsLife, .num f3.toInt), (.capacityAh, .quot f4.toInt milli)])
  | _ => none

/-- GET_STATUS's map (R155). -/
def statusResult : List FieldValue → Option Measurement
  | [f0, f1, f2, f3] =>
    some (.map [(.cells, .num f0.toInt), (.temperatureSensors, .num f1.toInt), (.chargerRunning, .num f2.toInt),
      (.loadRunning, .num f3.toInt)])
  | _ => none

/-- GET_STATUS's first two values (R155). -/
def statusCounts (vs : List FieldValue) (s : State) : State :=
  match vs with
  | f0 :: f1 :: _ => setCounts (BitVec.ofInt 8 f0.toInt) (BitVec.ofInt 8 f1.toInt) s
  | _ => s

/-- count of REASSEMBLE (R156): CELLS or SENSORS. -/
def seriesCount (d : DeviceState) : Series → Nat
  | .voltages => d.cells.toNat
  | .temperatures => d.sensors.toNat

/-- per_frame of REASSEMBLE (R156). -/
def seriesPerFrame : Series → Nat
  | .voltages => voltPerFrame
  | .temperatures => tempPerFrame

/-- w of REASSEMBLE (R156). -/
def seriesWidth : Series → Nat
  | .voltages => voltWidth
  | .temperatures => tempWidth

/-- d of REASSEMBLE: I16 or I8 (R157, R158, D22). -/
def seriesDescriptor : Series → Byte
  | .voltages => 0x05
  | .temperatures => 0x04

/-- g of REASSEMBLE: the raw integer, or minus 40 (R157, R158). -/
def seriesValue (k : Series) (v : FieldValue) : MVal :=
  match k with
  | .voltages => .num v.toInt
  | .temperatures => .num (v.toInt - tempOffset)

/-- The balancing bitmap (R159): the first byte is the most significant. -/
def balanceBitmap (bytes : List Nat) : Nat := bytes.foldl (fun acc b => 2 ^ 8 * acc + b) 0

/-- GET_BALANCING_STATUS's map (R159): bit i is cell i + 1. -/
def balancingResult (vs : List FieldValue) : Measurement :=
  .map ((List.range balanceBits).map fun i =>
    (.item (i + 1), .truth ((balanceBitmap (vs.map fun v => v.toInt.toNat)).testBit i)))

/-- FAULT_TABLE[i][j] (R160, 00 R6). -/
def FaultTable.entry (t : FaultTable) (i j : Nat) : Option String :=
  if i < faultRows - 1 then (t.rows[i]?).bind fun row => row[j]? else t.last[j]?

/-- GET_FAULT_CODES's list (R160): ascending byte, then ascending bit; the last byte's bits past FAULT_LAST_ROW_COLS have no
entry. -/
def faultNames (t : FaultTable) (bytes : List Nat) : List String :=
  (List.range faultRows).flatMap fun i =>
    (List.range faultCols).filterMap fun j =>
      if (bytes.getD i 0).testBit j ∧ (i < faultRows - 1 ∨ j < faultLastRowCols) then FaultTable.entry t i j else none

/-- What an interpreter makes of the values of its schema (R150 to R160); GET_STATUS writes the Device State too. -/
def interpValues (k : Interp) (vs : List FieldValue) (s : State) : State × Option Measurement :=
  match k with
  | .soc => (s, socResult vs)
  | .cellVoltageRange => (s, cellVoltageRangeResult vs)
  | .temperatureRange => (s, temperatureRangeResult vs)
  | .mosfetStatus => (s, mosfetStatusResult vs)
  | .status => (statusCounts vs s, statusResult vs)
  | .cellVoltages => (s, none)
  | .temperatures => (s, none)
  | .balancingStatus => (s, some (balancingResult vs))
  | .faultCodes => (s, some (.faults (faultNames s.cfg.faultTable (vs.map fun v => v.toInt.toNat))))

end Sys2Proof.Machine
end

