-- ==== Sys2Proof/Machine/Decoding.lean ====
section
/-! DEFINITION. The calls that are made of field decoder strobes, one event each (70_reset_and_hazards.md R221): DECODE_FIELDS
(43_field_decoder.md R138), REASSEMBLE (44_interpreters.md R156), and an interpreter's decoding of its payloads (R150). Between
two strobes the owner does what the pseudocode says, as part of the event before (log entry 6). -/

namespace Sys2Proof.Machine

/-- All values of the schema are read: DECODE_FIELDS returns the tuple (R138), an interpreter what it makes of them (R150). -/
def returnFields (c : Call) (vs : List FieldValue) (s : State) : State :=
  match c with
  | .interp k => returnCall ((interpValues k vs s).2.map .measurement) (interpValues k vs s).1
  | .decodeFields => returnCall (some (.tuple vs)) s
  | .write => returnCall none s
  | .read _ => returnCall none s
  | .sleep _ => returnCall none s
  | .attempt => returnCall none s
  | .exchange => returnCall none s
  | .reassemble => returnCall none s

/-- R138's loop: another FIELD, or the end of the schema. -/
def nextField (c : Call) (schema : List Byte) (got : List FieldValue) (s : State) : State :=
  match schema with
  | [] => returnFields c got s
  | d :: ds => waitFor c (.decode d ds got) s

/-- R138's FD_LOAD(payload, 0). A raise ends the call: no tuple is returned. -/
def bindSchema (c : Call) (operand : Option Payload) (schema : List Byte) (s : State) : State :=
  match fdLoadOp operand 0 s with
  | (t, false) => returnCall none t
  | (t, true) => nextField c schema [] t

/-- R138's FIELD(d). A raise ends the call: no tuple is returned. -/
def fieldStrobe (c : Call) (d : Byte) (schema : List Byte) (got : List FieldValue) (s : State) : State :=
  match field d s with
  | (t, none) => returnCall none t
  | (t, some v) => nextField c schema (got ++ [v]) t

/-- REASSEMBLE's outer loop (R156): a frame whose sequence byte is 0xFF is skipped, the next other one is loaded; after the last
the items are returned. -/
def nextFrame (c : Call) (k : Series) : List Payload → Nat → List (MKey × MVal) → State → State
  | [], _, got, s => returnCall (some (.measurement (.map got))) s
  | p :: ps, item, got, s =>
    if p[0] = seqInvalid then nextFrame c k ps item got s else waitFor c (.bindItems k p ps item got) s

/-- REASSEMBLE's inner loop (R156) with `n` fields left in the frame, at item number `item`. -/
def nextItem (c : Call) (k : Series) (n : Nat) (ps : List Payload) (item : Nat) (got : List (MKey × MVal)) (s : State) : State :=
  match n with
  | 0 => nextFrame c k ps item got s
  | n + 1 =>
    if payloadLen < s.fd.cur + seriesWidth k then nextFrame c k ps item got s
    else if seriesCount s.dev k < item then nextFrame c k ps item got s
    else waitFor c (.items k n ps item got) s

/-- REASSEMBLE's FD_LOAD(p, 1) (R156). -/
def bindItems (c : Call) (k : Series) (p : Payload) (ps : List Payload) (item : Nat) (got : List (MKey × MVal)) (s : State) :
    State :=
  nextItem c k (seriesPerFrame k) ps item got (fdLoadOp (some p) 1 s).1

/-- REASSEMBLE's FIELD (R156). A raise, of which there is none where the loop's conditions hold, ends the call. -/
def itemStrobe (c : Call) (k : Series) (n : Nat) (ps : List Payload) (item : Nat) (got : List (MKey × MVal)) (s : State) : State :=
  match field (seriesDescriptor k) s with
  | (t, none) => returnCall none t
  | (t, some v) => nextItem c k n ps (item + 1) (got ++ [(.item item, seriesValue k v)]) t

/-- What an interpreter does with the payloads of its exchange (R150): nothing collected is the empty result and changes no
state; else it decodes the first payload, or reassembles all of them. -/
def interpret (k : Interp) (ps : List Payload) (s : State) : State :=
  match ps with
  | [] => returnCall (some (.measurement emptyResult)) s
  | p :: rest =>
    match interpSeries k with
    | some r => nextFrame (.interp k) r (p :: rest) 1 [] s
    | none => waitFor (.interp k) (.bind p (interpSchema k)) s

/-- DECODE_FIELDS (R138): its operand is sampled and loaded by its first event. -/
def execDecodeFields (src : PayloadSrc) (schema : List Byte) (s : State) : Host.Outcome State Fault Refusal :=
  if engaged s then .fault .secondOwner else .next (bindSchema .decodeFields (payloadOperand s src) schema s)

/-- REASSEMBLE (R156) over the payloads given, with the operands of R157 or R158 (log entry 28). -/
def execReassemble (ps : List Payload) (k : Series) (s : State) : Host.Outcome State Fault Refusal :=
  if engaged s then .fault .secondOwner else .next (nextFrame .reassemble k ps 1 [] s)

end Sys2Proof.Machine
end

