-- ==== Sys2Proof/Machine/ByteCodec.lean ====
section
/-! DEFINITION. The Byte Codec (40_byte_codec.md): CSUM, VERIFY, B2H, H2B. Pure functions; the operation returns the
function's result and writes no register. -/

namespace Sys2Proof.Machine

/-- CSUM (R80): the sum of the bytes modulo CSUM_MOD; 0 for no bytes. -/
def checksum (b : List Byte) : Byte := b.foldl addByte 0

/-- VERIFY (R81): the last byte is the checksum of the bytes before it; false for no bytes. -/
def verifyChecksum (b : List Byte) : Bool :=
  match b.getLast? with
  | none => false
  | some k => checksum b.dropLast == k

/-- B2H (R84): two lower-case digits, the high nibble first (log entry 11). -/
def byteToHex (b : Byte) : List Char := [hexDigit (b.toNat / 16), hexDigit (b.toNat % 16)]

/-- `bytes_to_hex`: B2H of each byte in order (R84, R86, 90_conflicts.md C4). -/
def bytesToHex : List Byte → List Char
  | [] => []
  | b :: bs => byteToHex b ++ bytesToHex bs

/-- H2B (R85) on well-formed text; none on an odd length or a character that is no lower-case hex digit. -/
def hexToBytes : List Char → Option (List Byte)
  | [] => some []
  | [_] => none
  | c :: d :: rest =>
    match hexValue c, hexValue d, hexToBytes rest with
    | some h, some l, some bs => some (BitVec.ofNat 8 (16 * h + l) :: bs)
    | _, _, _ => none

/-- CSUM (R80). -/
def execCsum (b : List Byte) (s : State) : Host.Outcome State Fault Refusal := give (some (.byte (checksum b))) s

/-- VERIFY (R81). -/
def execVerify (b : List Byte) (s : State) : Host.Outcome State Fault Refusal :=
  give (some (.truth (verifyChecksum b))) s

/-- B2H (R84). -/
def execB2h (b : Byte) (s : State) : Host.Outcome State Fault Refusal := give (some (.text (byteToHex b))) s

/-- H2B (R85). Malformed text is refused as 93_implementation_defined.md U1 says: the operation does nothing and returns
nothing, never a zero byte (log entry 19). -/
def execH2b (text : List Char) (s : State) : Host.Outcome State Fault Refusal :=
  give ((hexToBytes text).map .bytes) s

end Sys2Proof.Machine
end

