-- ==== Sys2Proof/Machine/FrameCodec.lean ====
section
/-! DEFINITION. The Frame Codec (41_frame_codec.md): the functions ENCODE and VALIDATE, their byte-serial realisation
TX_LOAD, TX_BYTE, RX_ARM, RX_BYTE, RX_ABORT, and a frame that reaches the receive side (30_encoding.md R63). -/

namespace Sys2Proof.Machine

/-- A frame of these header and payload bytes with its checksum at offset 12 (R91). -/
def sealFrame (start addr cmd len : Byte) (p : Payload) : Frame :=
  wireFrame start addr cmd len p (checksum (start :: addr :: cmd :: len :: p.toList))

/-- ENCODE (R91); none when the extra payload is longer than eight bytes (TX_BAD_LEN). -/
def encodeFrame (addr cmd : Byte) (extra : List Byte) : Option Frame :=
  if payloadLen < extra.length then none
  else some (sealFrame startByte addr cmd lenByte (padPayload extra))

/-- VALIDATE (R92): the command id, then the checksum; START, ADDR and LEN are compared with nothing. -/
def validateFrame (buf : Frame) (expect : Byte) : Except Cause Payload :=
  if buf[offCmd] ≠ expect then .error .rxCmdMismatch
  else if verifyChecksum buf.toList then .ok (framePayload buf)
  else .error .rxCsumFail

/-- The result of VALIDATE as a returned value. -/
def validateValue : Except Cause Payload → Value
  | .ok p => .accept p
  | .error c => .reject c

/-- ENCODE (R91). -/
def execEncode (addr cmd : Byte) (extra : List Byte) (s : State) : Host.Outcome State Fault Refusal :=
  match encodeFrame addr cmd extra with
  | some f => give (some (.frame f)) s
  | none => done (takeCause (.txBadLen extra.length) s)

/-- VALIDATE (R92): a pure function; a reject is a result (log entry 21). -/
def execValidate (buf : Frame) (expect : Byte) (s : State) : Host.Outcome State Fault Refusal :=
  give (some (validateValue (validateFrame buf expect))) s

/-- TX_LOAD (R94): OP_BUSY before TX_BAD_LEN (60 R188). -/
def execTxLoad (cmd : Byte) (extra : List Byte) (s : State) : Host.Outcome State Fault Refusal :=
  if lineBusy s then done (takeCause .opBusy s)
  else
    match encodeFrame s.cfg.addr cmd extra with
    | some f => done (loadTx f s)
    | none => done (takeCause (.txBadLen extra.length) s)

/-- TX_BYTE (R95): in TX_IDLE the event cannot occur (log entry 17). -/
def execTxByte (s : State) : Host.Outcome State Fault Refusal :=
  if txBusy s then done (sendByte s) else .fault .txByteNotEnabled

/-- RX_ARM (R96). -/
def execRxArm (expect : Byte) (s : State) : Host.Outcome State Fault Refusal :=
  if lineBusy s then done (takeCause .opBusy s) else done (armRx expect s)

/-- RX_BYTE (R97). -/
def execRxByte (b : Byte) (s : State) : Host.Outcome State Fault Refusal := done (rxByteEvent b s)

/-- RX_ABORT (R98): enabled only in RX_RECEIVING (log entry 17). -/
def execRxAbort (s : State) : Host.Outcome State Fault Refusal :=
  if rxBusy s then done (abortRx s) else .fault .rxAbortNotEnabled

/-- FRAME_RESPONSE (30 R63): the frame reaches the transport of the receive side; from there its bytes come as RX_BYTE events
to the read in progress, or stay until the next read or FLUSH (R97, 92 D28; log entry 22). -/
def execFrameResponse (start addr cmd len : Byte) (p : Payload) (k : Byte) (s : State) :
    Host.Outcome State Fault Refusal :=
  done (bufferBytes (wireFrame start addr cmd len p k).toList s)

end Sys2Proof.Machine
end

