-- ==== Sys2Proof/Machine/Sequencer.lean ====
section
/-! DEFINITION. The sequencer of the Exchange Engine as the state machine of 42_exchange_engine.md R120. Each transport call,
TX_LOAD and RX_ARM of an attempt is an event of its own (70_reset_and_hazards.md R221); what R115 and R116 do between two of
them, to registers of the sequencer only, is part of the event before (log entry 6). -/

namespace Sys2Proof.Machine

/-- A call that runs an EXCHANGE. -/
def Call.runsExchange : Call → Bool
  | .write => false
  | .read _ => false
  | .sleep _ => false
  | .attempt => false
  | .exchange => true
  | .interp _ => true
  | .decodeFields => false
  | .reassemble => false

/-- A call that runs ATTEMPT, alone or inside an EXCHANGE. -/
def Call.runsAttempt : Call → Bool
  | .write => false
  | .read _ => false
  | .sleep _ => false
  | .attempt => true
  | .exchange => true
  | .interp _ => true
  | .decodeFields => false
  | .reassemble => false

/-- What the list of an exchange, or of an attempt, is to the call that made it: the list itself (R115, R116), or the payloads an
interpreter decodes (44 R150). -/
def returnPayloads (c : Call) (ps : List Payload) (s : State) : State :=
  match c with
  | .interp k => interpret k ps s
  | .write => returnCall none s
  | .read _ => returnCall none s
  | .sleep _ => returnCall none s
  | .attempt => returnCall (some (.payloads ps)) s
  | .exchange => returnCall (some (.payloads ps)) s
  | .decodeFields => returnCall none s
  | .reassemble => returnCall none s

/-- An exception that is none of R120's: the attempt, and the EXCHANGE it is in, end with the empty list (60 R186;
log entries 16 and 30). -/
def abandon (c : Call) (s : State) : State :=
  returnPayloads c [] (if c.runsExchange then closeExchange s else s)

/-- R115 step 1, ENCODE: the frame of the attempt, or TX_BAD_LEN before anything is flushed. -/
def sendRequest (c : Call) (s : State) : State :=
  match encodeFrame s.cfg.addr s.ex.req.cmd s.ex.req.extra with
  | none => abandon c (takeCause (.txBadLen s.ex.req.extra.length) s)
  | some f => waitFor c (.flush f) s

/-- The next attempt of an EXCHANGE (R116, R120: BACKOFF to SEND), or the one of ATTEMPT. -/
def startAttempt (c : Call) (s : State) : State :=
  sendRequest c (if c.runsExchange then setAttempt (s.ex.attempt + 1) s else s)

/-- R115 step 1, LinkFlush: an event of its own. -/
def flushStrobe (c : Call) (f : Frame) (s : State) : State := waitFor c (.load f) (flushLink s)

/-- R115 step 1, the LinkWrite's TX_LOAD (R111): an event of its own. OP_BUSY ends the attempt (log entry 16). -/
def loadStrobe (c : Call) (f : Frame) (s : State) : State :=
  if lineBusy s then abandon c (takeCause .opBusy s) else waitFor c .send (loadTx f s)

/-- R115 step 3, the LinkRead's RX_ARM (R112): an event of its own. OP_BUSY ends the attempt (log entry 16). -/
def armStrobe (c : Call) (s : State) : State :=
  if lineBusy s then abandon c (takeCause .opBusy s) else waitFor c .collect (armRx s.ex.req.cmd s)

/-- ENDATT (R120): return what was collected, back off, or give up. -/
def endAttempt (c : Call) (s : State) : State :=
  if c.runsExchange then
    if s.ex.collected ≠ [] then returnPayloads c s.ex.collected (closeExchange s)
    else if s.ex.attempt < s.cfg.retryCount then waitFor c .backoff s
    else returnPayloads c [] (takeCause .exRetriesExhausted s)
  else returnPayloads c s.ex.collected s

/-- COLLECT (R115 step 3): another read while fewer than `max_responses` payloads are accepted. -/
def nextRead (c : Call) (s : State) : State :=
  if s.ex.collected.length < s.ex.req.maxResponses then waitFor c .arm s else endAttempt c s

/-- The end of a LinkRead: its entry in the history (R112, 20 R52). Every call of the transport and the clock is entered by the
event that ends it, so one that RESET cuts is not entered, though a read's bytes are gone (log entry 13, DESIGN CHOICE). -/
def endRead (timeout : Duration) (s : State) : State := record (.read timeout (received s)) s

/-- The judgement of a finished read (R115 step 3, R120): an accepted payload is collected, a rejected buffer discarded, a
short read ends the loop. LAST_CAUSE was written by the validator (41 R97, R98). -/
def judgeRead (c : Call) (s : State) : State :=
  match s.rx.state with
  | .accept => nextRead c (setCollected (s.ex.collected ++ [framePayload s.rx.buf]) (endRead s.ex.req.readTimeout s))
  | .rejectCmd => nextRead c (endRead s.ex.req.readTimeout s)
  | .rejectCsum => nextRead c (endRead s.ex.req.readTimeout s)
  | .noData => endAttempt c (endRead s.ex.req.readTimeout s)
  | .idle => endAttempt c (endRead s.ex.req.readTimeout s)
  | .receiving => endAttempt c (endRead s.ex.req.readTimeout s)

/-- After SEND: pace (R115 step 2); a WRITE returns. -/
def afterSend (c : Call) (s : State) : State :=
  if c.runsAttempt then waitFor c .pace s else returnCall none s

/-- After PACE: the sleep is entered in the history, the collection cleared (R115 step 3). -/
def afterDelay (c : Call) (s : State) : State := nextRead c (setCollected [] (record (.sleep s.ex.req.interCommandDelay) s))

/-- The return of SLEEP in PACE: a SLEEP alone returns, an attempt collects. -/
def afterPace (c : Call) (s : State) : State :=
  match c with
  | .sleep d => returnCall none (record (.sleep d) s)
  | .write => returnCall none s
  | .read _ => returnCall none s
  | .attempt => afterDelay .attempt s
  | .exchange => afterDelay .exchange s
  | .interp k => afterDelay (.interp k) s
  | .decodeFields => returnCall none s
  | .reassemble => returnCall none s

/-- After a read: a READ returns its bytes (R112), an attempt judges them. -/
def afterRead (c : Call) (s : State) : State :=
  match c with
  | .read t => returnCall (some (.bytes (received s))) (endRead t s)
  | .write => returnCall none s
  | .sleep _ => returnCall none s
  | .attempt => judgeRead .attempt s
  | .exchange => judgeRead .exchange s
  | .interp k => judgeRead (.interp k) s
  | .decodeFields => returnCall none s
  | .reassemble => returnCall none s

/-- After BACKOFF (R120): the sleep is entered in the history, the next attempt begins. -/
def afterBackoff (c : Call) (s : State) : State := startAttempt c (record (.sleep s.cfg.backoff) s)

/-- EXCHANGE (R116) from its start: latch the request, EX_RUNNING, the first attempt; with RETRY_COUNT = 0 nothing is sent. -/
def startExchange (c : Call) (q : ExReq) (s : State) : State :=
  if s.cfg.retryCount = 0 then returnPayloads c [] (takeCause .exRetriesExhausted (setAttempt 0 (latchRequest q s)))
  else startAttempt c (setAttempt 0 (latchRequest q s))

end Sys2Proof.Machine
end

