-- ==== Sys2Proof/Machine/Exchange.lean ====
section
/-! DEFINITION. The Exchange Engine (42_exchange_engine.md): the collaborator primitives FLUSH, WRITE, READ, SLEEP, the
operations ATTEMPT and EXCHANGE, and the events of the owner, the link and the clock that move a call (60_exceptions.md R190). -/

namespace Sys2Proof.Machine

/-- After an event of the line the owner goes on if that event ended its wait: TX_BUSY is false in SEND, or RX_DONE is true in
COLLECT (60 R190, 70 R221); otherwise nothing changes. -/
def settle (s : State) : State :=
  match s.owner with
  | none => s
  | some w =>
    match w.phase with
    | .send => if txBusy s then s else afterSend w.call s
    | .collect => if rxDone s then afterRead w.call s else s
    | .flush _ => s
    | .load _ => s
    | .pace => s
    | .arm => s
    | .backoff => s
    | .bind _ _ => s
    | .decode _ _ _ => s
    | .bindItems _ _ _ _ _ => s
    | .items _ _ _ _ _ => s

/-- The return of SLEEP (60 R190, R192): the owner goes on from PACE or BACKOFF. Where no SLEEP is pending the event has nothing to
return to, and the step changes nothing (log entry 17, DESIGN CHOICE). -/
def wake (s : State) : State :=
  match s.owner with
  | none => s
  | some w =>
    match w.phase with
    | .pace => afterPace w.call s
    | .backoff => afterBackoff w.call s
    | .send => s
    | .collect => s
    | .flush _ => s
    | .load _ => s
    | .arm => s
    | .bind _ _ => s
    | .decode _ _ _ => s
    | .bindItems _ _ _ _ _ => s
    | .items _ _ _ _ _ => s

/-- ONE EVENT of the link or the clock (92 D2): the transport takes a byte of the frame being sent, or delivers the next event of
the read in progress, or the clock lets SLEEP return. With none of the three enabled nothing happens. -/
def lineEvent (s : State) : State :=
  if txBusy s then settle (sendByte s)
  else if rxBusy s then settle (receiveNext s)
  else wake s

/-- ONE EVENT (92 D2): the owner's own next strobe or transport call where it stands at one, else an event of the link or the
clock. -/
def environment (s : State) : State :=
  match s.owner with
  | none => lineEvent s
  | some w =>
    match w.phase with
    | .flush f => flushStrobe w.call f s
    | .load f => loadStrobe w.call f s
    | .arm => armStrobe w.call s
    | .bind p schema => bindSchema w.call (some p) schema s
    | .decode d schema got => fieldStrobe w.call d schema got s
    | .bindItems k p ps item got => bindItems w.call k p ps item got s
    | .items k n ps item got => itemStrobe w.call k n ps item got s
    | .send => lineEvent s
    | .pace => lineEvent s
    | .collect => lineEvent s
    | .backoff => lineEvent s

/-- FLUSH (R110), in every RX_STATE. After an RX_ARM of the host the machine can be asked for it in RX_RECEIVING, where R110 says
that it is not issued and gives it no effect of its own: the model lets it take its full effect, so the read in progress goes on
without the bytes dropped and can time out short (log entry 5, DESIGN CHOICE). -/
def execFlush (s : State) : Host.Outcome State Fault Refusal := done (flushLink s)

/-- A blocking write of a frame (R111): loaded, and the owner blocked until its thirteen bytes are sent. On a busy line the
load raises OP_BUSY and nothing is sent (41 R94; log entry 13). -/
def startWrite (f : Frame) (s : State) : Host.Outcome State Fault Refusal :=
  if lineBusy s then done (takeCause .opBusy s)
  else if engaged s then .fault .secondOwner
  else .next (waitFor .write .send (loadTx f s))

/-- WRITE (R111). -/
def execWrite (bytes : Frame) (s : State) : Host.Outcome State Fault Refusal := startWrite bytes s

/-- FRAME_REQUEST (30 R61): the frame leaves on the transmit side, byte by byte as given (41 R99; log entry 13). -/
def execFrameRequest (addr cmd : Byte) (p : Payload) (k : Byte) (s : State) : Host.Outcome State Fault Refusal :=
  startWrite (wireFrame startByte addr cmd lenByte p k) s

/-- READ (R112): RX_ARM, and the owner blocked until the read is done. It expects the latched request's command id
(log entry 14). -/
def execRead (timeout : Duration) (s : State) : Host.Outcome State Fault Refusal :=
  if lineBusy s then done (takeCause .opBusy s)
  else if engaged s then .fault .secondOwner
  else .next (waitFor (.read timeout) .collect (armRx s.ex.req.cmd s))

/-- SLEEP (R113): the owner is blocked until the clock lets it return, and the sleep is entered in the history then
(log entry 13). -/
def execSleep (d : Duration) (s : State) : Host.Outcome State Fault Refusal :=
  if engaged s then .fault .secondOwner else .next (waitFor (.sleep d) .pace s)

/-- ATTEMPT (R115) over the latched EX_REQ (log entry 15). -/
def execAttempt (s : State) : Host.Outcome State Fault Refusal :=
  if engaged s then .fault .secondOwner else .next (startAttempt .attempt s)

/-- The request of an EXCHANGE with its defaults (R116, 10 R27). -/
def requestOf (c : Config) (cmd : Byte) (extra : Option (List Byte)) (m : Option Nat) (delay timeout : Option Duration) :
    ExReq :=
  ⟨cmd, extra.getD defaultExtra, m.getD defaultMaxResponses, delay.getD c.interCommandDelay, timeout.getD c.readTimeout⟩

/-- EXCHANGE (R116). -/
def execExchange (cmd : Byte) (extra : Option (List Byte)) (m : Option Nat) (delay timeout : Option Duration) (s : State) :
    Host.Outcome State Fault Refusal :=
  if engaged s then .fault .secondOwner
  else .next (startExchange .exchange (requestOf s.cfg cmd extra m delay timeout) s)

end Sys2Proof.Machine
end

