-- ==== Sys2Proof/Machine/Interpreters.lean ====
section
/-! DEFINITION. The Measurement Interpreters (44_interpreters.md R150 to R160) as operations. -/

namespace Sys2Proof.Machine

/-- R150 (1): one exchange with the interpreter's command id, no extra bytes and the configured durations. -/
def interpRequest (k : Interp) (s : State) : ExReq :=
  ⟨interpCommand s.cfg k, defaultExtra, interpResponses s.dev k, s.cfg.interCommandDelay, s.cfg.readTimeout⟩

/-- R150: the exchange, then what the interpreter makes of its payloads. -/
def callInterp (k : Interp) (s : State) : Host.Outcome State Fault Refusal :=
  if engaged s then .fault .secondOwner
  else .next (startExchange (.interp k) (interpRequest k s) s)

/-- GET_SOC (R151). -/
def execGetSoc (s : State) : Host.Outcome State Fault Refusal := callInterp .soc s

/-- GET_CELL_VOLTAGE_RANGE (R152). -/
def execGetCellVoltageRange (s : State) : Host.Outcome State Fault Refusal := callInterp .cellVoltageRange s

/-- GET_TEMPERATURE_RANGE (R153). -/
def execGetTemperatureRange (s : State) : Host.Outcome State Fault Refusal := callInterp .temperatureRange s

/-- GET_MOSFET_STATUS (R154). -/
def execGetMosfetStatus (s : State) : Host.Outcome State Fault Refusal := callInterp .mosfetStatus s

/-- GET_STATUS (R155). -/
def execGetStatus (s : State) : Host.Outcome State Fault Refusal := callInterp .status s

/-- GET_CELL_VOLTAGES (R157). -/
def execGetCellVoltages (s : State) : Host.Outcome State Fault Refusal := callInterp .cellVoltages s

/-- GET_TEMPERATURES (R158). -/
def execGetTemperatures (s : State) : Host.Outcome State Fault Refusal := callInterp .temperatures s

/-- GET_BALANCING_STATUS (R159). -/
def execGetBalancingStatus (s : State) : Host.Outcome State Fault Refusal := callInterp .balancingStatus s

/-- GET_FAULT_CODES (R160). -/
def execGetFaultCodes (s : State) : Host.Outcome State Fault Refusal := callInterp .faultCodes s

end Sys2Proof.Machine
end

