-- ==== Sys2Proof/Machine/Reset.lean ====
section
/-! DEFINITION. RESET (70_reset_and_hazards.md R200). -/

namespace Sys2Proof.Machine

/-- Every register to its reset value, in one event; the configuration, the link's record and its oracle are not touched
(R200), nor is what the model holds of the outside: the raises and the requests to come (log entry 32). A call in
progress is abandoned without a result (R202); a write, a read or a sleep that it cuts is not entered in the event history,
also where a read has taken bytes (log entry 13, DESIGN CHOICE). -/
def resetOp (s : State) : State :=
  { State.reset with cfg := s.cfg, link := s.link, raised := s.raised, agenda := s.agenda }

/-- RESET (R200). -/
def execReset (s : State) : Host.Outcome State Fault Refusal := done (resetOp s)

end Sys2Proof.Machine
end

