-- ==== Sys2Proof/Machine/Dispatch.lean ====
section
/-! DEFINITION. One arm for each constructor of `Instr`: one call of its meaning. -/

namespace Sys2Proof.Machine

def exec (i : Instr) (s : State) : Host.Outcome State Fault Refusal :=
  match i with
  | .frameRequest a c p k => Sys2Proof.Machine.execFrameRequest a c p k s
  | .frameResponse t a c l p k => Sys2Proof.Machine.execFrameResponse t a c l p k s
  | .u8 => Sys2Proof.Machine.execU8 s
  | .u16 => Sys2Proof.Machine.execU16 s
  | .u32 => Sys2Proof.Machine.execU32 s
  | .i8 => Sys2Proof.Machine.execI8 s
  | .i16 => Sys2Proof.Machine.execI16 s
  | .i32 => Sys2Proof.Machine.execI32 s
  | .bool => Sys2Proof.Machine.execBool s
  | .descReserved d => Sys2Proof.Machine.execDescReserved d s
  | .csum b => Sys2Proof.Machine.execCsum b s
  | .verify b => Sys2Proof.Machine.execVerify b s
  | .b2h b => Sys2Proof.Machine.execB2h b s
  | .h2b t => Sys2Proof.Machine.execH2b t s
  | .encode a c x => Sys2Proof.Machine.execEncode a c x s
  | .validate f e => Sys2Proof.Machine.execValidate f e s
  | .txLoad c x => Sys2Proof.Machine.execTxLoad c x s
  | .txByte => Sys2Proof.Machine.execTxByte s
  | .rxArm e => Sys2Proof.Machine.execRxArm e s
  | .rxByte b => Sys2Proof.Machine.execRxByte b s
  | .rxAbort => Sys2Proof.Machine.execRxAbort s
  | .flush => Sys2Proof.Machine.execFlush s
  | .write f => Sys2Proof.Machine.execWrite f s
  | .read t => Sys2Proof.Machine.execRead t s
  | .sleep d => Sys2Proof.Machine.execSleep d s
  | .attempt => Sys2Proof.Machine.execAttempt s
  | .exchange c x m d t => Sys2Proof.Machine.execExchange c x m d t s
  | .fdLoad p n => Sys2Proof.Machine.execFdLoad p n s
  | .decodeFields p ds => Sys2Proof.Machine.execDecodeFields p ds s
  | .getSoc => Sys2Proof.Machine.execGetSoc s
  | .getCellVoltageRange => Sys2Proof.Machine.execGetCellVoltageRange s
  | .getTemperatureRange => Sys2Proof.Machine.execGetTemperatureRange s
  | .getMosfetStatus => Sys2Proof.Machine.execGetMosfetStatus s
  | .getStatus => Sys2Proof.Machine.execGetStatus s
  | .getCellVoltages => Sys2Proof.Machine.execGetCellVoltages s
  | .getTemperatures => Sys2Proof.Machine.execGetTemperatures s
  | .getBalancingStatus => Sys2Proof.Machine.execGetBalancingStatus s
  | .getFaultCodes => Sys2Proof.Machine.execGetFaultCodes s
  | .reassemble ps k => Sys2Proof.Machine.execReassemble ps k s
  | .reset => Sys2Proof.Machine.execReset s

end Sys2Proof.Machine
end

