-- ==== Sys2Proof/Machine/Fetch.lean ====
section
/-! DEFINITION. What a request of the agenda stands for, and which requests reach a block whose owner is blocked. -/

namespace Sys2Proof.Machine

/-- The operations that are events from outside and reach the block while its owner is blocked (60_exceptions.md R190): a byte
taken or delivered by the transport, a frame that reaches it, the read's time-out, RESET. -/
def isEventOp : Instr → Bool
  | .txByte => true
  | .rxByte _ => true
  | .rxAbort => true
  | .frameResponse _ _ _ _ _ _ => true
  | .reset => true
  | .frameRequest _ _ _ _ | .u8 | .u16 | .u32 | .i8 | .i16 | .i32 | .bool | .descReserved _ => false
  | .csum _ | .verify _ | .b2h _ | .h2b _ => false
  | .encode _ _ _ | .validate _ _ | .txLoad _ _ | .rxArm _ => false
  | .flush | .write _ | .read _ | .sleep _ | .attempt | .exchange _ _ _ _ _ => false
  | .fdLoad _ _ | .decodeFields _ _ | .reassemble _ _ => false
  | .getSoc | .getCellVoltageRange | .getTemperatureRange | .getMosfetStatus | .getStatus => false
  | .getCellVoltages | .getTemperatures | .getBalancingStatus | .getFaultCodes => false

/-- The requests that reach a blocked block: events of the link and the clock, and RESET. -/
def isEvent : Request → Bool
  | .op i => isEventOp i
  | .word w =>
    match decodeWord w with
    | .ok i => isEventOp i
    | .error _ => false
  | .event => true
  | .wake => true

/-- The agenda with a word of the opcode table as its next request (log entry 3). A call the owner is blocked in is
abandoned, so that the word is what the next step runs. -/
def placeWord (nbits w : Nat) (s : State) : State :=
  { s with owner := none, agenda := .word (tableWord nbits w) :: s.agenda }

end Sys2Proof.Machine
end

