-- ==== Sys2Proof/Machine/Step.lean ====
section
/-! DEFINITION. One step of the machine is one event (92_eei_decisions.md D2): a host strobe or call of the agenda, or an event
of the link or the clock (log entries 3, 6, 7). -/

namespace Sys2Proof.Machine

/-- The operation runs; then a blocked call whose wait it ended goes on. -/
def runInstr (i : Instr) (s : State) : Host.Outcome State Fault Refusal :=
  if i.wf then
    match exec i s with
    | .next t => .next (settle t)
    | .fault f => .fault f
    | .refused r => .refused r
  else .refused .illFormed

/-- A request: decoded, checked, run. -/
def runRequest (r : Request) (s : State) : Host.Outcome State Fault Refusal :=
  match r with
  | .op i => runInstr i s
  | .word w =>
    match decodeWord w with
    | .ok i => runInstr i s
    | .error e => .refused (.undecodable e)
  | .event => .next (environment s)
  | .wake => .next (wake s)

/-- ONE STEP: the next request of the agenda. With nothing requested, and while the owner is blocked and the next request is no
event that reaches the block, it is the next event of the link or the clock; with none enabled the machine waits for a strobe
(70_reset_and_hazards.md R200). -/
def step (s : State) : Host.Outcome State Fault Refusal :=
  match s.agenda with
  | [] => .next (environment s)
  | r :: rest =>
    if s.owner.isSome && !isEvent r then .next (environment s)
    else runRequest r { s with agenda := rest }

def State.withFetchWord (s : State) (nbits w : Nat) : State := placeWord nbits w s

end Sys2Proof.Machine
end

