-- ==== Sys2Proof/Safety.lean ====
section
/-! DEFINITION. What claims speak of: the launch premises of 70_reset_and_hazards.md R205, the faults of
60_exceptions.md R185, and the machine's invariant, each clause from the rule of the register it is about. -/

namespace Sys2Proof.Machine

/-- The five causes of class fault (60 R180, R185). -/
def Raise.isFault : Raise → Bool
  | .rxCmdMismatch _ _ => false
  | .rxCsumFail _ _ => false
  | .rxNoData _ => false
  | .exRetriesExhausted => false
  | .txBadLen _ => true
  | .opBusy => true
  | .fdNotLoaded => true
  | .fdLoadRange _ => true
  | .fdFieldRange _ _ => true
  | .fdBadDesc _ => true

/-- `no_fault` (70 R205): no cause of class fault has been raised. -/
def noFault (s : State) : Bool := s.raised.all fun r => !r.isFault

/-- `idle_entry` (70 R205). -/
def idleEntry (s : State) : Prop := s.tx.state = .idle ∧ s.rx.state ≠ .receiving ∧ s.ex.state = .idle

/-- `counts_known(c, s)` (70 R205). -/
def countsKnown (c n : Byte) (s : State) : Prop := s.dev.cells = c ∧ s.dev.sensors = n

/-- TXIDX is 0 to 13 and below 13 while sending (10_state.md R13, R14). -/
def TxUnit.Inv (u : TxUnit) : Prop := u.idx ≤ frameLen ∧ (u.state = .sending → u.idx < frameLen)

/-- RXIDX is 0 to 13 (10 R16) and tells how far the read is (R19); RXSUM is the running checksum (R17); the done
values say what the two checks found (R19, 41 R97). -/
def RxUnit.Inv (u : RxUnit) : Prop :=
  u.idx ≤ frameLen ∧
  match u.state with
  | .idle => True
  | .receiving => u.idx < frameLen ∧ u.sum = checksum ((u.buf.toList.take (min u.idx offCsum)))
  | .accept => u.idx = frameLen ∧ u.buf[2] = u.expect ∧ verifyChecksum u.buf.toList = true
  | .rejectCmd => u.idx = frameLen ∧ u.buf[2] ≠ u.expect
  | .rejectCsum => u.idx = frameLen ∧ u.buf[2] = u.expect ∧ verifyChecksum u.buf.toList = false
  | .noData => u.idx < frameLen

/-- FCUR is 0 to 8 (10 R20). -/
def FdUnit.Inv (u : FdUnit) : Prop := u.cur ≤ payloadLen

/-- EX_ATTEMPT is 0 when idle, else 1 to RETRY_COUNT (10 R26). -/
def ExUnit.Inv (c : Config) (u : ExUnit) : Prop :=
  match u.state with
  | .idle => u.attempt = 0
  | .running => 1 ≤ u.attempt ∧ u.attempt ≤ c.retryCount

/-- The places of a call in which the sequencer of R120 is running; the other four are those of a field decoder's call. -/
def Phase.inAttempt : Phase → Bool
  | .flush _ => true
  | .load _ => true
  | .send => true
  | .pace => true
  | .arm => true
  | .collect => true
  | .backoff => true
  | .bind _ _ => false
  | .decode _ _ _ => false
  | .bindItems _ _ _ _ _ => false
  | .items _ _ _ _ _ => false

/-- The places in which the owner waits for an event of the link or the clock; in the others its own strobe is next. -/
def Phase.waits : Phase → Bool
  | .flush _ => false
  | .load _ => false
  | .send => true
  | .pace => true
  | .arm => false
  | .collect => true
  | .backoff => true
  | .bind _ _ => false
  | .decode _ _ _ => false
  | .bindItems _ _ _ _ _ => false
  | .items _ _ _ _ _ => false

/-- The owner has no strobe of its own to issue next (log entry 7). -/
def ownerWaits (s : State) : Bool :=
  match s.owner with
  | none => true
  | some w => w.phase.waits

/-- The call an interpreter makes. -/
def Call.isInterp : Call → Bool
  | .write => false
  | .read _ => false
  | .sleep _ => false
  | .attempt => false
  | .exchange => false
  | .interp _ => true
  | .decodeFields => false
  | .reassemble => false

/-- What the owner's place in its call says of the units (42 R120): before SEND the frame is the request's; in SEND a frame is being
sent; in COLLECT a read is armed or about to be, with room for a payload where an attempt reads (R115); BACKOFF is left for an
attempt that RETRY_COUNT allows; a field operation comes next only with a payload loaded, and in REASSEMBLE with room for it
(44 R156). EX_STATE is EX_RUNNING exactly while an EXCHANGE is in its attempts (10 R26). -/
def OwnerInv (s : State) : Prop :=
  match s.owner with
  | none => s.ex.state = .idle
  | some w =>
    (s.ex.state = .running ↔ (w.call.runsExchange && w.phase.inAttempt) = true) ∧
    match w.phase with
    | .flush f => w.call.runsAttempt = true ∧ encodeFrame s.cfg.addr s.ex.req.cmd s.ex.req.extra = some f
    | .load f => w.call.runsAttempt = true ∧ encodeFrame s.cfg.addr s.ex.req.cmd s.ex.req.extra = some f
    | .send => s.tx.state = .sending ∧ (w.call = .write ∨ w.call.runsAttempt = true)
    | .pace => (∃ d, w.call = .sleep d) ∨ (w.call.runsAttempt = true ∧ lineBusy s = false)
    | .arm => w.call.runsAttempt = true ∧ lineBusy s = false ∧ s.ex.collected.length < s.ex.req.maxResponses
    | .collect => s.rx.state = .receiving ∧ ((∃ t, w.call = .read t) ∨
        (w.call.runsAttempt = true ∧ s.ex.collected.length < s.ex.req.maxResponses))
    | .backoff => w.call.runsExchange = true ∧ lineBusy s = false ∧ s.ex.attempt < s.cfg.retryCount
    | .bind _ _ => w.call.isInterp = true
    | .decode _ _ _ => (w.call = .decodeFields ∨ w.call.isInterp = true) ∧ s.fd.state = .loaded
    | .bindItems _ _ _ _ _ => w.call = .reassemble ∨ w.call.isInterp = true
    | .items k _ _ _ _ => (w.call = .reassemble ∨ w.call.isInterp = true) ∧ s.fd.state = .loaded ∧
        s.fd.cur + seriesWidth k ≤ payloadLen

/-- The invariant of the machine: every unit's, the half-duplex line (41 R94, R96), and the owner's. -/
def State.Inv (s : State) : Prop :=
  s.tx.Inv ∧ s.rx.Inv ∧ s.fd.Inv ∧ s.ex.Inv s.cfg ∧
  ¬(s.tx.state = .sending ∧ s.rx.state = .receiving) ∧ OwnerInv s

end Sys2Proof.Machine

/-! ## The pseudocode at the level of functions, for claims that compare the machine with it -/

namespace Sys2Proof.Machine

/-- A sequence of operations, each completing before the next (20_memory.md R51). -/
def execAll : List Instr → State → Host.Outcome State Fault Refusal
  | [], s => .next s
  | i :: is, s =>
    match exec i s with
    | .next t => execAll is t
    | .fault f => .fault f
    | .refused r => .refused r

/-- `n` events, one after another (92 D2). -/
def events : Nat → State → State
  | 0, s => s
  | n + 1, s => events n (environment s)

/-- One FIELD for each descriptor, ended by the first that raises (R138). -/
def fields : List Byte → State → State × Option (List FieldValue)
  | [], s => (s, some [])
  | d :: ds, s =>
    match field d s with
    | (s', none) => (s', none)
    | (s', some v) => ((fields ds s').1, (fields ds s').2.map (v :: ·))

/-- DECODE_FIELDS (R138): FD_LOAD(payload, 0), then the schema. -/
def decodeFieldsOp (operand : Option Payload) (schema : List Byte) (s : State) : State × Option (List FieldValue) :=
  match fdLoadOp operand 0 s with
  | (s', false) => (s', none)
  | (s', true) => fields schema s'

/-- REASSEMBLE's inner loop (R156) with `n` fields left in the frame, at item number `item`: the state, the entries, and
the next item number. -/
def takeItems (k : Series) (count : Nat) : Nat → Nat → State → State × List (MKey × MVal) × Nat
  | 0, item, s => (s, [], item)
  | n + 1, item, s =>
    if payloadLen < s.fd.cur + seriesWidth k then (s, [], item)
    else if count < item then (s, [], item)
    else
      match field (seriesDescriptor k) s with
      | (s', none) => (s', [], item)
      | (s', some v) =>
        ((takeItems k count n (item + 1) s').1,
          (.item item, seriesValue k v) :: (takeItems k count n (item + 1) s').2.1,
          (takeItems k count n (item + 1) s').2.2)

/-- REASSEMBLE's outer loop (R156): a frame whose sequence byte is 0xFF is skipped; items are numbered in the order
of acceptance. -/
def reassembleLoop (k : Series) (count : Nat) : List Payload → Nat → State → State × List (MKey × MVal)
  | [], _, s => (s, [])
  | p :: ps, item, s =>
    if p[0] = seqInvalid then reassembleLoop k count ps item s
    else
      match takeItems k count (seriesPerFrame k) item (fdLoadOp (some p) 1 s).1 with
      | (s', entries, next) =>
        ((reassembleLoop k count ps next s').1, entries ++ (reassembleLoop k count ps next s').2)

/-- REASSEMBLE (R156). -/
def reassembleOp (k : Series) (ps : List Payload) (s : State) : State × Option Measurement :=
  ((reassembleLoop k (seriesCount s.dev k) ps 1 s).1,
    some (.map (reassembleLoop k (seriesCount s.dev k) ps 1 s).2))

/-- What an interpreter makes of the payloads of its exchange (44 R150), its decoding taken as one function. -/
def interpResult (k : Interp) (ps : List Payload) (s : State) : State × Option Measurement :=
  match ps with
  | [] => (s, some emptyResult)
  | p :: rest =>
    match interpSeries k with
    | some r => reassembleOp r (p :: rest) s
    | none =>
      match decodeFieldsOp (some p) (interpSchema k) s with
      | (s', none) => (s', none)
      | (s', some vs) => interpValues k vs s'

/-- The bytes of a frame in offset order (30 R60). -/
def wireBytes (start addr cmd len : Byte) (p : Payload) (k : Byte) : List Byte :=
  start :: addr :: cmd :: len :: (p.toList ++ [k])

/-- Byte `i` of a payload as an integer. -/
def byteNum (p : Payload) (i : Nat) : Int := ((p.toList.getD i 0).toNat : Int)

/-- Two's complement reading of an n-bit number (00_scope.md R7). -/
def signedNum (n : Nat) (x : Int) : Int := if x < 2 ^ (n - 1) then x else x - 2 ^ n

/-- Thirteen bytes as a frame. -/
def frameOf (r : List Byte) : Frame :=
  #v[r.getD 0 0, r.getD 1 0, r.getD 2 0, r.getD 3 0, r.getD 4 0, r.getD 5 0, r.getD 6 0, r.getD 7 0, r.getD 8 0,
     r.getD 9 0, r.getD 10 0, r.getD 11 0, r.getD 12 0]

/-- What the answer `r` to a LinkRead comes to: silence when it is short, else VALIDATE's judgement (42 R115). -/
def judgeAnswer (r : List Byte) (expect : Byte) : Except Cause Payload :=
  if r.length < frameLen then .error .rxNoData else validateFrame (frameOf r) expect

/-- The done value a judgement leaves in RX_STATE (41 R100). -/
def judgedState : Except Cause Payload → RxState
  | .ok _ => .accept
  | .error c => if c = .rxCmdMismatch then .rejectCmd else if c = .rxCsumFail then .rejectCsum else .noData

/-- LAST_CAUSE after a judgement: written by every reject and by silence, left by an accept (41 R97, R98). -/
def judgedCause (c : Cause) : Except Cause Payload → Cause
  | .ok _ => c
  | .error x => x

/-- What the pseudocode comes to on the answers listed: the payloads accepted in the attempt it is in, LAST_CAUSE, the events
of the history, the answers not used, whether it has ended (else it is in a read for which no answer is listed), and then how
many attempts are left after this one. -/
structure Episode where
  got : List Payload
  cause : Cause
  events : List LinkEvent
  rest : List (List Byte)
  ended : Bool
  left : Nat
  deriving DecidableEq, Repr

/-- Events that come before an episode's own. -/
def Episode.after (events : List LinkEvent) (e : Episode) : Episode := { e with events := events ++ e.events }

/-- ATTEMPT's `while` loop (42 R115, step 3) on the oracle's answers, the payloads got so far and LAST_CAUSE. -/
def collectSpec (q : ExReq) : List (List Byte) → List Payload → Cause → Episode
  | [], got, c => ⟨got, c, [], [], decide (q.maxResponses ≤ got.length), 0⟩
  | r :: rest, got, c =>
    if got.length < q.maxResponses then
      if r.length < frameLen then ⟨got, .rxNoData, [.read q.readTimeout r], rest, true, 0⟩
      else
        match validateFrame (frameOf r) q.cmd with
        | .ok p => (collectSpec q rest (got ++ [p]) c).after [.read q.readTimeout r]
        | .error x => (collectSpec q rest got x).after [.read q.readTimeout r]
    else ⟨got, c, [], r :: rest, true, 0⟩

/-- ATTEMPT (42 R115) with the frame `f` it sends. -/
def attemptSpec (q : ExReq) (f : Frame) (answers : List (List Byte)) (c : Cause) : Episode :=
  (collectSpec q answers [] c).after [.flush, .write f, .sleep q.interCommandDelay]

/-- The end of an attempt (42 R116, R120: ENDATT) with `n` attempts left, `next` being those. -/
def retrySpec (backoff : Duration) (n : Nat) (next : List (List Byte) → Cause → Episode) (e : Episode) : Episode :=
  if e.ended = false then { e with left := n }
  else if e.got ≠ [] then e
  else if n = 0 then { e with cause := .exRetriesExhausted }
  else (next e.rest e.cause).after (e.events ++ [.sleep backoff])

/-- EXCHANGE's loop (42 R116) with `n` attempts left. -/
def exchangeSpec (backoff : Duration) (q : ExReq) (f : Frame) : Nat → List (List Byte) → Cause → Episode
  | 0, answers, _ => ⟨[], .exRetriesExhausted, [], answers, true, 0⟩
  | n + 1, answers, c => retrySpec backoff n (exchangeSpec backoff q f n) (attemptSpec q f answers c)

/-- An EXCHANGE taken up in a read of its attempt, with `got` accepted in it so far and `n` attempts left after it. -/
def resumeSpec (backoff : Duration) (q : ExReq) (f : Frame) (n : Nat) (answers : List (List Byte)) (got : List Payload)
    (c : Cause) : Episode :=
  retrySpec backoff n (exchangeSpec backoff q f n) (collectSpec q answers got c)

/-- The bytes the writes of a history put on the link, in order (20 R42). -/
def writtenBytes : List LinkEvent → List Byte
  | [] => []
  | .write f :: es => f.toList ++ writtenBytes es
  | .flush :: es => writtenBytes es
  | .sleep _ :: es => writtenBytes es
  | .read _ _ :: es => writtenBytes es

/-- The frame a request puts on the link (30 R61, R62). -/
def requestFrame (c : Config) (q : ExReq) : Frame :=
  sealFrame startByte c.addr q.cmd lenByte (padPayload q.extra)

/-- The operation of an interpreter. -/
def interpInstr : Interp → Instr
  | .soc => .getSoc
  | .cellVoltageRange => .getCellVoltageRange
  | .temperatureRange => .getTemperatureRange
  | .mosfetStatus => .getMosfetStatus
  | .status => .getStatus
  | .cellVoltages => .getCellVoltages
  | .temperatures => .getTemperatures
  | .balancingStatus => .getBalancingStatus
  | .faultCodes => .getFaultCodes

/-- The machine may start a call (70 R205, `idle_entry`): nothing is being sent or read and no call is in progress. The listed
answers are such as 42 R112 allows. -/
def Ready (s : State) : Prop :=
  engaged s = false ∧ lineBusy s = false ∧ ∀ r ∈ s.link.oracle, r.length ≤ frameLen

/-- What an episode leaves of the link and LAST_CAUSE: its events in the history, the bytes of its writes on the stream, the
answers it did not use, and nothing with the transport once it has flushed. The configuration, the requests to come and the
Device State's and field decoder's registers are not the sequencer's. -/
def episodeLink (s u : State) (e : Episode) : Prop :=
  u.link.history = s.link.history ++ e.events ∧ u.link.sent = s.link.sent ++ writtenBytes e.events ∧
  u.link.oracle = e.rest ∧ u.link.draws = s.link.draws ∧
  u.link.buffered = (if e.events = [] then s.link.buffered else []) ∧
  u.lastCause = e.cause ∧ u.cfg = s.cfg ∧ u.agenda = s.agenda

/-- An episode that has ended, for the call `c` with the request `q`: the call has returned, the line is idle, and after an
EXCHANGE the sequencer is (42 R116). -/
def episodeReturned (c : Call) (s u : State) (q : ExReq) (e : Episode) : Prop :=
  episodeLink s u e ∧ u.owner = none ∧ lineBusy u = false ∧ u.ex.req = q ∧
  (c.runsExchange = true → u.ex.state = .idle ∧ u.ex.attempt = 0)

/-- An episode in a read without an answer: the call is blocked in COLLECT, the validator armed for the request's command id,
and EX_COLLECTED and EX_ATTEMPT tell how far the exchange is (10 R26, 42 R120). Nothing has been returned. -/
def episodeBlocked (c : Call) (s u : State) (q : ExReq) (e : Episode) : Prop :=
  episodeLink s u e ∧ u.owner = some ⟨c, .collect⟩ ∧ u.ret = none ∧
  u.rx.state = .receiving ∧ u.rx.idx = 0 ∧ u.rx.sum = 0 ∧ u.rx.expect = q.cmd ∧ u.link.answered = false ∧
  u.tx.state = .idle ∧ u.ex.req = q ∧ u.ex.collected = e.got ∧ u.fd = s.fd ∧ u.dev = s.dev ∧
  (c.runsExchange = true → u.ex.state = .running ∧ u.ex.attempt + e.left = s.cfg.retryCount)

/-- What ENDATT makes of `s` with `ps` collected, for a call of EXCHANGE (42 R120): return them, back off, or give up. `history`
is the event history when the attempt ends. The sleep of BACKOFF is entered at its return (log entry 13). An interpreter goes on
with the payloads (44 R150). -/
def attemptEnds (c : Call) (history : List LinkEvent) (ps : List Payload) (s u : State) : Prop :=
  u.link.history = history ∧
  (ps ≠ [] → u.ex.state = .idle ∧ u.ex.attempt = 0 ∧ u.lastCause = s.lastCause ∧
    (c = .exchange → u.owner = none ∧ u.ret = some (.payloads ps)) ∧
    (∀ k p rest, c = .interp k → interpSeries k = none → ps = p :: rest →
      u.owner = some ⟨c, .bind p (interpSchema k)⟩ ∧ u.ret = none)) ∧
  (ps = [] → s.ex.attempt < s.cfg.retryCount →
    u.owner = some ⟨c, .backoff⟩ ∧ u.ret = none ∧ u.ex.state = s.ex.state ∧ u.ex.attempt = s.ex.attempt ∧
    u.lastCause = s.lastCause) ∧
  (ps = [] → s.ex.attempt = s.cfg.retryCount →
    u.owner = none ∧ u.ex.state = .idle ∧ u.ex.attempt = 0 ∧ u.lastCause = .exRetriesExhausted ∧
    (c = .exchange → u.ret = some (.payloads [])) ∧ (∀ k, c = .interp k → u.ret = some (.measurement emptyResult)))

/-- The exchange of the interpreter `k` has ended with payloads of which `p` is the first. -/
def firstReply (k : Interp) (s : State) (e : Episode) (p : Payload) : Prop :=
  Ready s ∧
  (∃ q, q = ⟨interpCommand s.cfg k, [], interpResponses s.dev k, s.cfg.interCommandDelay, s.cfg.readTimeout⟩ ∧
    e = exchangeSpec s.cfg.backoff q (requestFrame s.cfg q) s.cfg.retryCount s.link.oracle s.lastCause) ∧
  e.ended = true ∧ ∃ rest, e.got = p :: rest

/-- What the call of a single-frame interpreter comes to: exec answers a state from which the events of its call lead to one
where the call has returned `m`, the Device State is `d` and the decoder is loaded with the payload, its cursor at `cur`. -/
def interpReturns (k : Interp) (s : State) (e : Episode) (p : Payload) (m : Measurement) (d : DeviceState) (cur : Nat) : Prop :=
  ∃ t n u, exec (interpInstr k) s = .next t ∧ t.owner = some ⟨.interp k, .flush (requestFrame s.cfg t.ex.req)⟩ ∧ events n t = u ∧
    u.ret = some (.measurement m) ∧ u.dev = d ∧ u.fd.buf = p ∧ u.fd.cur = cur ∧ u.fd.state = .loaded ∧
    episodeReturned (.interp k) s u
      ⟨interpCommand s.cfg k, [], interpResponses s.dev k, s.cfg.interCommandDelay, s.cfg.readTimeout⟩ e

/-- The values of one multi-frame payload (44 R157, R158): three signed 16-bit fields, or seven signed bytes less 40. -/
def seriesValues (k : Series) (p : Payload) : List MVal :=
  match k with
  | .voltages => [1, 3, 5].map fun i => .num (signedNum 16 (256 * byteNum p i + byteNum p (i + 1)))
  | .temperatures => [1, 2, 3, 4, 5, 6, 7].map fun i => .num (signedNum 8 (byteNum p i) - 40)

/-- Items numbered from `n` (44 R156: "cell 1, 2, 3, … in frame order"). -/
def numbered : Nat → List MVal → List (MKey × MVal)
  | _, [] => []
  | n, v :: vs => (.item n, v) :: numbered (n + 1) vs

/-- REASSEMBLE as a function (44 R156): the values of the frames that are not padding, in order of acceptance, the first
`count` of them, numbered from 1. -/
def reassembleSpec (k : Series) (count : Nat) (ps : List Payload) : List (MKey × MVal) :=
  numbered 1 (((ps.filter fun p => p[0] != seqInvalid).flatMap (seriesValues k)).take count)

/-- The type of a legal descriptor code (30 R65, R66): width in bytes, signed, boolean. -/
def fieldType (d : Byte) : Option (Nat × Bool × Bool) :=
  if d = 0x00 then some (1, false, false)
  else if d = 0x01 then some (2, false, false)
  else if d = 0x02 then some (4, false, false)
  else if d = 0x04 then some (1, true, false)
  else if d = 0x05 then some (2, true, false)
  else if d = 0x06 then some (4, true, false)
  else if d = 0x08 then some (1, false, true)
  else none

/-- The big-endian number of `w` bytes at offset `a` (20 R43). -/
def bigEndianAt (p : Payload) (a : Nat) : Nat → Int
  | 0 => 0
  | w + 1 => 256 * bigEndianAt p a w + byteNum p (a + w)

/-- The value of a field of a type at an offset (30 R65, 43 R139). -/
def typedValue (p : Payload) (a : Nat) : Nat × Bool × Bool → FieldValue
  | (_, _, true) => .truth (byteNum p a != 0)
  | (w, true, false) => .num (signedNum (8 * w) (bigEndianAt p a w))
  | (w, false, false) => .num (bigEndianAt p a w)

/-- The tuple of a schema from an offset on, and the offset after it; none where a descriptor is reserved or a field would
end past payload offset 7 (43 R138). -/
def schemaSpec (p : Payload) : List Byte → Nat → Option (List FieldValue × Nat)
  | [], a => some ([], a)
  | d :: ds, a =>
    match fieldType d with
    | none => none
    | some ty =>
      if payloadLen < a + ty.1 then none
      else (schemaSpec p ds (a + ty.1)).map fun r => (typedValue p a ty :: r.1, r.2)

/-- The first cause a schema's reading from an offset on raises, and the offset where it does: a reserved descriptor before a
field that would end past payload offset 7 (43 R138, R139); none where `schemaSpec` has a tuple. -/
def schemaRaise (p : Payload) : List Byte → Nat → Option (Raise × Nat)
  | [], _ => none
  | d :: ds, a =>
    match fieldType d with
    | none => some (.fdBadDesc d, a)
    | some ty =>
      if payloadLen < a + ty.1 then some (.fdFieldRange a ty.1, a)
      else schemaRaise p ds (a + ty.1)

end Sys2Proof.Machine
end

