-- ==== Sys2Proof/Certificates/Slice0/Obligations.lean ====
section
/-! DEFINITION. The statements for the provers. Each docstring names the rule of spec/ it formalises; where a clause rests
on a choice of the model, it names the log entry. -/

open Sys2Proof Sys2Proof.Machine

/-! ## Encodings (30_encoding.md) -/

/-- 30 R60, R61, R63, R66, R67: every operation that has a word is what its word decodes to, with every operand at every value
the encoding admits. -/
def Obligations.DecodeOfEncodeIsIdentity : Prop :=
  ∀ (i : Instr) (w : PortWord), i.wf = true → encodeWord i = some w → decodeWord w = .ok i

/-- The other direction: a word that decodes is the word of a well-formed operation, so each word has one meaning. -/
def Obligations.EncodeOfDecodeIsIdentity : Prop :=
  ∀ (w : PortWord) (i : Instr), decodeWord w = .ok i → i.wf = true ∧ encodeWord i = some w

/-- 30 R66, R67: the codes outside R66's table, the list of R67 and R67's reading by fields are the same codes. -/
def Obligations.ReservedDescriptorCodesAgree : Prop :=
  ∀ d : Byte, (decodeDescriptor d = .descReserved d ↔ listedReserved d = true) ∧
    descReserved d = listedReserved d ∧ (fieldType d).isSome = !listedReserved d

/-- Words written out from 30 R61, R63, R66, R67 decode to what they stand for. -/
def Obligations.SpecWordsDecode : Prop :=
  decodeWord ⟨.fdField, [0b00000001]⟩ = .ok .u16 ∧
  decodeWord ⟨.fdField, [0b00000110]⟩ = .ok .i32 ∧
  decodeWord ⟨.fdField, [0b00001001]⟩ = .ok (.descReserved 0x09) ∧
  decodeWord ⟨.txFrame, [0xA5, 0x40, 0x90, 0x08, 0, 0, 0, 0, 0, 0, 0, 0, 0x7D]⟩ =
    .ok (.frameRequest 0x40 0x90 #v[0, 0, 0, 0, 0, 0, 0, 0] 0x7D) ∧
  decodeWord ⟨.rxFrame, [0xA5, 0x01, 0x90, 0x08, 0x0E, 0x74, 0, 0, 0x77, 0x24, 0x03, 0x52, 0xB0]⟩ =
    .ok (.frameResponse 0xA5 0x01 0x90 0x08 #v[0x0E, 0x74, 0, 0, 0x77, 0x24, 0x03, 0x52] 0xB0) ∧
  decodeWord ⟨.txFrame, [0x00, 0x40, 0x90, 0x08, 0, 0, 0, 0, 0, 0, 0, 0, 0x7D]⟩ = .error (.notRequest 0x00 0x08)

/-! ## The step: one event (92_eei_decisions.md D2; log entries 3, 6, 7) -/

/-- A step runs the operation of the next request, given as such or as a word that decodes to it, on the state without that
request, and then lets a blocked call whose wait is over go on (70 R221). While the owner is blocked this holds of the events
that reach the block (60 R190). -/
def Obligations.StepRunsFetchedOperation : Prop :=
  ∀ (s : State) (r : Request) (rest : List Request) (i : Instr),
    s.agenda = r :: rest → (r = .op i ∨ ∃ w, r = .word w ∧ decodeWord w = .ok i) → i.wf = true →
    (s.owner = none ∨ isEventOp i = true) →
    step s = (match exec i { s with agenda := rest } with
      | .next t => .next (settle t)
      | .fault f => .fault f
      | .refused x => .refused x)

/-- 92 D2, 70 R200: every other step is one event, the owner's own next strobe or an event of the link or the clock: where
nothing is requested, where the next request is that event, and where the owner is blocked and the next request does not reach
the block (log entry 7). -/
def Obligations.StepTakesOneEvent : Prop :=
  ∀ s : State,
    (s.agenda = [] → step s = .next (environment s)) ∧
    (∀ rest, s.agenda = .event :: rest → step s = .next (environment { s with agenda := rest })) ∧
    (∀ rest, s.agenda = .wake :: rest → step s = .next (wake { s with agenda := rest })) ∧
    (∀ r rest, s.agenda = r :: rest → s.owner.isSome = true → isEvent r = false → step s = .next (environment s))

/-- A word of the opcode table placed in the agenda is what the very next step runs. -/
def Obligations.PlacedWordRunsNext : Prop :=
  ∀ (s : State) (n w : Nat) (i : Instr), decodeTableWord n w = some i →
    step (s.withFetchWord n w) = (match exec i { s with owner := none } with
      | .next t => .next (settle t)
      | .fault f => .fault f
      | .refused x => .refused x)

/-- 70 R221, 60 R190, 41 R95 to R98, 42 R112, R113: which event comes next, and that it is the event of the operation of that
name. An owner that is not waiting issues its next strobe: FLUSH, TX_LOAD or RX_ARM of an attempt, FD_LOAD or a field
operation of a decode (what the call returns with its last field is in the statements about the call; log entries 6 and 7).
Else a frame being sent goes on by TX_BYTE; a read goes on by RX_BYTE with the bytes the transport holds, then by the oracle's
answer (the next listed one, else a free one: log entry 4), then by RX_ABORT; else SLEEP returns. After the event a blocked
call goes on if its wait is over, and only then. -/
def Obligations.EnvironmentTakesNextEvent : Prop :=
  (∀ (s : State) (c : Call),
    (∀ f, s.owner = some ⟨c, .flush f⟩ →
      ∃ t, exec .flush s = .next t ∧ environment s = { t with owner := some ⟨c, .load f⟩ }) ∧
    (∀ f x y, lineBusy s = false → s.owner = some ⟨c, .load f⟩ → encodeFrame s.cfg.addr x y = some f →
      ∃ t, exec (.txLoad x y) s = .next t ∧ environment s = { t with owner := some ⟨c, .send⟩ }) ∧
    (lineBusy s = false → s.owner = some ⟨c, .arm⟩ →
      ∃ t, exec (.rxArm s.ex.req.cmd) s = .next t ∧ environment s = { t with owner := some ⟨c, .collect⟩ }) ∧
    (∀ p d ds, s.owner = some ⟨c, .bind p (d :: ds)⟩ →
      ∃ t, exec (.fdLoad (.bytes p) 0) s = .next t ∧ environment s = { t with owner := some ⟨c, .decode d ds []⟩ }) ∧
    (∀ d ds got, s.owner = some ⟨c, .decode d ds got⟩ →
      ∃ t, exec (decodeDescriptor d) s = .next t ∧
        (t.ret = none → environment s = { t with owner := none }) ∧
        (∀ v x xs, t.ret = some (.field v) → ds = x :: xs →
          environment s = { t with ret := none, owner := some ⟨c, .decode x xs (got ++ [v])⟩ })) ∧
    (∀ k p ps n got, s.owner = some ⟨c, .bindItems k p ps n got⟩ →
      ∃ t o v, exec (.fdLoad (.bytes p) 1) s = .next t ∧ environment s = { t with owner := o, ret := v }) ∧
    (∀ i k m ps n got, s.owner = some ⟨c, .items k m ps n got⟩ →
      k = .voltages ∧ i = .i16 ∨ k = .temperatures ∧ i = .i8 →
      ∃ t o v, exec i s = .next t ∧ environment s = { t with owner := o, ret := v })) ∧
  (∀ s : State, ownerWaits s = true → s.tx.state = .sending →
    ∃ t, exec .txByte s = .next t ∧ environment s = settle { t with ret := s.ret }) ∧
  (∀ s : State, ownerWaits s = true → s.tx.state = .idle → s.rx.state = .receiving →
    (∀ b rest, s.link.buffered = b :: rest →
      ∃ t, exec (.rxByte b) { s with link := { s.link with buffered := [] } } = .next t ∧
        environment s = settle { t with ret := s.ret, link := { t.link with buffered := rest } }) ∧
    (s.link.buffered = [] → s.link.answered = true →
      ∃ t, exec .rxAbort s = .next t ∧ environment s = settle { t with ret := s.ret }) ∧
    (∀ r rest, s.link.buffered = [] → s.link.answered = false → s.link.oracle = r :: rest →
      environment s = environment
        { s with link := { s.link with buffered := r.take 13, answered := true, oracle := rest } }) ∧
    (s.link.buffered = [] → s.link.answered = false → s.link.oracle = [] →
      environment s = environment { s with link := { s.link with
        buffered := (Config.linkAnswer s.link.draws).take 13, answered := true, draws := s.link.draws + 1 } })) ∧
  (∀ s : State, ownerWaits s = true → lineBusy s = false →
    environment s = wake s ∧ (s.owner = none → environment s = s)) ∧
  (∀ (s : State) (c : Call),
    (s.owner = none → settle s = s ∧ wake s = s) ∧
    (∀ p, p.waits = false → s.owner = some ⟨c, p⟩ → settle s = s ∧ wake s = s) ∧
    (s.owner = some ⟨c, .send⟩ → wake s = s ∧ (s.tx.state = .sending → settle s = s)) ∧
    (s.owner = some ⟨c, .collect⟩ → wake s = s ∧ (s.rx.state = .receiving → settle s = s)) ∧
    (s.owner = some ⟨c, .pace⟩ ∨ s.owner = some ⟨c, .backoff⟩ → settle s = s))

/-! ## Reset (70_reset_and_hazards.md R200) -/

/-- The values R200 gives, right after reset. The contents of the registers it leaves without a value are the model's (log
entry 2) and not stated. -/
def Obligations.ResetLeavesSpecValues : Prop :=
  State.reset.tx.idx = 0 ∧ State.reset.tx.state = .idle ∧
  State.reset.rx.idx = 0 ∧ State.reset.rx.sum = 0 ∧ State.reset.rx.state = .idle ∧
  State.reset.fd.cur = 0 ∧ State.reset.fd.state = .empty ∧ State.reset.lastCause = .none ∧
  State.reset.ex.state = .idle ∧ State.reset.ex.attempt = 0 ∧ State.reset.ex.collected = [] ∧
  State.reset.dev.cells = 0 ∧ State.reset.dev.sensors = 0

/-- The machine's invariant holds right after reset. -/
def Obligations.ResetStateMeetsInvariant : Prop := State.reset.Inv

/-- RESET at any time (R200, R202, 92 D33): the values of R200, every flag of 10 R24 false, a call in progress abandoned
without a result wherever it waits; the configuration and the link with its history are not touched, and what was left of a
frame being sent never leaves. The next step takes it from every state, whatever the owner waits for. -/
def Obligations.ResetOperationAppliesAll : Prop :=
  ∀ s : State, ∃ t, exec .reset s = .next t ∧
    t.tx.idx = 0 ∧ t.tx.state = .idle ∧ t.rx.idx = 0 ∧ t.rx.sum = 0 ∧ t.rx.state = .idle ∧
    t.fd.cur = 0 ∧ t.fd.state = .empty ∧ t.lastCause = .none ∧
    t.ex.state = .idle ∧ t.ex.attempt = 0 ∧ t.ex.collected = [] ∧ t.dev = ⟨0, 0⟩ ∧
    (txBusy t || rxBusy t || rxDone t || rxOk t || rxErrCmd t || rxErrCsum t || rxEmpty t || fdOk t || fdErr t || fdEnd t)
      = false ∧
    t.owner = none ∧ t.ret = none ∧ t.cfg = s.cfg ∧ t.link = s.link ∧ t.agenda = s.agenda ∧
    (∀ n, events n t = t) ∧
    (∀ rest, s.agenda = .op .reset :: rest → step s = .next { t with agenda := rest })

/-! ## Rules of the whole machine -/

/-- From every state that meets the invariant a step gives a state that meets it (10 R13, R14, R16, R17, R19, R20, R26; 41
R94, R96). -/
def Obligations.StepKeepsInvariant : Prop :=
  ∀ s t : State, s.Inv → step s = .next t → t.Inv

/-- 10 R11: no operation writes the configuration. 20 R52, R40, 70 R200: the event history and the transmit stream only grow;
RESET does not touch them. -/
def Obligations.StepKeepsConfigurationAndRecord : Prop :=
  ∀ s t : State, step s = .next t →
    t.cfg = s.cfg ∧ s.link.history <+: t.link.history ∧ s.link.sent <+: t.link.sent

/-- 10 R25: LAST_CAUSE is cleared by RESET only. -/
def Obligations.OnlyResetClearsLastCause : Prop :=
  ∀ s t : State, step s = .next t → t.lastCause = .none →
    s.lastCause = .none ∨ ∃ rest, s.agenda = .op .reset :: rest

/-- 10 R28: the counters are written by a GET_STATUS in progress, whose payload has come, and by RESET only. -/
def Obligations.CountsWrittenOnlyByStatus : Prop :=
  ∀ s t : State, step s = .next t →
    t.dev = s.dev ∨ (∃ p, s.owner = some ⟨.interp .status, p⟩) ∨ ∃ rest, s.agenda = .op .reset :: rest

/-! ## Byte Codec (40_byte_codec.md) -/

/-- R80: the checksum is the sum of the bytes modulo 256. -/
def Obligations.ChecksumIsSumModulo : Prop :=
  ∀ b : List Byte, (checksum b).toNat = (b.map BitVec.toNat).sum % 256

/-- R82, the incremental law. -/
def Obligations.ChecksumIncrementalLaw : Prop :=
  (∀ x y : List Byte, (checksum (x ++ y)).toNat = ((checksum x).toNat + (checksum y).toNat) % 256) ∧
  (∀ (x : List Byte) (c : Byte), (checksum (x ++ [c])).toNat = ((checksum x).toNat + c.toNat) % 256)

/-- R83: (a) an appended checksum verifies, also after no bytes; (b) flipping any one bit of the sequence with its checksum
makes it fail, always; (c) two changes that cancel modulo 256, and reorderings, are not detected. -/
def Obligations.ChecksumLaws : Prop :=
  (∀ b : List Byte, verifyChecksum (b ++ [checksum b]) = true) ∧
  (∀ (b x y : List Byte) (c : Byte) (k : Nat), k < 8 → b ++ [checksum b] = x ++ c :: y →
    verifyChecksum (x ++ (c ^^^ BitVec.twoPow 8 k) :: y) = false) ∧
  (∀ (x y z : List Byte) (c d c' d' k : Byte), c + d = c' + d' →
    verifyChecksum (x ++ c :: y ++ d :: z ++ [k]) = verifyChecksum (x ++ c' :: y ++ d' :: z ++ [k])) ∧
  (∀ (x y : List Byte) (k : Byte), x.Perm y → verifyChecksum (x ++ [k]) = verifyChecksum (y ++ [k]))

/-- R86: the round trip, and its converse on the text that H2B accepts. -/
def Obligations.HexRoundTrip : Prop :=
  (∀ b : List Byte, hexToBytes (bytesToHex b) = some b) ∧
  (∀ (t : List Char) (b : List Byte), hexToBytes t = some b → bytesToHex b = t)

/-- R80, R81, R84, R85: the four functions return their result and change nothing else. H2B here on well-formed text: the text
of some bytes (R84, two lower-case digits each). -/
def Obligations.ByteCodecOperationsReturn : Prop :=
  ∀ s : State,
    (∀ b : List Byte, exec (.csum b) s = .next { s with ret := some (.byte (checksum b)) }) ∧
    (∀ b : List Byte, exec (.verify b) s = .next { s with ret := some (.truth (verifyChecksum b)) }) ∧
    exec (.verify []) s = .next { s with ret := some (.truth false) } ∧
    (∀ (b : List Byte) (k : Byte),
      exec (.verify (b ++ [k])) s = .next { s with ret := some (.truth (checksum b == k)) }) ∧
    (∀ b : Byte, exec (.b2h b) s = .next { s with ret := some (.text
      ["0123456789abcdef".toList.getD (b.toNat / 16) ' ', "0123456789abcdef".toList.getD (b.toNat % 16) ' ']) }) ∧
    (∀ b : List Byte, exec (.h2b (bytesToHex b)) s = .next { s with ret := some (.bytes b) })

/-- R85, 93 U1: an odd length, or a character that is no lower-case hex digit, makes H2B do nothing and return nothing, and
nothing else does (upper-case digits are malformed too: log entry 19). -/
def Obligations.MalformedHexReturnsNothing : Prop :=
  ∀ (t : List Char) (s : State),
    if t.length % 2 = 0 ∧ ∀ c ∈ t, c ∈ "0123456789abcdef".toList then
      ∃ b, b.length = t.length / 2 ∧ exec (.h2b t) s = .next { s with ret := some (.bytes b) }
    else exec (.h2b t) s = .next { s with ret := none }

/-! ## Frame Codec (41_frame_codec.md) -/

/-- R91: ENCODE returns the frame, byte by byte, for an extra payload of up to eight bytes; a longer one raises TX_BAD_LEN
with its length and no frame exists. -/
def Obligations.EncodeReturnsFrame : Prop :=
  ∀ (a c : Byte) (x : List Byte) (s : State),
    (x.length ≤ 8 → ∃ f : Frame, exec (.encode a c x) s = .next { s with ret := some (.frame f) } ∧
      f[0] = 0xA5 ∧ f[1] = a ∧ f[2] = c ∧ f[3] = 0x08 ∧
      (f.toList.drop 4).take 8 = x ++ List.replicate (8 - x.length) 0 ∧ f[12] = checksum (f.toList.take 12)) ∧
    (8 < x.length → exec (.encode a c x) s =
      .next { s with ret := none, lastCause := .txBadLen, raised := s.raised ++ [.txBadLen x.length] })

/-- R92: the command id first, then the checksum over the 13 bytes, then bytes 4 to 11. That a reject writes no register is
the model's reading of "pure function" (log entry 21). -/
def Obligations.ValidateReturnsJudgement : Prop :=
  ∀ (f : Frame) (e : Byte) (s : State),
    (f[2] ≠ e → exec (.validate f e) s = .next { s with ret := some (.reject .rxCmdMismatch) }) ∧
    (f[2] = e → checksum (f.toList.take 12) ≠ f[12] →
      exec (.validate f e) s = .next { s with ret := some (.reject .rxCsumFail) }) ∧
    (f[2] = e → checksum (f.toList.take 12) = f[12] →
      exec (.validate f e) s =
        .next { s with ret := some (.accept #v[f[4], f[5], f[6], f[7], f[8], f[9], f[10], f[11]]) })

/-- R93 (a) to (d). -/
def Obligations.ValidateEncodeLaws : Prop :=
  (∀ (a c : Byte) (x : List Byte), x.length ≤ 8 → ∃ f p, encodeFrame a c x = some f ∧
    validateFrame f c = .ok p ∧ p.toList = x ++ List.replicate (8 - x.length) 0) ∧
  (∀ (a c e : Byte) (x : List Byte), x.length ≤ 8 → e ≠ c → ∃ f, encodeFrame a c x = some f ∧
    validateFrame f e = .error .rxCmdMismatch) ∧
  (∀ (a c : Byte) (x : List Byte) (f : Frame), encodeFrame a c x = some f → f.toList.length = 13) ∧
  (∀ (f g : Frame) (e : Byte), f[2] = g[2] → f.toList.drop 4 = g.toList.drop 4 →
    checksum (f.toList.take 12) = checksum (g.toList.take 12) → validateFrame f e = validateFrame g e)

/-- R94: TX_LOAD builds the whole frame in one event; OP_BUSY comes before TX_BAD_LEN (60 R188), and either writes only
LAST_CAUSE. -/
def Obligations.TxLoadBuildsFrame : Prop :=
  ∀ (c : Byte) (x : List Byte) (s : State),
    (lineBusy s = false → x.length ≤ 8 → ∃ f, encodeFrame s.cfg.addr c x = some f ∧
      exec (.txLoad c x) s = .next { s with ret := none, tx := ⟨f, 0, .sending⟩ }) ∧
    (lineBusy s = true → exec (.txLoad c x) s =
      .next { s with ret := none, lastCause := .opBusy, raised := s.raised ++ [.opBusy] }) ∧
    (lineBusy s = false → 8 < x.length → exec (.txLoad c x) s =
      .next { s with ret := none, lastCause := .txBadLen, raised := s.raised ++ [.txBadLen x.length] })

/-- R95: TX_BYTE emits TXBUF[TXIDX] and counts it; the one at offset 12 ends the sending. That this last byte enters the frame
in the history as a LinkWrite, whoever loaded it, is the model's choice (log entry 13). In TX_IDLE the event cannot occur (log
entry 17). -/
def Obligations.TxByteSendsNext : Prop :=
  ∀ s : State,
    (∀ h : s.tx.idx < 13, s.tx.state = .sending → exec .txByte s =
      .next { s with ret := none,
                     link := { s.link with
                       sent := s.link.sent ++ [s.tx.buf[s.tx.idx]],
                       history := s.link.history ++ if s.tx.idx = 12 then [.write s.tx.buf] else [] },
                     tx := { s.tx with idx := s.tx.idx + 1, state := if s.tx.idx = 12 then .idle else .sending } }) ∧
    (s.tx.state ≠ .sending → exec .txByte s = .fault .txByteNotEnabled)

/-- R99: a TX_LOAD that does not raise and thirteen TX_BYTE events append the frame's thirteen bytes in order and return
TX_STATE to TX_IDLE, which is WRITE of that frame (R111): where WRITE may start, it and the thirteen events of its sending
leave the same framer and the same link. That both enter the frame in the history is the model's choice (log entry 13). -/
def Obligations.TransmitEquivalence : Prop :=
  ∀ (c : Byte) (x : List Byte) (s : State), lineBusy s = false → x.length ≤ 8 →
    ∃ f t, encodeFrame s.cfg.addr c x = some f ∧
      execAll (.txLoad c x :: List.replicate 13 .txByte) s = .next t ∧
      t.link.sent = s.link.sent ++ f.toList ∧ t.tx.state = .idle ∧
      (engaged s = false → ∃ v u, exec (.write f) s = .next v ∧ events 13 v = u ∧ u.tx = t.tx ∧ u.link = t.link)

/-- R96: RX_ARM, and OP_BUSY on a busy line. RXBUF's cells keep their bytes, where R96 gives them no value (log entry 2), and
the oracle has not answered the new read (log entry 4). -/
def Obligations.RxArmStartsRead : Prop :=
  ∀ (e : Byte) (s : State),
    (lineBusy s = false → exec (.rxArm e) s =
      .next { s with ret := none, rx := ⟨s.rx.buf, 0, 0, e, .receiving⟩, link := { s.link with answered := false } }) ∧
    (lineBusy s = true → exec (.rxArm e) s =
      .next { s with ret := none, lastCause := .opBusy, raised := s.raised ++ [.opBusy] })

/-- R97 up to the 12th byte: stored at RXIDX, added to RXSUM, no judgement, also when byte 2 already differs. The byte taken
is the first the transport then holds: the one that arrives, behind those held already (R96; log entry 17). Outside
RX_RECEIVING no register takes a byte: it stays with the transport (92 D28; log entry 17). -/
def Obligations.RxByteStoresUntilTwelfth : Prop :=
  ∀ (b c : Byte) (rest : List Byte) (s : State),
    (s.link.buffered ++ [b] = c :: rest → ∀ h : s.rx.idx < 12, s.rx.state = .receiving → exec (.rxByte b) s =
      .next { s with ret := none, link := { s.link with buffered := rest },
                     rx := ⟨s.rx.buf.set s.rx.idx c (Nat.lt_succ_of_lt h), s.rx.idx + 1, s.rx.sum + c, s.rx.expect,
                       .receiving⟩ }) ∧
    (s.rx.state ≠ .receiving → exec (.rxByte b) s =
      .next { s with ret := none, link := { s.link with buffered := s.link.buffered ++ [b] } })

/-- R97 at the 13th byte, which is the first the transport then holds (R96; log entry 17): command id, then checksum, else
accepted; the byte is compared with RXSUM and not added. -/
def Obligations.RxByteJudgesThirteenth : Prop :=
  ∀ (b c : Byte) (rest : List Byte) (s : State), s.rx.state = .receiving → s.rx.idx = 12 → s.link.buffered ++ [b] = c :: rest →
    (s.rx.buf[2] ≠ s.rx.expect → exec (.rxByte b) s =
      .next { s with ret := none, rx := ⟨s.rx.buf.set 12 c, 13, s.rx.sum, s.rx.expect, .rejectCmd⟩,
                     link := { s.link with buffered := rest },
                     lastCause := .rxCmdMismatch, raised := s.raised ++ [.rxCmdMismatch s.rx.buf[2] s.rx.expect] }) ∧
    (s.rx.buf[2] = s.rx.expect → c ≠ s.rx.sum → exec (.rxByte b) s =
      .next { s with ret := none, rx := ⟨s.rx.buf.set 12 c, 13, s.rx.sum, s.rx.expect, .rejectCsum⟩,
                     link := { s.link with buffered := rest },
                     lastCause := .rxCsumFail, raised := s.raised ++ [.rxCsumFail c s.rx.sum] }) ∧
    (s.rx.buf[2] = s.rx.expect → c = s.rx.sum → exec (.rxByte b) s =
      .next { s with ret := none, rx := ⟨s.rx.buf.set 12 c, 13, s.rx.sum, s.rx.expect, .accept⟩,
                     link := { s.link with buffered := rest } })

/-- R98: RX_ABORT, enabled only in RX_RECEIVING (log entry 17). RXIDX and the bytes received stay; that RXBUF keeps them,
where R98 gives it no value, is log entry 2. -/
def Obligations.RxAbortEndsRead : Prop :=
  ∀ s : State,
    (s.rx.state = .receiving → exec .rxAbort s =
      .next { s with ret := none, rx := { s.rx with state := .noData }, lastCause := .rxNoData,
                     raised := s.raised ++ [.rxNoData s.rx.idx] }) ∧
    (s.rx.state ≠ .receiving → exec .rxAbort s = .fault .rxAbortNotEnabled)

/-- R100: RX_ARM, at most 13 RX_BYTE events, RX_ABORT when they are fewer: the state VALIDATE's judgement of the bytes `r`
taken says, and for a whole answer the running comparison is VERIFY's. The bytes taken are those the transport held and then
those that arrive, in that order (R96; log entry 17); what is left stays held. R97, R98: LAST_CAUSE; 10 R19, R24: RX_PAYLOAD,
RX_SEQ and RX_CMD have a value exactly on an accept, and the flags follow. Nothing outside the validator, LAST_CAUSE, the
raises and the bytes held changes, but that the oracle has not answered the read (log entry 4); a read armed by the host is
not entered in the history (log entry 13). -/
def Obligations.ReceiveEquivalence : Prop :=
  ∀ (e : Byte) (x r : List Byte) (s : State), lineBusy s = false → x.length ≤ 13 →
    r = (s.link.buffered ++ x).take x.length →
    ∃ t, execAll (.rxArm e :: (x.map .rxByte ++ if x.length < 13 then [.rxAbort] else [])) s = .next t ∧
      (r.length < 13 → t.rx.state = .noData ∧ rxEmpty t = true) ∧
      (r.length = 13 → ∀ p, validateFrame (frameOf r) e = .ok p → t.rx.state = .accept ∧ rxOk t = true ∧
        rxPayload t = some p ∧ rxSeq t = some p[0] ∧ rxCmd t = some e) ∧
      (r.length = 13 → validateFrame (frameOf r) e = .error .rxCmdMismatch → t.rx.state = .rejectCmd ∧ rxErrCmd t = true) ∧
      (r.length = 13 → validateFrame (frameOf r) e = .error .rxCsumFail → t.rx.state = .rejectCsum ∧ rxErrCsum t = true) ∧
      (r.length = 13 → (t.rx.buf[12] ≠ t.rx.sum ↔ verifyChecksum r = false)) ∧
      (rxOk t = false → rxPayload t = none ∧ rxSeq t = none ∧ rxCmd t = none) ∧ rxDone t = true ∧
      t.lastCause = judgedCause s.lastCause (judgeAnswer r e) ∧
      t.link = { s.link with answered := false, buffered := (s.link.buffered ++ x).drop x.length } ∧
      { t with rx := s.rx, lastCause := s.lastCause, raised := s.raised, ret := s.ret, link := s.link } = s

/-- 10 R19, R24: when each flag is true and what each view is, in every state. -/
def Obligations.FlagsAndViewsFollowStates : Prop :=
  ∀ s : State,
    (txBusy s = true ↔ s.tx.state = .sending) ∧ (rxBusy s = true ↔ s.rx.state = .receiving) ∧
    (rxDone s = true ↔ s.rx.state ∈ [.accept, .rejectCmd, .rejectCsum, .noData]) ∧
    (rxOk s = true ↔ s.rx.state = .accept) ∧ (rxErrCmd s = true ↔ s.rx.state = .rejectCmd) ∧
    (rxErrCsum s = true ↔ s.rx.state = .rejectCsum) ∧ (rxEmpty s = true ↔ s.rx.state = .noData) ∧
    (fdOk s = true ↔ s.fd.state = .loaded) ∧ (fdErr s = true ↔ s.fd.state = .faulted) ∧
    (fdEnd s = true ↔ s.fd.state = .loaded ∧ s.fd.cur = 8) ∧
    (s.rx.state = .accept → rxSeq s = some s.rx.buf[4] ∧ rxCmd s = some s.rx.buf[2] ∧
      rxPayload s = some #v[s.rx.buf[4], s.rx.buf[5], s.rx.buf[6], s.rx.buf[7], s.rx.buf[8], s.rx.buf[9], s.rx.buf[10],
        s.rx.buf[11]]) ∧
    (s.rx.state ≠ .accept → rxSeq s = none ∧ rxCmd s = none ∧ rxPayload s = none)

/-- 42 R111, 30 R61: WRITE and a frame word on the transmit side load exactly the given bytes; the owner is blocked while they
leave one TX_BYTE event at a time, and the write stands in the history when the last has left (log entry 13). A busy line
gives OP_BUSY and nothing is sent (log entry 13). -/
def Obligations.WriteSendsFrame : Prop :=
  ∀ (i : Instr) (f : Frame) (s : State),
    (i = .write f ∨ ∃ a c p k, i = .frameRequest a c p k ∧ f = frameOf (wireBytes 0xA5 a c 0x08 p k)) →
    (lineBusy s = false → engaged s = false →
      ∃ t, t = { s with ret := none, owner := some ⟨.write, .send⟩, tx := ⟨f, 0, .sending⟩ } ∧ exec i s = .next t ∧
        (∀ k, k ≤ 12 → events k t = { t with
          tx := ⟨f, k, .sending⟩, link := { s.link with sent := s.link.sent ++ f.toList.take k } }) ∧
        events 13 t = { s with
          ret := none, owner := none, tx := ⟨f, 13, .idle⟩,
          link := { s.link with sent := s.link.sent ++ f.toList, history := s.link.history ++ [.write f] } }) ∧
    (lineBusy s = true → exec i s =
      .next { s with ret := none, lastCause := .opBusy, raised := s.raised ++ [.opBusy] })

/-- 30 R63, 41 R97, 92 D28: a frame that reaches the receive side is held by the transport (log entry 22), in every state; a
read freshly armed, with nothing else held, takes its bytes one RX_BYTE event at a time and judges it with the last. -/
def Obligations.ReceivedFrameIsDelivered : Prop :=
  ∀ (st a c l : Byte) (p : Payload) (k : Byte) (s : State),
    ∃ t, t = { s with ret := none, link := { s.link with buffered := s.link.buffered ++ wireBytes st a c l p k } } ∧
      exec (.frameResponse st a c l p k) s = .next t ∧
      (s.owner = none → s.tx.state = .idle → s.rx.state = .receiving → s.rx.idx = 0 → s.rx.sum = 0 → s.link.buffered = [] →
        ∃ u, events 13 t = u ∧
          u.rx.state = (if c ≠ s.rx.expect then .rejectCmd
            else if checksum (st :: a :: c :: l :: p.toList) ≠ k then .rejectCsum else .accept) ∧
          u.rx.buf.toList = wireBytes st a c l p k ∧ u.rx.idx = 13 ∧ u.link = s.link ∧
          { u with rx := s.rx, lastCause := s.lastCause, raised := s.raised, ret := s.ret } = s)

/-! ## Exchange Engine (42_exchange_engine.md) -/

/-- R110, R113, 60 R192: FLUSH drops what the transport holds and is recorded; the answers listed for reads to come stay, and
RX_RECEIVING, where R110 has no FLUSH issued, makes no difference (log entry 5). SLEEP blocks the owner until the clock's event lets it return, and is recorded then (log entry 13). A return of
SLEEP where none is pending changes nothing (log entry 17). -/
def Obligations.FlushAndSleepOnlyRecord : Prop :=
  ∀ s : State,
    exec .flush s =
      .next { s with ret := none, link := { s.link with buffered := [], history := s.link.history ++ [.flush] } } ∧
    (∀ d, engaged s = false →
      ∃ t, t = { s with ret := none, owner := some ⟨.sleep d, .pace⟩ } ∧ exec (.sleep d) s = .next t ∧
        wake t = { s with ret := none, link := { s.link with history := s.link.history ++ [.sleep d] } } ∧
        (lineBusy s = false → environment t = wake t)) ∧
    ((∀ c, s.owner ≠ some ⟨c, .pace⟩ ∧ s.owner ≠ some ⟨c, .backoff⟩) → wake s = s)

/-- R112: READ arms the validator and blocks; with nothing held by the transport its events take the oracle's next answer (the
next listed one, else a free one: log entry 4), return it, record it, and leave the validator as R100 says. That it expects
the latched request's command id, and that a busy line gives OP_BUSY, is log entry 14; that RXBUF keeps its bytes when it is
armed is log entry 2. The same from any state with a READ blocked in a fresh read. -/
def Obligations.ReadReturnsAnswer : Prop :=
  (∀ (d : Duration) (s : State), lineBusy s = false → engaged s = false → exec (.read d) s =
    .next { s with ret := none, owner := some ⟨.read d, .collect⟩, rx := ⟨s.rx.buf, 0, 0, s.ex.req.cmd, .receiving⟩,
                   link := { s.link with answered := false } }) ∧
  (∀ (d : Duration) (r : List Byte) (rest : List (List Byte)) (k : Nat) (s : State),
    s.owner = some ⟨.read d, .collect⟩ → s.tx.state = .idle → s.rx.state = .receiving → s.rx.idx = 0 → s.rx.sum = 0 →
    s.link.buffered = [] → s.link.answered = false → r.length ≤ 13 →
    (s.link.oracle = r :: rest ∧ k = 0 ∨
      s.link.oracle = [] ∧ rest = [] ∧ r = (Config.linkAnswer s.link.draws).take 13 ∧ k = 1) →
    ∃ n u, events n s = u ∧ u.ret = some (.bytes r) ∧ u.owner = none ∧
      u.link.history = s.link.history ++ [.read d r] ∧ u.link.sent = s.link.sent ∧ u.link.buffered = [] ∧
      u.link.oracle = rest ∧ u.link.draws = s.link.draws + k ∧
      u.rx.state = judgedState (judgeAnswer r s.rx.expect) ∧
      u.lastCause = judgedCause s.lastCause (judgeAnswer r s.rx.expect) ∧
      u.cfg = s.cfg ∧ u.tx = s.tx ∧ u.fd = s.fd ∧ u.ex = s.ex ∧ u.dev = s.dev ∧ u.agenda = s.agenda) ∧
  (∀ (d : Duration) (s : State), lineBusy s = true → exec (.read d) s =
    .next { s with ret := none, lastCause := .opBusy, raised := s.raised ++ [.opBusy] })

/-- R115: on an idle line, with answers of at most 13 bytes (R112), ATTEMPT over the L0 units, one event at a time (log entry
6), the first its FLUSH, comes to what its pseudocode over ENCODE, VALIDATE and LinkRead comes to: its return, or a read
without an answer. ATTEMPT alone takes the latched EX_REQ and leaves EX_STATE and EX_ATTEMPT (log entry 15). -/
def Obligations.AttemptFollowsPseudocode : Prop :=
  ∀ (s : State) (e : Episode), Ready s → s.ex.req.extra.length ≤ 8 →
    e = attemptSpec s.ex.req (requestFrame s.cfg s.ex.req) s.link.oracle s.lastCause →
    ∃ t n u, exec .attempt s = .next t ∧ t.owner = some ⟨.attempt, .flush (requestFrame s.cfg s.ex.req)⟩ ∧ t.ret = none ∧
      events n t = u ∧
      u.ex = { s.ex with collected := e.got } ∧
      (e.ended = true → u.ret = some (.payloads e.got) ∧ u.fd = s.fd ∧ u.dev = s.dev ∧
        episodeReturned .attempt s u s.ex.req e) ∧
      (e.ended = false → episodeBlocked .attempt s u s.ex.req e)

/-- R116 over R115: the same for EXCHANGE, with its defaults, its retries and its end in EX_IDLE (log entry 6: one event at a
time). -/
def Obligations.ExchangeFollowsPseudocode : Prop :=
  ∀ (s : State) (c : Byte) (x : Option (List Byte)) (m : Option Nat) (d t' : Option Duration) (q : ExReq) (e : Episode),
    Ready s → q = ⟨c, x.getD [], m.getD 1, d.getD s.cfg.interCommandDelay, t'.getD s.cfg.readTimeout⟩ → q.extra.length ≤ 8 →
    e = exchangeSpec s.cfg.backoff q (requestFrame s.cfg q) s.cfg.retryCount s.link.oracle s.lastCause →
    ∃ t n u, exec (.exchange c x m d t') s = .next t ∧ events n t = u ∧
      t.owner = (if s.cfg.retryCount = 0 then none else some ⟨.exchange, .flush (requestFrame s.cfg q)⟩) ∧
      (e.ended = true → u.ret = some (.payloads e.got) ∧ u.fd = s.fd ∧ u.dev = s.dev ∧ episodeReturned .exchange s u q e) ∧
      (e.ended = false → episodeBlocked .exchange s u q e)

/-- R120, every row of the sequencer's table, as the events it is made of (70 R221; log entry 6). EX_IDLE: EXCHANGE called.
SEND: the encoding is part of the event before, then FLUSH, TX_LOAD, and the last TX_BYTE. PACE and BACKOFF: the return of
SLEEP, entered in the history then (log entry 13). COLLECT: RX_ARM, which leaves RXBUF's bytes (log entry 2) and an oracle
that has not answered (log entry 4), and the end of the read. ENDATT is `attemptEnds`, part of the event before. -/
def Obligations.SequencerFollowsTable : Prop :=
  (∀ (s : State) (i : Byte) (x : Option (List Byte)) (m : Option Nat) (d t' : Option Duration) (q : ExReq), engaged s = false →
    q = ⟨i, x.getD [], m.getD 1, d.getD s.cfg.interCommandDelay, t'.getD s.cfg.readTimeout⟩ → q.extra.length ≤ 8 →
    exec (.exchange i x m d t') s = .next
      (if s.cfg.retryCount = 0 then
        { s with ret := some (.payloads []), ex := ⟨.idle, 0, s.ex.collected, q⟩,
                 lastCause := .exRetriesExhausted, raised := s.raised ++ [.exRetriesExhausted] }
      else
        { s with ret := none, owner := some ⟨.exchange, .flush (requestFrame s.cfg q)⟩,
                 ex := ⟨.running, 1, s.ex.collected, q⟩ })) ∧
  ∀ (s : State) (c : Call), c.runsExchange = true →
    (∀ f, s.owner = some ⟨c, .flush f⟩ → environment s = { s with
      owner := some ⟨c, .load f⟩, ret := none, link := { s.link with buffered := [], history := s.link.history ++ [.flush] } }) ∧
    (∀ f, s.owner = some ⟨c, .load f⟩ → lineBusy s = false →
      environment s = { s with owner := some ⟨c, .send⟩, ret := none, tx := ⟨f, 0, .sending⟩ }) ∧
    (s.owner = some ⟨c, .send⟩ → s.tx.state = .sending → s.tx.idx = 12 →
      ∃ u, environment s = u ∧ u.owner = some ⟨c, .pace⟩ ∧ u.tx.state = .idle ∧ u.ex = s.ex ∧
        u.link.history = s.link.history ++ [.write s.tx.buf]) ∧
    (s.owner = some ⟨c, .pace⟩ → lineBusy s = false → ∀ h, h = s.link.history ++ [.sleep s.ex.req.interCommandDelay] →
      ∃ u, environment s = u ∧ u.ex.collected = [] ∧
        (0 < s.ex.req.maxResponses → u = { s with
          owner := some ⟨c, .arm⟩, ret := none, ex := { s.ex with collected := [] }, link := { s.link with history := h } }) ∧
        (s.ex.req.maxResponses = 0 → attemptEnds c h [] s u)) ∧
    (s.owner = some ⟨c, .arm⟩ → lineBusy s = false → environment s = { s with
      owner := some ⟨c, .collect⟩, ret := none, rx := ⟨s.rx.buf, 0, 0, s.ex.req.cmd, .receiving⟩,
      link := { s.link with answered := false } }) ∧
    (s.owner = some ⟨c, .collect⟩ → ∀ h, h = s.link.history ++ [.read s.ex.req.readTimeout (received s)] →
      (s.rx.state = .noData → attemptEnds c h s.ex.collected s (settle s)) ∧
      (s.ex.collected.length < s.ex.req.maxResponses → s.rx.state = .rejectCmd ∨ s.rx.state = .rejectCsum →
        settle s = { s with owner := some ⟨c, .arm⟩, ret := none, link := { s.link with history := h } }) ∧
      (s.rx.state = .accept → ∀ p, rxPayload s = some p →
        (s.ex.collected.length + 1 < s.ex.req.maxResponses → settle s = { s with
          owner := some ⟨c, .arm⟩, ret := none, ex := { s.ex with collected := s.ex.collected ++ [p] },
          link := { s.link with history := h } }) ∧
        (s.ex.collected.length + 1 = s.ex.req.maxResponses → attemptEnds c h (s.ex.collected ++ [p]) s (settle s)))) ∧
    (s.owner = some ⟨c, .backoff⟩ → lineBusy s = false → s.ex.req.extra.length ≤ 8 →
      environment s = { s with
        owner := some ⟨c, .flush (requestFrame s.cfg s.ex.req)⟩, ret := none, ex := { s.ex with attempt := s.ex.attempt + 1 },
        link := { s.link with history := s.link.history ++ [.sleep s.cfg.backoff] } })

/-- R115 corner (a), R119, 95 S7: however many 13-byte answers fail validation, they end neither the attempt nor the exchange,
nothing is collected and no retry is used. -/
def Obligations.RejectedAnswersNeverEndAttempt : Prop :=
  ∀ (s : State) (c : Byte), Ready s → 1 ≤ s.cfg.retryCount →
    (∀ r ∈ s.link.oracle, r.length = 13 ∧ ∃ x, validateFrame (frameOf r) c = .error x) →
    ∃ t n u, exec (.exchange c none none none none) s = .next t ∧ events n t = u ∧ u.owner = some ⟨.exchange, .collect⟩ ∧
      u.rx.state = .receiving ∧ u.rx.idx = 0 ∧ u.ex.state = .running ∧ u.ex.attempt = 1 ∧ u.ex.collected = [] ∧ u.ret = none ∧
      u.link.oracle = [] ∧ u.link.history = s.link.history ++
        [.flush, .write (sealFrame 0xA5 s.cfg.addr c 0x08 (padPayload [])), .sleep s.cfg.interCommandDelay] ++
        s.link.oracle.map (.read s.cfg.readTimeout) ∧
      u.cfg = s.cfg ∧ u.fd = s.fd ∧ u.dev = s.dev ∧ u.agenda = s.agenda

/-- R116, 95 S8 and X4: with silence in every attempt EXCHANGE returns the empty list and raises EX_RETRIES_EXHAUSTED; the
same frame is written once an attempt, with a backoff between attempts and none after the last. -/
def Obligations.SilentExchangeReturnsEmpty : Prop :=
  ∀ (s : State) (c : Byte) (n : Nat) (rest : List (List Byte)), Ready s →
    s.cfg.retryCount = n + 1 → s.link.oracle = List.replicate (n + 1) [] ++ rest →
    ∃ t m u, exec (.exchange c none none none none) s = .next t ∧ events m t = u ∧ u.ret = some (.payloads []) ∧
      u.lastCause = .exRetriesExhausted ∧ u.ex.state = .idle ∧ u.ex.attempt = 0 ∧ u.link.oracle = rest ∧
      u.link.history = s.link.history ++
        (List.replicate n [.flush, .write (sealFrame 0xA5 s.cfg.addr c 0x08 (padPayload [])),
          .sleep s.cfg.interCommandDelay, .read s.cfg.readTimeout [], .sleep s.cfg.backoff]).flatten ++
        [.flush, .write (sealFrame 0xA5 s.cfg.addr c 0x08 (padPayload [])),
          .sleep s.cfg.interCommandDelay, .read s.cfg.readTimeout []] ∧
      u.owner = none ∧ u.cfg = s.cfg ∧ u.fd = s.fd ∧ u.dev = s.dev ∧ u.agenda = s.agenda

/-- R116 corner (a): with RETRY_COUNT = 0 nothing is sent. 60 R186, R115: an extra payload of more than eight bytes ends an
exchange, or an attempt alone, at once, before the flush. They return the empty list and leave the sequencer idle (EX_ATTEMPT
0 after TX_BAD_LEN: log entry 30). -/
def Obligations.ExchangeThatSendsNothing : Prop :=
  (∀ (s : State) (c : Byte) (x : List Byte) (m : Option Nat) (d t' : Option Duration), engaged s = false →
    (s.cfg.retryCount = 0 ∨ 8 < x.length) →
    ∃ t, exec (.exchange c (some x) m d t') s = .next t ∧ t.ret = some (.payloads []) ∧
      t.lastCause = (if s.cfg.retryCount = 0 then .exRetriesExhausted else .txBadLen) ∧
      t.ex.state = .idle ∧ t.ex.attempt = 0 ∧ t.link = s.link ∧ t.tx = s.tx ∧ t.rx = s.rx ∧ t.fd = s.fd ∧
      t.dev = s.dev ∧ t.owner = none) ∧
  (∀ s : State, engaged s = false → 8 < s.ex.req.extra.length → exec .attempt s =
    .next { s with ret := some (.payloads []), owner := none, lastCause := .txBadLen,
                   raised := s.raised ++ [.txBadLen s.ex.req.extra.length] })

/-- Log entry 16: where something else keeps the line busy, the write of an attempt raises OP_BUSY (41 R94) after the flush;
the attempt and its exchange end there with the empty result, nothing sent, the unit that is busy untouched, the sequencer
idle. The RX_ARM of an exchange's read raises it the same way (41 R96). That the flush has its full effect also where the line
is busy with a read, in RX_RECEIVING, is log entry 5. -/
def Obligations.BusyLineEndsAttempt : Prop :=
  ∀ s : State, lineBusy s = true →
    (engaged s = false → s.ex.req.extra.length ≤ 8 → ∃ t, exec .attempt s = .next t ∧ events 2 t =
      { s with ret := some (.payloads []), owner := none, lastCause := .opBusy, raised := s.raised ++ [.opBusy],
               link := { s.link with buffered := [], history := s.link.history ++ [.flush] } }) ∧
    (engaged s = false → 1 ≤ s.cfg.retryCount →
      ∀ (c : Byte) (x : Option (List Byte)) (m : Option Nat) (d t' : Option Duration) (q : ExReq),
      q = ⟨c, x.getD [], m.getD 1, d.getD s.cfg.interCommandDelay, t'.getD s.cfg.readTimeout⟩ → q.extra.length ≤ 8 →
      ∃ t, exec (.exchange c x m d t') s = .next t ∧ events 2 t =
        { s with ret := some (.payloads []), owner := none, lastCause := .opBusy, raised := s.raised ++ [.opBusy],
                 ex := { s.ex with state := .idle, attempt := 0, req := q },
                 link := { s.link with buffered := [], history := s.link.history ++ [.flush] } }) ∧
    (engaged s = false → 1 ≤ s.cfg.retryCount → ∀ (k : Interp) (q : ExReq),
      q = ⟨interpCommand s.cfg k, [], interpResponses s.dev k, s.cfg.interCommandDelay, s.cfg.readTimeout⟩ →
      ∃ t, exec (interpInstr k) s = .next t ∧ events 2 t =
        { s with ret := some (.measurement (.map [])), owner := none, lastCause := .opBusy,
                 raised := s.raised ++ [.opBusy], ex := { s.ex with state := .idle, attempt := 0, req := q },
                 link := { s.link with buffered := [], history := s.link.history ++ [.flush] } }) ∧
    (s.owner = some ⟨.exchange, .arm⟩ → environment s =
      { s with ret := some (.payloads []), owner := none, lastCause := .opBusy, raised := s.raised ++ [.opBusy],
               ex := { s.ex with state := .idle, attempt := 0 } })

/-- 70 R210, R116 corner (f): while a call is in progress no other call of the owner can be started (log entry 18). On a busy
line WRITE, FRAME_REQUEST and READ raise OP_BUSY first (WriteSendsFrame, ReadReturnsAnswer). -/
def Obligations.SecondOwnerStops : Prop :=
  ∀ s : State, engaged s = true →
    exec .attempt s = .fault .secondOwner ∧
    (∀ c x m d t, exec (.exchange c x m d t) s = .fault .secondOwner) ∧
    (∀ k : Interp, exec (interpInstr k) s = .fault .secondOwner) ∧
    (∀ d, exec (.sleep d) s = .fault .secondOwner) ∧
    (∀ x ds, exec (.decodeFields x ds) s = .fault .secondOwner) ∧ (∀ ps k, exec (.reassemble ps k) s = .fault .secondOwner) ∧
    (lineBusy s = false →
      (∀ f, exec (.write f) s = .fault .secondOwner) ∧ (∀ d, exec (.read d) s = .fault .secondOwner) ∧
      (∀ a c p k, exec (.frameRequest a c p k) s = .fault .secondOwner))

/-- R112, R115, R116, R120: an ATTEMPT, an EXCHANGE or an interpreter blocked in a fresh read goes on, one event at a time
(log entry 6), to what its pseudocode comes to on the answers listed, taken up from EX_COLLECTED and EX_ATTEMPT: an accepted
payload with more to collect, a rejected answer, a short one with its backoff, its next attempt or its exhaustion, the return,
or a read without an answer. An interpreter returns what it makes of the payloads. -/
def Obligations.BlockedCallGoesOn : Prop :=
  ∀ (s : State) (c : Call) (e : Episode), c.runsAttempt = true → s.owner = some ⟨c, .collect⟩ → s.ret = none →
    s.tx.state = .idle → s.rx.state = .receiving → s.rx.idx = 0 → s.rx.sum = 0 → s.rx.expect = s.ex.req.cmd →
    s.link.buffered = [] → s.link.answered = false → (∀ r ∈ s.link.oracle, r.length ≤ 13) →
    s.ex.req.extra.length ≤ 8 → s.ex.collected.length < s.ex.req.maxResponses →
    (c.runsExchange = true → s.ex.state = .running ∧ s.ex.attempt ≤ s.cfg.retryCount) →
    e = (if c.runsExchange then
        resumeSpec s.cfg.backoff s.ex.req (requestFrame s.cfg s.ex.req) (s.cfg.retryCount - s.ex.attempt) s.link.oracle
          s.ex.collected s.lastCause
      else collectSpec s.ex.req s.link.oracle s.ex.collected s.lastCause) →
    ∃ n u, events n s = u ∧ u.ex.collected = e.got ∧
      (e.ended = true → episodeReturned c s u s.ex.req e ∧
        (c = .attempt ∨ c = .exchange → u.ret = some (.payloads e.got) ∧ u.fd = s.fd ∧ u.dev = s.dev) ∧
        (∀ k, c = .interp k → u.ret = (interpResult k e.got s).2.map .measurement ∧
          u.fd = (interpResult k e.got s).1.fd ∧ u.dev = (interpResult k e.got s).1.dev)) ∧
      (e.ended = false → episodeBlocked c s u s.ex.req e)

/-! ## Field Decoder (43_field_decoder.md) -/

/-- R130: FD_LOAD from each operand form, and its two exceptions in R188's order. That a position past the end of EX_COLLECTED
holds no value is the model's reading (log entry 36). -/
def Obligations.FdLoadBindsPayload : Prop :=
  ∀ (s : State) (n : Nat),
    (∀ p, n ≤ 8 → exec (.fdLoad (.bytes p) n) s =
      .next { s with ret := none, fd := { s.fd with buf := p, cur := n, state := .loaded } }) ∧
    (s.rx.state = .accept → n ≤ 8 → exec (.fdLoad .rxPayload n) s =
      .next { s with ret := none, fd := { s.fd with buf := #v[s.rx.buf[4], s.rx.buf[5], s.rx.buf[6], s.rx.buf[7],
        s.rx.buf[8], s.rx.buf[9], s.rx.buf[10], s.rx.buf[11]], cur := n, state := .loaded } }) ∧
    (∀ i p, s.ex.collected[i]? = some p → n ≤ 8 → exec (.fdLoad (.collected i) n) s =
      .next { s with ret := none, fd := { s.fd with buf := p, cur := n, state := .loaded } }) ∧
    (s.rx.state ≠ .accept → exec (.fdLoad .rxPayload n) s =
      .next { s with ret := none, lastCause := .fdNotLoaded, raised := s.raised ++ [.fdNotLoaded] }) ∧
    (∀ i, s.ex.collected.length ≤ i → exec (.fdLoad (.collected i) n) s =
      .next { s with ret := none, lastCause := .fdNotLoaded, raised := s.raised ++ [.fdNotLoaded] }) ∧
    (∀ src p, payloadOperand s src = some p → 8 < n → exec (.fdLoad src n) s =
      .next { s with ret := none, lastCause := .fdRange, raised := s.raised ++ [.fdLoadRange n] })

/-- R131, R134, R136, 20 R43: the unsigned fields, big-endian, at any cursor with room. -/
def Obligations.UnsignedFieldValues : Prop :=
  ∀ (s : State) (a : Nat) (v : Int), s.fd.state = .loaded → s.fd.cur = a →
    (a + 1 ≤ 8 → v = byteNum s.fd.buf a → exec .u8 s =
      .next { s with ret := some (.field (.num v)),
                     fd := { s.fd with val := BitVec.ofInt 32 v, kind := 0x00, cur := a + 1 } }) ∧
    (a + 2 ≤ 8 → v = 256 * byteNum s.fd.buf a + byteNum s.fd.buf (a + 1) → exec .u16 s =
      .next { s with ret := some (.field (.num v)),
                     fd := { s.fd with val := BitVec.ofInt 32 v, kind := 0x01, cur := a + 2 } }) ∧
    (a + 4 ≤ 8 → v = 2 ^ 24 * byteNum s.fd.buf a + 2 ^ 16 * byteNum s.fd.buf (a + 1) +
        2 ^ 8 * byteNum s.fd.buf (a + 2) + byteNum s.fd.buf (a + 3) → exec .u32 s =
      .next { s with ret := some (.field (.num v)),
                     fd := { s.fd with val := BitVec.ofInt 32 v, kind := 0x02, cur := a + 4 } })

/-- R132, R135, R137: the signed fields, two's complement (93 U10; log entry 10). -/
def Obligations.SignedFieldValues : Prop :=
  ∀ (s : State) (a : Nat) (v : Int), s.fd.state = .loaded → s.fd.cur = a →
    (a + 1 ≤ 8 → v = signedNum 8 (byteNum s.fd.buf a) → exec .i8 s =
      .next { s with ret := some (.field (.num v)),
                     fd := { s.fd with val := BitVec.ofInt 32 v, kind := 0x04, cur := a + 1 } }) ∧
    (a + 2 ≤ 8 → v = signedNum 16 (256 * byteNum s.fd.buf a + byteNum s.fd.buf (a + 1)) → exec .i16 s =
      .next { s with ret := some (.field (.num v)),
                     fd := { s.fd with val := BitVec.ofInt 32 v, kind := 0x05, cur := a + 2 } }) ∧
    (a + 4 ≤ 8 → v = signedNum 32 (2 ^ 24 * byteNum s.fd.buf a + 2 ^ 16 * byteNum s.fd.buf (a + 1) +
        2 ^ 8 * byteNum s.fd.buf (a + 2) + byteNum s.fd.buf (a + 3)) → exec .i32 s =
      .next { s with ret := some (.field (.num v)),
                     fd := { s.fd with val := BitVec.ofInt 32 v, kind := 0x06, cur := a + 4 } })

/-- R133: every non-zero byte is true; FVAL is 0 or 1. -/
def Obligations.BoolFieldValue : Prop :=
  ∀ (s : State) (b : Bool), s.fd.state = .loaded → s.fd.cur + 1 ≤ 8 →
    (b = true ↔ byteNum s.fd.buf s.fd.cur ≠ 0) → exec .bool s =
      .next { s with ret := some (.field (.truth b)),
                     fd := { s.fd with val := if b then 1 else 0, kind := 0x08, cur := s.fd.cur + 1 } }

/-- R139, 60 R186, R188: what the field operations and the reserved codes (30 R67) do when they cannot read: FD_NOT_LOADED
first, then FD_BAD_DESC, then FD_RANGE; no value, FVAL, FVAL_KIND and FCUR unchanged. -/
def Obligations.FieldFaultsTaken : Prop :=
  ∀ s : State,
    (∀ x ∈ [(Instr.u8, 1), (.u16, 2), (.u32, 4), (.i8, 1), (.i16, 2), (.i32, 4), (.bool, 1)],
      (s.fd.state ≠ .loaded → exec x.1 s =
        .next { s with ret := none, lastCause := .fdNotLoaded, raised := s.raised ++ [.fdNotLoaded] }) ∧
      (s.fd.state = .loaded → 8 < s.fd.cur + x.2 → exec x.1 s =
        .next { s with ret := none, lastCause := .fdRange, raised := s.raised ++ [.fdFieldRange s.fd.cur x.2],
                       fd := { s.fd with state := .faulted } })) ∧
    (∀ d : Byte, listedReserved d = true →
      (s.fd.state ≠ .loaded → exec (.descReserved d) s =
        .next { s with ret := none, lastCause := .fdNotLoaded, raised := s.raised ++ [.fdNotLoaded] }) ∧
      (s.fd.state = .loaded → exec (.descReserved d) s =
        .next { s with ret := none, lastCause := .fdBadDesc, raised := s.raised ++ [.fdBadDesc d],
                       fd := { s.fd with state := .faulted } }))

/-- R138: DECODE_FIELDS returns the tuple of the schema's typed values read one after another from offset 0, each strobe an
event (70 R221; log entry 6). Where a part raises, no tuple is returned, the first cause raised is taken (a reserved
descriptor's before a field's range, R139) and FCUR stands where that part began; an operand without a value raises
FD_NOT_LOADED. Signed values are two's complement (log entry 10, PRESUMED). -/
def Obligations.DecodeFieldsReturnsTuple : Prop :=
  ∀ (src : PayloadSrc) (schema : List Byte) (s : State), engaged s = false →
    (∀ p vs a, payloadOperand s src = some p → schemaSpec p schema 0 = some (vs, a) →
      ∃ t n u, exec (.decodeFields src schema) s = .next t ∧ events n t = u ∧ u.ret = some (.tuple vs) ∧
        u.fd.buf = p ∧ u.fd.cur = a ∧ u.fd.state = .loaded ∧ { u with fd := s.fd, ret := s.ret } = s) ∧
    (∀ p, payloadOperand s src = some p → schemaSpec p schema 0 = none →
      ∃ t n u r a, schemaRaise p schema 0 = some (r, a) ∧ exec (.decodeFields src schema) s = .next t ∧ events n t = u ∧
        u.ret = none ∧ u.owner = none ∧
        u.fd.buf = p ∧ u.fd.cur = a ∧ u.fd.state = .faulted ∧ u.lastCause = r.cause ∧ u.raised = s.raised ++ [r] ∧
        { u with fd := s.fd, ret := s.ret, lastCause := s.lastCause, raised := s.raised } = s) ∧
    (payloadOperand s src = none → exec (.decodeFields src schema) s =
      .next { s with ret := none, lastCause := .fdNotLoaded, raised := s.raised ++ [.fdNotLoaded] })

/-- R141 (a) to (e). -/
def Obligations.FieldDecoderLaws : Prop :=
  (∀ (p : Payload) (n : Nat) (ds : List Byte) (vs : List FieldValue) (s : State), n ≤ 8 →
    (fields ds (loadFd p n s)).2 = some vs →
    (fields ds (loadFd p n s)).1.fd.cur = n + (ds.map fun d => 1 <<< (d.toNat % 4)).sum) ∧
  (∀ (d : Byte) (s t : State), s.fd.state = .loaded → t.fd.state = .loaded → s.fd.cur = t.fd.cur →
    (∀ k, k < 1 <<< (d.toNat % 4) → byteNum s.fd.buf (s.fd.cur + k) = byteNum t.fd.buf (s.fd.cur + k)) →
    (field d s).2 = (field d t).2) ∧
  (∀ (p : Payload) (n : Nat) (ds : List Byte) (s t : State),
    (fields ds (loadFd p n s)).2 = (fields ds (loadFd p n t)).2) ∧
  (∀ (p : Payload) (a : Nat) (s : State), a + 4 ≤ 8 → ∃ h l : Int,
    (fields [0x01, 0x01] (loadFd p a s)).2 = some [.num h, .num l] ∧
    (fields [0x02] (loadFd p a s)).2 = some [.num (65536 * h + l)]) ∧
  (∀ (d : Byte) (w : Nat) (s : State) (v : FieldValue), w = 1 <<< (d.toNat % 4) → (field d s).2 = some v →
    match v with
    | .num z => z % 2 ^ (8 * w) = bigEndianAt s.fd.buf s.fd.cur w
    | .truth b => (b = true ↔ bigEndianAt s.fd.buf s.fd.cur w ≠ 0))

/-! ## Measurement Interpreters (44_interpreters.md) -/

/-- R151 to R154: what GET_SOC, the two range interpreters and GET_MOSFET_STATUS return for an exchange whose first payload is
`p`, whatever answers came before it. Signed fields are two's complement (log entry 10, PRESUMED). -/
def Obligations.SingleFrameResults : Prop :=
  ∀ (s : State) (e : Episode) (p : Payload),
    (firstReply .soc s e p → interpReturns .soc s e p (.map
      [(.totalVoltage, .num (256 * byteNum p 0 + byteNum p 1)),
       (.current, .num (256 * byteNum p 4 + byteNum p 5 - 30000)),
       (.socPercent, .num (256 * byteNum p 6 + byteNum p 7))]) s.dev 8) ∧
    (firstReply .cellVoltageRange s e p → interpReturns .cellVoltageRange s e p (.map
      [(.highestVoltage, .quot (signedNum 16 (256 * byteNum p 0 + byteNum p 1)) 1000), (.highestCell, .num (byteNum p 2)),
       (.lowestVoltage, .quot (signedNum 16 (256 * byteNum p 3 + byteNum p 4)) 1000), (.lowestCell, .num (byteNum p 5))])
      s.dev 6) ∧
    (firstReply .temperatureRange s e p → interpReturns .temperatureRange s e p (.map
      [(.highestTemperature, .num (signedNum 8 (byteNum p 0) - 40)), (.highestSensor, .num (signedNum 8 (byteNum p 1))),
       (.lowestTemperature, .num (signedNum 8 (byteNum p 2) - 40)), (.lowestSensor, .num (signedNum 8 (byteNum p 3)))])
      s.dev 4) ∧
    (firstReply .mosfetStatus s e p → interpReturns .mosfetStatus s e p (.map
      [(.bmsState, .num (signedNum 8 (byteNum p 0))), (.chargingMosfet, .truth (byteNum p 1 != 0)),
       (.dischargingMosfet, .truth (byteNum p 2 != 0)), (.bmsLife, .num (byteNum p 3)),
       (.capacityAh, .quot (signedNum 32 (2 ^ 24 * byteNum p 4 + 2 ^ 16 * byteNum p 5 + 2 ^ 8 * byteNum p 6 + byteNum p 7))
         1000)]) s.dev 8)

/-- R155, 10 R28: GET_STATUS returns the four bytes of its exchange's first payload and stores the first two into CELLS and
SENSORS. -/
def Obligations.StatusResultSetsCounts : Prop :=
  ∀ (s : State) (e : Episode) (p : Payload), firstReply .status s e p →
    interpReturns .status s e p (.map
      [(.cells, .num (byteNum p 0)), (.temperatureSensors, .num (byteNum p 1)), (.chargerRunning, .num (byteNum p 2)),
       (.loadRunning, .num (byteNum p 3))]) ⟨p[0], p[1]⟩ 4

/-- R157, R158: the per-cell and per-sensor interpreters ask for `ceil(count / per_frame)` payloads and reassemble what their
exchange (as its pseudocode says) returned, whatever it returned. The items are two's complement (log entry 10, PRESUMED),
which of them are signed is the spec's own choice (92 D22). -/
def Obligations.MultiFrameResults : Prop :=
  ∀ (s : State) (e : Episode) (q : ExReq), Ready s →
    (q = ⟨s.cfg.cmdCellVoltages, [], (s.dev.cells.toNat + 2) / 3, s.cfg.interCommandDelay, s.cfg.readTimeout⟩ →
      e = exchangeSpec s.cfg.backoff q (requestFrame s.cfg q) s.cfg.retryCount s.link.oracle s.lastCause → e.ended = true →
      ∃ t n u, exec .getCellVoltages s = .next t ∧ events n t = u ∧
        u.ret = some (.measurement (.map (reassembleSpec .voltages s.dev.cells.toNat e.got))) ∧ u.dev = s.dev ∧
        episodeReturned (.interp .cellVoltages) s u q e) ∧
    (q = ⟨s.cfg.cmdTemperatures, [], (s.dev.sensors.toNat + 6) / 7, s.cfg.interCommandDelay, s.cfg.readTimeout⟩ →
      e = exchangeSpec s.cfg.backoff q (requestFrame s.cfg q) s.cfg.retryCount s.link.oracle s.lastCause → e.ended = true →
      ∃ t n u, exec .getTemperatures s = .next t ∧ events n t = u ∧
        u.ret = some (.measurement (.map (reassembleSpec .temperatures s.dev.sensors.toNat e.got))) ∧ u.dev = s.dev ∧
        episodeReturned (.interp .temperatures) s u q e)

/-- R156: items are numbered from 1 in the order of acceptance over the frames that are not padding, up to the count; only the
field decoder is used, each strobe an event (70 R221; log entry 6). The items are two's complement (log entry 10, PRESUMED; 92
D22), and the count is the one that the two interpreters pass (log entry 28). -/
def Obligations.ReassembleNumbersInOrder : Prop :=
  ∀ (s : State) (ps : List Payload) (k : Series), engaged s = false →
    ∃ t n u, exec (.reassemble ps k) s = .next t ∧ events n t = u ∧
      u.ret = some (.measurement (.map (reassembleSpec k
        (match k with
          | .voltages => s.dev.cells.toNat
          | .temperatures => s.dev.sensors.toNat) ps))) ∧
      { u with fd := s.fd, ret := s.ret } = s

/-- R159, R160: the 48 balancing flags, bit `i % 8` of byte `5 - i / 8` for cell `i + 1`; the fault strings of the set bits of
the 57 table entries in ascending order, for an exchange whose first payload is `p`. That GET_FAULT_CODES leaves the field
decoder as a decode of eight `u8` fields leaves it is the model's reading (log entry 20). -/
def Obligations.BitmapResults : Prop :=
  ∀ (s : State) (e : Episode) (p : Payload),
    (firstReply .balancingStatus s e p → interpReturns .balancingStatus s e p (.map ((List.range 48).map fun i =>
      (.item (i + 1), .truth ((p.toList.getD (5 - i / 8) 0).getLsbD (i % 8))))) s.dev 6) ∧
    (firstReply .faultCodes s e p → interpReturns .faultCodes s e p (.faults ((List.range 57).filterMap fun n =>
      if (p.toList.getD (n / 8) 0).getLsbD (n % 8) then FaultTable.entry s.cfg.faultTable (n / 8) (n % 8) else none))
      s.dev 8)

/-- R150 (2), R155: an interpreter whose exchange returned no payload returns the empty result and changes neither the Device
State nor the field decoder. -/
def Obligations.EmptyExchangeIsEmptyResult : Prop :=
  ∀ (k : Interp) (s : State) (q : ExReq) (e : Episode), Ready s →
    q = ⟨interpCommand s.cfg k, [], interpResponses s.dev k, s.cfg.interCommandDelay, s.cfg.readTimeout⟩ →
    e = exchangeSpec s.cfg.backoff q (requestFrame s.cfg q) s.cfg.retryCount s.link.oracle s.lastCause →
    e.ended = true → e.got = [] →
    ∃ t n u, exec (interpInstr k) s = .next t ∧ events n t = u ∧ u.ret = some (.measurement (.map [])) ∧ u.dev = s.dev ∧
      u.fd = s.fd ∧ u.lastCause = .exRetriesExhausted ∧ episodeReturned (.interp k) s u q e

/-- R162: with a count of zero the request is still sent on each attempt, nothing is read, and the result is empty. -/
def Obligations.ZeroCountsSendAndReturnEmpty : Prop :=
  ∀ (i : Instr) (c : Byte) (s : State), Ready s →
    (i = .getCellVoltages ∧ c = s.cfg.cmdCellVoltages ∧ s.dev.cells = 0 ∨
      i = .getTemperatures ∧ c = s.cfg.cmdTemperatures ∧ s.dev.sensors = 0) →
    ∃ t n u, exec i s = .next t ∧ events n t = u ∧ u.ret = some (.measurement (.map [])) ∧ u.owner = none ∧
      u.lastCause = .exRetriesExhausted ∧ u.link.oracle = s.link.oracle ∧ u.dev = s.dev ∧ u.fd = s.fd ∧
      u.cfg = s.cfg ∧ u.agenda = s.agenda ∧
      (∃ es, u.link.history = s.link.history ++ es ∧ ∀ d r, .read d r ∉ es) ∧
      u.link.sent = s.link.sent ++ (List.replicate s.cfg.retryCount
        (sealFrame 0xA5 s.cfg.addr c 0x08 (padPayload [])).toList).flatten
end

