-- ==== Sys2Proof/Laws/Bytes.lean ====
section
/-! SUPPORT. The checksum by the shape of its sequence, and the bytes of frames and payloads as lists. -/

namespace Sys2Proof.Machine

theorem checksum_nil : checksum [] = 0 := rfl

/-- Addition modulo CSUM_MOD is the addition of bytes. -/
theorem addByte_eq (a b : Byte) : addByte a b = a + b := by
  apply BitVec.eq_of_toNat_eq
  simp [addByte, csumMod]

theorem foldl_add_start (b : List Byte) (k : Byte) : b.foldl addByte k = k + b.foldl addByte 0 := by
  induction b generalizing k with
  | nil => simp
  | cons x b ih => rw [List.foldl_cons, List.foldl_cons, ih (addByte k x), ih (addByte 0 x)]; simp [addByte_eq, BitVec.add_assoc]

theorem checksum_cons (x : Byte) (b : List Byte) : checksum (x :: b) = x + checksum b := by
  unfold checksum
  rw [List.foldl_cons, foldl_add_start]
  simp [addByte_eq]

theorem checksum_append (x y : List Byte) : checksum (x ++ y) = checksum x + checksum y := by
  induction x with
  | nil => simp [checksum_nil]
  | cons a x ih => rw [List.cons_append, checksum_cons, checksum_cons, ih, BitVec.add_assoc]

theorem verifyChecksum_append_singleton (b : List Byte) (k : Byte) : verifyChecksum (b ++ [k]) = (checksum b == k) := by
  simp [verifyChecksum]

/-- A vector of eight bytes is its eight elements. -/
theorem payload_eta (p : Payload) : p = #v[p[0], p[1], p[2], p[3], p[4], p[5], p[6], p[7]] := by
  apply Vector.ext
  intro i hi
  have : i < 8 := hi
  interval_cases i <;> rfl

/-- A vector of thirteen bytes is its thirteen elements. -/
theorem frame_eta (f : Frame) :
    f = #v[f[0], f[1], f[2], f[3], f[4], f[5], f[6], f[7], f[8], f[9], f[10], f[11], f[12]] := by
  apply Vector.ext
  intro i hi
  have : i < 13 := hi
  interval_cases i <;> rfl

theorem payload_toList (p : Payload) : p.toList = [p[0], p[1], p[2], p[3], p[4], p[5], p[6], p[7]] := by
  conv => lhs; rw [payload_eta p]
  rfl

theorem frame_toList (f : Frame) :
    f.toList = [f[0], f[1], f[2], f[3], f[4], f[5], f[6], f[7], f[8], f[9], f[10], f[11], f[12]] := by
  conv => lhs; rw [frame_eta f]
  rfl

theorem frameOf_toList (f : Frame) : frameOf f.toList = f := by
  conv => rhs; rw [frame_eta f]
  rw [frame_toList]
  rfl

/-- Byte `i` of a payload, read as `byteNum` reads it. -/
theorem byteNum_eq (p : Payload) (i : Nat) (h : i < 8) : byteNum p i = (p[i].toNat : Int) := by
  have hl : i < p.toList.length := by simpa using h
  rw [byteNum, List.getD_eq_getElem _ _ hl]
  simp

/-- Byte 2 of a frame, whose checksum verifies exactly when byte 12 is the sum of the twelve before it. -/
theorem verifyChecksum_frame (f : Frame) : verifyChecksum f.toList = (checksum (f.toList.take 12) == f[12]) := by
  have h : f.toList = f.toList.take 12 ++ [f[12]] := by rw [frame_toList]; rfl
  conv => lhs; rw [h]
  rw [verifyChecksum_append_singleton]

/-- A padded payload by its bytes (30 R62). -/
theorem padPayload_eq (x : List Byte) : padPayload x =
    #v[x.getD 0 0, x.getD 1 0, x.getD 2 0, x.getD 3 0, x.getD 4 0, x.getD 5 0, x.getD 6 0, x.getD 7 0] := by
  apply Vector.ext
  intro i hi
  have : i < 8 := hi
  simp only [padPayload, Vector.getElem_ofFn]
  interval_cases i <;> rfl

theorem padPayload_toList (x : List Byte) (h : x.length ≤ 8) :
    (padPayload x).toList = x ++ List.replicate (8 - x.length) 0 := by
  rw [padPayload_eq]
  rcases x with _ | ⟨a, _ | ⟨b, _ | ⟨c, _ | ⟨d, _ | ⟨e, _ | ⟨f, _ | ⟨g, _ | ⟨i, _ | ⟨j, x⟩⟩⟩⟩⟩⟩⟩⟩⟩ <;>
    first
    | rfl
    | (simp at h; omega)

/-- The payload of a frame is its bytes 4 to 11 (20 R41). -/
theorem framePayload_eq (f : Frame) : framePayload f = #v[f[4], f[5], f[6], f[7], f[8], f[9], f[10], f[11]] := by
  apply Vector.ext
  intro i hi
  have : i < 8 := hi
  simp only [framePayload, Vector.getElem_ofFn]
  rw [frame_toList f]
  interval_cases i <;> rfl

/-- A frame of six fields by its bytes (30 R60). -/
theorem wireFrame_eq (start addr cmd len : Byte) (p : Payload) (k : Byte) : wireFrame start addr cmd len p k =
    #v[start, addr, cmd, len, p[0], p[1], p[2], p[3], p[4], p[5], p[6], p[7], k] := by
  apply Vector.ext
  intro i hi
  have : i < 13 := hi
  simp only [wireFrame, Vector.getElem_ofFn]
  rw [payload_toList p]
  interval_cases i <;> rfl

theorem wireFrame_toList (start addr cmd len : Byte) (p : Payload) (k : Byte) :
    (wireFrame start addr cmd len p k).toList = wireBytes start addr cmd len p k := by
  rw [wireFrame_eq, wireBytes, payload_toList p]
  rfl

/-- FRAME_LEN = HEADER_LEN + PAYLOAD_LEN + CSUM_LEN, and the offsets that follow from it (00_scope.md R5). -/
theorem frameLen_identity : frameLen = headerLen + payloadLen + csumLen ∧ offCsum = frameLen - csumLen ∧
    balanceBits = 8 * balanceBytes := by decide

end Sys2Proof.Machine
end

