-- ==== Sys2Proof/Laws/State.lean ====
section
/-! SUPPORT. One lemma for each field of State and each update of Machine/Ops.lean and Machine/Sequencer.lean, so that no proof
unfolds a record update. -/

namespace Sys2Proof.Machine

/-! `recordCause` -/
@[simp] theorem recordCause_cfg (r : Raise) (s : State) : (recordCause r s).cfg = s.cfg := rfl
@[simp] theorem recordCause_tx (r : Raise) (s : State) : (recordCause r s).tx = s.tx := rfl
@[simp] theorem recordCause_rx (r : Raise) (s : State) : (recordCause r s).rx = s.rx := rfl
@[simp] theorem recordCause_fd (r : Raise) (s : State) : (recordCause r s).fd = s.fd := rfl
@[simp] theorem recordCause_lastCause (r : Raise) (s : State) : (recordCause r s).lastCause = r.cause := rfl
@[simp] theorem recordCause_ex (r : Raise) (s : State) : (recordCause r s).ex = s.ex := rfl
@[simp] theorem recordCause_dev (r : Raise) (s : State) : (recordCause r s).dev = s.dev := rfl
@[simp] theorem recordCause_link (r : Raise) (s : State) : (recordCause r s).link = s.link := rfl
@[simp] theorem recordCause_raised (r : Raise) (s : State) : (recordCause r s).raised = s.raised ++ [r] := rfl
@[simp] theorem recordCause_ret (r : Raise) (s : State) : (recordCause r s).ret = s.ret := rfl
@[simp] theorem recordCause_owner (r : Raise) (s : State) : (recordCause r s).owner = s.owner := rfl
@[simp] theorem recordCause_agenda (r : Raise) (s : State) : (recordCause r s).agenda = s.agenda := rfl

/-! `setRxState` -/
@[simp] theorem setRxState_cfg (x : RxState) (s : State) : (setRxState x s).cfg = s.cfg := rfl
@[simp] theorem setRxState_tx (x : RxState) (s : State) : (setRxState x s).tx = s.tx := rfl
@[simp] theorem setRxState_rx (x : RxState) (s : State) : (setRxState x s).rx = { s.rx with state := x } := rfl
@[simp] theorem setRxState_fd (x : RxState) (s : State) : (setRxState x s).fd = s.fd := rfl
@[simp] theorem setRxState_lastCause (x : RxState) (s : State) : (setRxState x s).lastCause = s.lastCause := rfl
@[simp] theorem setRxState_ex (x : RxState) (s : State) : (setRxState x s).ex = s.ex := rfl
@[simp] theorem setRxState_dev (x : RxState) (s : State) : (setRxState x s).dev = s.dev := rfl
@[simp] theorem setRxState_link (x : RxState) (s : State) : (setRxState x s).link = s.link := rfl
@[simp] theorem setRxState_raised (x : RxState) (s : State) : (setRxState x s).raised = s.raised := rfl
@[simp] theorem setRxState_ret (x : RxState) (s : State) : (setRxState x s).ret = s.ret := rfl
@[simp] theorem setRxState_owner (x : RxState) (s : State) : (setRxState x s).owner = s.owner := rfl
@[simp] theorem setRxState_agenda (x : RxState) (s : State) : (setRxState x s).agenda = s.agenda := rfl

/-! `setFdState` -/
@[simp] theorem setFdState_cfg (x : FdState) (s : State) : (setFdState x s).cfg = s.cfg := rfl
@[simp] theorem setFdState_tx (x : FdState) (s : State) : (setFdState x s).tx = s.tx := rfl
@[simp] theorem setFdState_rx (x : FdState) (s : State) : (setFdState x s).rx = s.rx := rfl
@[simp] theorem setFdState_fd (x : FdState) (s : State) : (setFdState x s).fd = { s.fd with state := x } := rfl
@[simp] theorem setFdState_lastCause (x : FdState) (s : State) : (setFdState x s).lastCause = s.lastCause := rfl
@[simp] theorem setFdState_ex (x : FdState) (s : State) : (setFdState x s).ex = s.ex := rfl
@[simp] theorem setFdState_dev (x : FdState) (s : State) : (setFdState x s).dev = s.dev := rfl
@[simp] theorem setFdState_link (x : FdState) (s : State) : (setFdState x s).link = s.link := rfl
@[simp] theorem setFdState_raised (x : FdState) (s : State) : (setFdState x s).raised = s.raised := rfl
@[simp] theorem setFdState_ret (x : FdState) (s : State) : (setFdState x s).ret = s.ret := rfl
@[simp] theorem setFdState_owner (x : FdState) (s : State) : (setFdState x s).owner = s.owner := rfl
@[simp] theorem setFdState_agenda (x : FdState) (s : State) : (setFdState x s).agenda = s.agenda := rfl

/-! `closeExchange` -/
@[simp] theorem closeExchange_cfg (s : State) : (closeExchange s).cfg = s.cfg := rfl
@[simp] theorem closeExchange_tx (s : State) : (closeExchange s).tx = s.tx := rfl
@[simp] theorem closeExchange_rx (s : State) : (closeExchange s).rx = s.rx := rfl
@[simp] theorem closeExchange_fd (s : State) : (closeExchange s).fd = s.fd := rfl
@[simp] theorem closeExchange_lastCause (s : State) : (closeExchange s).lastCause = s.lastCause := rfl
@[simp] theorem closeExchange_ex (s : State) : (closeExchange s).ex = { s.ex with state := .idle, attempt := 0 } := rfl
@[simp] theorem closeExchange_dev (s : State) : (closeExchange s).dev = s.dev := rfl
@[simp] theorem closeExchange_link (s : State) : (closeExchange s).link = s.link := rfl
@[simp] theorem closeExchange_raised (s : State) : (closeExchange s).raised = s.raised := rfl
@[simp] theorem closeExchange_ret (s : State) : (closeExchange s).ret = s.ret := rfl
@[simp] theorem closeExchange_owner (s : State) : (closeExchange s).owner = s.owner := rfl
@[simp] theorem closeExchange_agenda (s : State) : (closeExchange s).agenda = s.agenda := rfl

/-! `setRet` -/
@[simp] theorem setRet_cfg (v : Option Value) (s : State) : (setRet v s).cfg = s.cfg := rfl
@[simp] theorem setRet_tx (v : Option Value) (s : State) : (setRet v s).tx = s.tx := rfl
@[simp] theorem setRet_rx (v : Option Value) (s : State) : (setRet v s).rx = s.rx := rfl
@[simp] theorem setRet_fd (v : Option Value) (s : State) : (setRet v s).fd = s.fd := rfl
@[simp] theorem setRet_lastCause (v : Option Value) (s : State) : (setRet v s).lastCause = s.lastCause := rfl
@[simp] theorem setRet_ex (v : Option Value) (s : State) : (setRet v s).ex = s.ex := rfl
@[simp] theorem setRet_dev (v : Option Value) (s : State) : (setRet v s).dev = s.dev := rfl
@[simp] theorem setRet_link (v : Option Value) (s : State) : (setRet v s).link = s.link := rfl
@[simp] theorem setRet_raised (v : Option Value) (s : State) : (setRet v s).raised = s.raised := rfl
@[simp] theorem setRet_ret (v : Option Value) (s : State) : (setRet v s).ret = v := rfl
@[simp] theorem setRet_owner (v : Option Value) (s : State) : (setRet v s).owner = s.owner := rfl
@[simp] theorem setRet_agenda (v : Option Value) (s : State) : (setRet v s).agenda = s.agenda := rfl

/-! `setOwner` -/
@[simp] theorem setOwner_cfg (c : Option Wait) (s : State) : (setOwner c s).cfg = s.cfg := rfl
@[simp] theorem setOwner_tx (c : Option Wait) (s : State) : (setOwner c s).tx = s.tx := rfl
@[simp] theorem setOwner_rx (c : Option Wait) (s : State) : (setOwner c s).rx = s.rx := rfl
@[simp] theorem setOwner_fd (c : Option Wait) (s : State) : (setOwner c s).fd = s.fd := rfl
@[simp] theorem setOwner_lastCause (c : Option Wait) (s : State) : (setOwner c s).lastCause = s.lastCause := rfl
@[simp] theorem setOwner_ex (c : Option Wait) (s : State) : (setOwner c s).ex = s.ex := rfl
@[simp] theorem setOwner_dev (c : Option Wait) (s : State) : (setOwner c s).dev = s.dev := rfl
@[simp] theorem setOwner_link (c : Option Wait) (s : State) : (setOwner c s).link = s.link := rfl
@[simp] theorem setOwner_raised (c : Option Wait) (s : State) : (setOwner c s).raised = s.raised := rfl
@[simp] theorem setOwner_ret (c : Option Wait) (s : State) : (setOwner c s).ret = s.ret := rfl
@[simp] theorem setOwner_owner (c : Option Wait) (s : State) : (setOwner c s).owner = c := rfl
@[simp] theorem setOwner_agenda (c : Option Wait) (s : State) : (setOwner c s).agenda = s.agenda := rfl

/-! `record` -/
@[simp] theorem record_cfg (e : LinkEvent) (s : State) : (record e s).cfg = s.cfg := rfl
@[simp] theorem record_tx (e : LinkEvent) (s : State) : (record e s).tx = s.tx := rfl
@[simp] theorem record_rx (e : LinkEvent) (s : State) : (record e s).rx = s.rx := rfl
@[simp] theorem record_fd (e : LinkEvent) (s : State) : (record e s).fd = s.fd := rfl
@[simp] theorem record_lastCause (e : LinkEvent) (s : State) : (record e s).lastCause = s.lastCause := rfl
@[simp] theorem record_ex (e : LinkEvent) (s : State) : (record e s).ex = s.ex := rfl
@[simp] theorem record_dev (e : LinkEvent) (s : State) : (record e s).dev = s.dev := rfl
@[simp] theorem record_link (e : LinkEvent) (s : State) :
    (record e s).link =
      { s.link with history := s.link.history ++ [e] } := rfl
@[simp] theorem record_raised (e : LinkEvent) (s : State) : (record e s).raised = s.raised := rfl
@[simp] theorem record_ret (e : LinkEvent) (s : State) : (record e s).ret = s.ret := rfl
@[simp] theorem record_owner (e : LinkEvent) (s : State) : (record e s).owner = s.owner := rfl
@[simp] theorem record_agenda (e : LinkEvent) (s : State) : (record e s).agenda = s.agenda := rfl

/-! `setBuffered` -/
@[simp] theorem setBuffered_cfg (b : List Byte) (s : State) : (setBuffered b s).cfg = s.cfg := rfl
@[simp] theorem setBuffered_tx (b : List Byte) (s : State) : (setBuffered b s).tx = s.tx := rfl
@[simp] theorem setBuffered_rx (b : List Byte) (s : State) : (setBuffered b s).rx = s.rx := rfl
@[simp] theorem setBuffered_fd (b : List Byte) (s : State) : (setBuffered b s).fd = s.fd := rfl
@[simp] theorem setBuffered_lastCause (b : List Byte) (s : State) : (setBuffered b s).lastCause = s.lastCause := rfl
@[simp] theorem setBuffered_ex (b : List Byte) (s : State) : (setBuffered b s).ex = s.ex := rfl
@[simp] theorem setBuffered_dev (b : List Byte) (s : State) : (setBuffered b s).dev = s.dev := rfl
@[simp] theorem setBuffered_link (b : List Byte) (s : State) :
    (setBuffered b s).link =
      { s.link with buffered := b } := rfl
@[simp] theorem setBuffered_raised (b : List Byte) (s : State) : (setBuffered b s).raised = s.raised := rfl
@[simp] theorem setBuffered_ret (b : List Byte) (s : State) : (setBuffered b s).ret = s.ret := rfl
@[simp] theorem setBuffered_owner (b : List Byte) (s : State) : (setBuffered b s).owner = s.owner := rfl
@[simp] theorem setBuffered_agenda (b : List Byte) (s : State) : (setBuffered b s).agenda = s.agenda := rfl

/-! `bufferBytes` -/
@[simp] theorem bufferBytes_cfg (b : List Byte) (s : State) : (bufferBytes b s).cfg = s.cfg := rfl
@[simp] theorem bufferBytes_tx (b : List Byte) (s : State) : (bufferBytes b s).tx = s.tx := rfl
@[simp] theorem bufferBytes_rx (b : List Byte) (s : State) : (bufferBytes b s).rx = s.rx := rfl
@[simp] theorem bufferBytes_fd (b : List Byte) (s : State) : (bufferBytes b s).fd = s.fd := rfl
@[simp] theorem bufferBytes_lastCause (b : List Byte) (s : State) : (bufferBytes b s).lastCause = s.lastCause := rfl
@[simp] theorem bufferBytes_ex (b : List Byte) (s : State) : (bufferBytes b s).ex = s.ex := rfl
@[simp] theorem bufferBytes_dev (b : List Byte) (s : State) : (bufferBytes b s).dev = s.dev := rfl
@[simp] theorem bufferBytes_link (b : List Byte) (s : State) :
    (bufferBytes b s).link =
      { s.link with buffered := s.link.buffered ++ b } := rfl
@[simp] theorem bufferBytes_raised (b : List Byte) (s : State) : (bufferBytes b s).raised = s.raised := rfl
@[simp] theorem bufferBytes_ret (b : List Byte) (s : State) : (bufferBytes b s).ret = s.ret := rfl
@[simp] theorem bufferBytes_owner (b : List Byte) (s : State) : (bufferBytes b s).owner = s.owner := rfl
@[simp] theorem bufferBytes_agenda (b : List Byte) (s : State) : (bufferBytes b s).agenda = s.agenda := rfl

/-! `flushLink` -/
@[simp] theorem flushLink_cfg (s : State) : (flushLink s).cfg = s.cfg := rfl
@[simp] theorem flushLink_tx (s : State) : (flushLink s).tx = s.tx := rfl
@[simp] theorem flushLink_rx (s : State) : (flushLink s).rx = s.rx := rfl
@[simp] theorem flushLink_fd (s : State) : (flushLink s).fd = s.fd := rfl
@[simp] theorem flushLink_lastCause (s : State) : (flushLink s).lastCause = s.lastCause := rfl
@[simp] theorem flushLink_ex (s : State) : (flushLink s).ex = s.ex := rfl
@[simp] theorem flushLink_dev (s : State) : (flushLink s).dev = s.dev := rfl
@[simp] theorem flushLink_link (s : State) :
    (flushLink s).link =
      { s.link with buffered := [], history := s.link.history ++ [.flush] } := rfl
@[simp] theorem flushLink_raised (s : State) : (flushLink s).raised = s.raised := rfl
@[simp] theorem flushLink_ret (s : State) : (flushLink s).ret = s.ret := rfl
@[simp] theorem flushLink_owner (s : State) : (flushLink s).owner = s.owner := rfl
@[simp] theorem flushLink_agenda (s : State) : (flushLink s).agenda = s.agenda := rfl

/-! `loadTx` -/
@[simp] theorem loadTx_cfg (f : Frame) (s : State) : (loadTx f s).cfg = s.cfg := rfl
@[simp] theorem loadTx_tx (f : Frame) (s : State) : (loadTx f s).tx = ⟨f, 0, .sending⟩ := rfl
@[simp] theorem loadTx_rx (f : Frame) (s : State) : (loadTx f s).rx = s.rx := rfl
@[simp] theorem loadTx_fd (f : Frame) (s : State) : (loadTx f s).fd = s.fd := rfl
@[simp] theorem loadTx_lastCause (f : Frame) (s : State) : (loadTx f s).lastCause = s.lastCause := rfl
@[simp] theorem loadTx_ex (f : Frame) (s : State) : (loadTx f s).ex = s.ex := rfl
@[simp] theorem loadTx_dev (f : Frame) (s : State) : (loadTx f s).dev = s.dev := rfl
@[simp] theorem loadTx_link (f : Frame) (s : State) : (loadTx f s).link = s.link := rfl
@[simp] theorem loadTx_raised (f : Frame) (s : State) : (loadTx f s).raised = s.raised := rfl
@[simp] theorem loadTx_ret (f : Frame) (s : State) : (loadTx f s).ret = s.ret := rfl
@[simp] theorem loadTx_owner (f : Frame) (s : State) : (loadTx f s).owner = s.owner := rfl
@[simp] theorem loadTx_agenda (f : Frame) (s : State) : (loadTx f s).agenda = s.agenda := rfl

/-! `sendByte` -/
@[simp] theorem sendByte_cfg (s : State) : (sendByte s).cfg = s.cfg := rfl
@[simp] theorem sendByte_tx (s : State) :
    (sendByte s).tx =
      { s.tx with idx := s.tx.idx + 1, state := if s.tx.idx + 1 = frameLen then .idle else s.tx.state } := rfl
@[simp] theorem sendByte_rx (s : State) : (sendByte s).rx = s.rx := rfl
@[simp] theorem sendByte_fd (s : State) : (sendByte s).fd = s.fd := rfl
@[simp] theorem sendByte_lastCause (s : State) : (sendByte s).lastCause = s.lastCause := rfl
@[simp] theorem sendByte_ex (s : State) : (sendByte s).ex = s.ex := rfl
@[simp] theorem sendByte_dev (s : State) : (sendByte s).dev = s.dev := rfl
@[simp] theorem sendByte_link (s : State) :
    (sendByte s).link =
      { s.link with sent := s.link.sent ++ [txNext s], history := s.link.history ++ if s.tx.idx + 1 = frameLen then [.write s.tx.buf] else [] } := rfl
@[simp] theorem sendByte_raised (s : State) : (sendByte s).raised = s.raised := rfl
@[simp] theorem sendByte_ret (s : State) : (sendByte s).ret = s.ret := rfl
@[simp] theorem sendByte_owner (s : State) : (sendByte s).owner = s.owner := rfl
@[simp] theorem sendByte_agenda (s : State) : (sendByte s).agenda = s.agenda := rfl

/-! `armRx` -/
@[simp] theorem armRx_cfg (e : Byte) (s : State) : (armRx e s).cfg = s.cfg := rfl
@[simp] theorem armRx_tx (e : Byte) (s : State) : (armRx e s).tx = s.tx := rfl
@[simp] theorem armRx_rx (e : Byte) (s : State) : (armRx e s).rx = ⟨s.rx.buf, 0, 0, e, .receiving⟩ := rfl
@[simp] theorem armRx_fd (e : Byte) (s : State) : (armRx e s).fd = s.fd := rfl
@[simp] theorem armRx_lastCause (e : Byte) (s : State) : (armRx e s).lastCause = s.lastCause := rfl
@[simp] theorem armRx_ex (e : Byte) (s : State) : (armRx e s).ex = s.ex := rfl
@[simp] theorem armRx_dev (e : Byte) (s : State) : (armRx e s).dev = s.dev := rfl
@[simp] theorem armRx_link (e : Byte) (s : State) : (armRx e s).link = { s.link with answered := false } := rfl
@[simp] theorem armRx_raised (e : Byte) (s : State) : (armRx e s).raised = s.raised := rfl
@[simp] theorem armRx_ret (e : Byte) (s : State) : (armRx e s).ret = s.ret := rfl
@[simp] theorem armRx_owner (e : Byte) (s : State) : (armRx e s).owner = s.owner := rfl
@[simp] theorem armRx_agenda (e : Byte) (s : State) : (armRx e s).agenda = s.agenda := rfl

/-! `storeByte` -/
@[simp] theorem storeByte_cfg (b : Byte) (s : State) : (storeByte b s).cfg = s.cfg := rfl
@[simp] theorem storeByte_tx (b : Byte) (s : State) : (storeByte b s).tx = s.tx := rfl
@[simp] theorem storeByte_rx (b : Byte) (s : State) :
    (storeByte b s).rx =
      { s.rx with buf := s.rx.buf.setIfInBounds s.rx.idx b, sum := if s.rx.idx < offCsum then addByte s.rx.sum b else s.rx.sum, idx := s.rx.idx + 1 } := rfl
@[simp] theorem storeByte_fd (b : Byte) (s : State) : (storeByte b s).fd = s.fd := rfl
@[simp] theorem storeByte_lastCause (b : Byte) (s : State) : (storeByte b s).lastCause = s.lastCause := rfl
@[simp] theorem storeByte_ex (b : Byte) (s : State) : (storeByte b s).ex = s.ex := rfl
@[simp] theorem storeByte_dev (b : Byte) (s : State) : (storeByte b s).dev = s.dev := rfl
@[simp] theorem storeByte_link (b : Byte) (s : State) : (storeByte b s).link = s.link := rfl
@[simp] theorem storeByte_raised (b : Byte) (s : State) : (storeByte b s).raised = s.raised := rfl
@[simp] theorem storeByte_ret (b : Byte) (s : State) : (storeByte b s).ret = s.ret := rfl
@[simp] theorem storeByte_owner (b : Byte) (s : State) : (storeByte b s).owner = s.owner := rfl
@[simp] theorem storeByte_agenda (b : Byte) (s : State) : (storeByte b s).agenda = s.agenda := rfl

/-! `loadFd` -/
@[simp] theorem loadFd_cfg (p : Payload) (n : Nat) (s : State) : (loadFd p n s).cfg = s.cfg := rfl
@[simp] theorem loadFd_tx (p : Payload) (n : Nat) (s : State) : (loadFd p n s).tx = s.tx := rfl
@[simp] theorem loadFd_rx (p : Payload) (n : Nat) (s : State) : (loadFd p n s).rx = s.rx := rfl
@[simp] theorem loadFd_fd (p : Payload) (n : Nat) (s : State) :
    (loadFd p n s).fd =
      { s.fd with buf := p, cur := n, state := .loaded } := rfl
@[simp] theorem loadFd_lastCause (p : Payload) (n : Nat) (s : State) : (loadFd p n s).lastCause = s.lastCause := rfl
@[simp] theorem loadFd_ex (p : Payload) (n : Nat) (s : State) : (loadFd p n s).ex = s.ex := rfl
@[simp] theorem loadFd_dev (p : Payload) (n : Nat) (s : State) : (loadFd p n s).dev = s.dev := rfl
@[simp] theorem loadFd_link (p : Payload) (n : Nat) (s : State) : (loadFd p n s).link = s.link := rfl
@[simp] theorem loadFd_raised (p : Payload) (n : Nat) (s : State) : (loadFd p n s).raised = s.raised := rfl
@[simp] theorem loadFd_ret (p : Payload) (n : Nat) (s : State) : (loadFd p n s).ret = s.ret := rfl
@[simp] theorem loadFd_owner (p : Payload) (n : Nat) (s : State) : (loadFd p n s).owner = s.owner := rfl
@[simp] theorem loadFd_agenda (p : Payload) (n : Nat) (s : State) : (loadFd p n s).agenda = s.agenda := rfl

/-! `retireField` -/
@[simp] theorem retireField_cfg (d : Byte) (v : FieldValue) (w : Nat) (s : State) :
    (retireField d v w s).cfg =
      s.cfg := rfl
@[simp] theorem retireField_tx (d : Byte) (v : FieldValue) (w : Nat) (s : State) :
    (retireField d v w s).tx =
      s.tx := rfl
@[simp] theorem retireField_rx (d : Byte) (v : FieldValue) (w : Nat) (s : State) :
    (retireField d v w s).rx =
      s.rx := rfl
@[simp] theorem retireField_fd (d : Byte) (v : FieldValue) (w : Nat) (s : State) :
    (retireField d v w s).fd =
      { s.fd with val := fvalImage v, kind := d, cur := s.fd.cur + w } := rfl
@[simp] theorem retireField_lastCause (d : Byte) (v : FieldValue) (w : Nat) (s : State) :
    (retireField d v w s).lastCause =
      s.lastCause := rfl
@[simp] theorem retireField_ex (d : Byte) (v : FieldValue) (w : Nat) (s : State) :
    (retireField d v w s).ex =
      s.ex := rfl
@[simp] theorem retireField_dev (d : Byte) (v : FieldValue) (w : Nat) (s : State) :
    (retireField d v w s).dev =
      s.dev := rfl
@[simp] theorem retireField_link (d : Byte) (v : FieldValue) (w : Nat) (s : State) :
    (retireField d v w s).link =
      s.link := rfl
@[simp] theorem retireField_raised (d : Byte) (v : FieldValue) (w : Nat) (s : State) :
    (retireField d v w s).raised =
      s.raised := rfl
@[simp] theorem retireField_ret (d : Byte) (v : FieldValue) (w : Nat) (s : State) :
    (retireField d v w s).ret =
      s.ret := rfl
@[simp] theorem retireField_owner (d : Byte) (v : FieldValue) (w : Nat) (s : State) :
    (retireField d v w s).owner =
      s.owner := rfl
@[simp] theorem retireField_agenda (d : Byte) (v : FieldValue) (w : Nat) (s : State) :
    (retireField d v w s).agenda =
      s.agenda := rfl

/-! `setCounts` -/
@[simp] theorem setCounts_cfg (c n : Byte) (s : State) : (setCounts c n s).cfg = s.cfg := rfl
@[simp] theorem setCounts_tx (c n : Byte) (s : State) : (setCounts c n s).tx = s.tx := rfl
@[simp] theorem setCounts_rx (c n : Byte) (s : State) : (setCounts c n s).rx = s.rx := rfl
@[simp] theorem setCounts_fd (c n : Byte) (s : State) : (setCounts c n s).fd = s.fd := rfl
@[simp] theorem setCounts_lastCause (c n : Byte) (s : State) : (setCounts c n s).lastCause = s.lastCause := rfl
@[simp] theorem setCounts_ex (c n : Byte) (s : State) : (setCounts c n s).ex = s.ex := rfl
@[simp] theorem setCounts_dev (c n : Byte) (s : State) : (setCounts c n s).dev = ⟨c, n⟩ := rfl
@[simp] theorem setCounts_link (c n : Byte) (s : State) : (setCounts c n s).link = s.link := rfl
@[simp] theorem setCounts_raised (c n : Byte) (s : State) : (setCounts c n s).raised = s.raised := rfl
@[simp] theorem setCounts_ret (c n : Byte) (s : State) : (setCounts c n s).ret = s.ret := rfl
@[simp] theorem setCounts_owner (c n : Byte) (s : State) : (setCounts c n s).owner = s.owner := rfl
@[simp] theorem setCounts_agenda (c n : Byte) (s : State) : (setCounts c n s).agenda = s.agenda := rfl

/-! `setCollected` -/
@[simp] theorem setCollected_cfg (ps : List Payload) (s : State) : (setCollected ps s).cfg = s.cfg := rfl
@[simp] theorem setCollected_tx (ps : List Payload) (s : State) : (setCollected ps s).tx = s.tx := rfl
@[simp] theorem setCollected_rx (ps : List Payload) (s : State) : (setCollected ps s).rx = s.rx := rfl
@[simp] theorem setCollected_fd (ps : List Payload) (s : State) : (setCollected ps s).fd = s.fd := rfl
@[simp] theorem setCollected_lastCause (ps : List Payload) (s : State) :
    (setCollected ps s).lastCause =
      s.lastCause := rfl
@[simp] theorem setCollected_ex (ps : List Payload) (s : State) :
    (setCollected ps s).ex =
      { s.ex with collected := ps } := rfl
@[simp] theorem setCollected_dev (ps : List Payload) (s : State) : (setCollected ps s).dev = s.dev := rfl
@[simp] theorem setCollected_link (ps : List Payload) (s : State) : (setCollected ps s).link = s.link := rfl
@[simp] theorem setCollected_raised (ps : List Payload) (s : State) : (setCollected ps s).raised = s.raised := rfl
@[simp] theorem setCollected_ret (ps : List Payload) (s : State) : (setCollected ps s).ret = s.ret := rfl
@[simp] theorem setCollected_owner (ps : List Payload) (s : State) : (setCollected ps s).owner = s.owner := rfl
@[simp] theorem setCollected_agenda (ps : List Payload) (s : State) : (setCollected ps s).agenda = s.agenda := rfl

/-! `setAttempt` -/
@[simp] theorem setAttempt_cfg (n : Nat) (s : State) : (setAttempt n s).cfg = s.cfg := rfl
@[simp] theorem setAttempt_tx (n : Nat) (s : State) : (setAttempt n s).tx = s.tx := rfl
@[simp] theorem setAttempt_rx (n : Nat) (s : State) : (setAttempt n s).rx = s.rx := rfl
@[simp] theorem setAttempt_fd (n : Nat) (s : State) : (setAttempt n s).fd = s.fd := rfl
@[simp] theorem setAttempt_lastCause (n : Nat) (s : State) : (setAttempt n s).lastCause = s.lastCause := rfl
@[simp] theorem setAttempt_ex (n : Nat) (s : State) : (setAttempt n s).ex = { s.ex with attempt := n } := rfl
@[simp] theorem setAttempt_dev (n : Nat) (s : State) : (setAttempt n s).dev = s.dev := rfl
@[simp] theorem setAttempt_link (n : Nat) (s : State) : (setAttempt n s).link = s.link := rfl
@[simp] theorem setAttempt_raised (n : Nat) (s : State) : (setAttempt n s).raised = s.raised := rfl
@[simp] theorem setAttempt_ret (n : Nat) (s : State) : (setAttempt n s).ret = s.ret := rfl
@[simp] theorem setAttempt_owner (n : Nat) (s : State) : (setAttempt n s).owner = s.owner := rfl
@[simp] theorem setAttempt_agenda (n : Nat) (s : State) : (setAttempt n s).agenda = s.agenda := rfl

/-! `latchRequest` -/
@[simp] theorem latchRequest_cfg (q : ExReq) (s : State) : (latchRequest q s).cfg = s.cfg := rfl
@[simp] theorem latchRequest_tx (q : ExReq) (s : State) : (latchRequest q s).tx = s.tx := rfl
@[simp] theorem latchRequest_rx (q : ExReq) (s : State) : (latchRequest q s).rx = s.rx := rfl
@[simp] theorem latchRequest_fd (q : ExReq) (s : State) : (latchRequest q s).fd = s.fd := rfl
@[simp] theorem latchRequest_lastCause (q : ExReq) (s : State) : (latchRequest q s).lastCause = s.lastCause := rfl
@[simp] theorem latchRequest_ex (q : ExReq) (s : State) :
    (latchRequest q s).ex =
      { s.ex with req := q, state := .running } := rfl
@[simp] theorem latchRequest_dev (q : ExReq) (s : State) : (latchRequest q s).dev = s.dev := rfl
@[simp] theorem latchRequest_link (q : ExReq) (s : State) : (latchRequest q s).link = s.link := rfl
@[simp] theorem latchRequest_raised (q : ExReq) (s : State) : (latchRequest q s).raised = s.raised := rfl
@[simp] theorem latchRequest_ret (q : ExReq) (s : State) : (latchRequest q s).ret = s.ret := rfl
@[simp] theorem latchRequest_owner (q : ExReq) (s : State) : (latchRequest q s).owner = s.owner := rfl
@[simp] theorem latchRequest_agenda (q : ExReq) (s : State) : (latchRequest q s).agenda = s.agenda := rfl

/-! `waitFor` -/
@[simp] theorem waitFor_cfg (c : Call) (p : Phase) (s : State) : (waitFor c p s).cfg = s.cfg := rfl
@[simp] theorem waitFor_tx (c : Call) (p : Phase) (s : State) : (waitFor c p s).tx = s.tx := rfl
@[simp] theorem waitFor_rx (c : Call) (p : Phase) (s : State) : (waitFor c p s).rx = s.rx := rfl
@[simp] theorem waitFor_fd (c : Call) (p : Phase) (s : State) : (waitFor c p s).fd = s.fd := rfl
@[simp] theorem waitFor_lastCause (c : Call) (p : Phase) (s : State) : (waitFor c p s).lastCause = s.lastCause := rfl
@[simp] theorem waitFor_ex (c : Call) (p : Phase) (s : State) : (waitFor c p s).ex = s.ex := rfl
@[simp] theorem waitFor_dev (c : Call) (p : Phase) (s : State) : (waitFor c p s).dev = s.dev := rfl
@[simp] theorem waitFor_link (c : Call) (p : Phase) (s : State) : (waitFor c p s).link = s.link := rfl
@[simp] theorem waitFor_raised (c : Call) (p : Phase) (s : State) : (waitFor c p s).raised = s.raised := rfl
@[simp] theorem waitFor_ret (c : Call) (p : Phase) (s : State) : (waitFor c p s).ret = none := rfl
@[simp] theorem waitFor_owner (c : Call) (p : Phase) (s : State) : (waitFor c p s).owner = some ⟨c, p⟩ := rfl
@[simp] theorem waitFor_agenda (c : Call) (p : Phase) (s : State) : (waitFor c p s).agenda = s.agenda := rfl

/-! `returnCall` -/
@[simp] theorem returnCall_cfg (v : Option Value) (s : State) : (returnCall v s).cfg = s.cfg := rfl
@[simp] theorem returnCall_tx (v : Option Value) (s : State) : (returnCall v s).tx = s.tx := rfl
@[simp] theorem returnCall_rx (v : Option Value) (s : State) : (returnCall v s).rx = s.rx := rfl
@[simp] theorem returnCall_fd (v : Option Value) (s : State) : (returnCall v s).fd = s.fd := rfl
@[simp] theorem returnCall_lastCause (v : Option Value) (s : State) : (returnCall v s).lastCause = s.lastCause := rfl
@[simp] theorem returnCall_ex (v : Option Value) (s : State) : (returnCall v s).ex = s.ex := rfl
@[simp] theorem returnCall_dev (v : Option Value) (s : State) : (returnCall v s).dev = s.dev := rfl
@[simp] theorem returnCall_link (v : Option Value) (s : State) : (returnCall v s).link = s.link := rfl
@[simp] theorem returnCall_raised (v : Option Value) (s : State) : (returnCall v s).raised = s.raised := rfl
@[simp] theorem returnCall_ret (v : Option Value) (s : State) : (returnCall v s).ret = v := rfl
@[simp] theorem returnCall_owner (v : Option Value) (s : State) : (returnCall v s).owner = none := rfl
@[simp] theorem returnCall_agenda (v : Option Value) (s : State) : (returnCall v s).agenda = s.agenda := rfl

/-! `takeCause` (60_exceptions.md R186): what a cause writes, and what no cause writes. -/
@[simp] theorem takeCause_cfg (r : Raise) (s : State) : (takeCause r s).cfg = s.cfg := by cases r <;> rfl
@[simp] theorem takeCause_tx (r : Raise) (s : State) : (takeCause r s).tx = s.tx := by cases r <;> rfl
@[simp] theorem takeCause_dev (r : Raise) (s : State) : (takeCause r s).dev = s.dev := by cases r <;> rfl
@[simp] theorem takeCause_link (r : Raise) (s : State) : (takeCause r s).link = s.link := by cases r <;> rfl
@[simp] theorem takeCause_ret (r : Raise) (s : State) : (takeCause r s).ret = s.ret := by cases r <;> rfl
@[simp] theorem takeCause_owner (r : Raise) (s : State) : (takeCause r s).owner = s.owner := by cases r <;> rfl
@[simp] theorem takeCause_agenda (r : Raise) (s : State) : (takeCause r s).agenda = s.agenda := by cases r <;> rfl
@[simp] theorem takeCause_lastCause (r : Raise) (s : State) : (takeCause r s).lastCause = r.cause := by cases r <;> rfl
@[simp] theorem takeCause_raised (r : Raise) (s : State) : (takeCause r s).raised = s.raised ++ [r] := by cases r <;> rfl

end Sys2Proof.Machine
end

