-- ==== Sys2Proof/Laws/Ops.lean ====
section
/-! SUPPORT. What each shared operation of Machine/Ops.lean and Machine/FrameCodec.lean can do: the registers it may
change, and for the operations of a read the judgement it comes to (41_frame_codec.md R99, R100). -/

namespace Sys2Proof.Machine

/-- `t` is `s` but for the validator, LAST_CAUSE and the raises. -/
def RxOnly (s t : State) : Prop :=
  t = { s with rx := t.rx, lastCause := t.lastCause, raised := t.raised }

theorem RxOnly.refl (s : State) : RxOnly s s := rfl

theorem RxOnly.trans {s t u : State} (h : RxOnly s t) (k : RxOnly t u) : RxOnly s u := by
  unfold RxOnly at *
  rw [k]
  conv => lhs; rw [h]

theorem RxOnly.of_rx {s t : State} (h : t = { s with rx := t.rx }) : RxOnly s t := by
  unfold RxOnly
  rw [h]

theorem judgeFrame_rxOnly (s : State) : RxOnly s (judgeFrame s) := by
  unfold judgeFrame
  split
  · rfl
  · split <;> rfl

theorem takeByte_rxOnly (b : Byte) (s : State) : RxOnly s (takeByte b s) := by
  unfold takeByte
  split
  · exact RxOnly.trans (rfl : RxOnly s (storeByte b s)) (judgeFrame_rxOnly _)
  · rfl

theorem abortRx_rxOnly (s : State) : RxOnly s (abortRx s) := rfl

/-- A byte that leaves the frame incomplete is stored, summed and counted (R97). -/
theorem takeByte_short (b : Byte) (s : State) (h : s.rx.idx < 12) : takeByte b s =
    { s with rx := { s.rx with buf := s.rx.buf.setIfInBounds s.rx.idx b, sum := s.rx.sum + b, idx := s.rx.idx + 1 } } := by
  have hi : ¬ s.rx.idx + 1 = 13 := by omega
  simp [takeByte, frameLen, hi, storeByte, offCsum, h, addByte_eq]

/-- The byte that completes the frame is stored, not summed, and judged (R97). -/
theorem takeByte_last (b : Byte) (s : State) (hi : s.rx.idx = 12) : takeByte b s =
    judgeFrame { s with rx := { s.rx with buf := s.rx.buf.set 12 b, idx := 13 } } := by
  have e : s.rx.buf.setIfInBounds 12 b = s.rx.buf.set 12 b := by
    apply Vector.ext
    intro i h
    simp [Vector.getElem_setIfInBounds, Vector.getElem_set]
  simp [takeByte, hi, frameLen, storeByte, offCsum, e]

/-- The judgement of a complete buffer whose running sum is that of its first twelve bytes is VALIDATE's (R97, R100). -/
theorem judgeFrame_spec (s : State) (hs : s.rx.sum = checksum (s.rx.buf.toList.take 12)) :
    (judgeFrame s).rx.state = judgedState (validateFrame s.rx.buf s.rx.expect) ∧
    (judgeFrame s).lastCause = judgedCause s.lastCause (validateFrame s.rx.buf s.rx.expect) ∧
    (judgeFrame s).rx = { s.rx with state := (judgeFrame s).rx.state } := by
  unfold judgeFrame validateFrame
  by_cases h : s.rx.buf[2] = s.rx.expect
  · by_cases k : s.rx.buf[12] = s.rx.sum
    · have v : verifyChecksum s.rx.buf.toList = true := by rw [verifyChecksum_frame, ← hs, k]; simp
      simp [h, k, v, judgedState, judgedCause]
    · have v : verifyChecksum s.rx.buf.toList = false := by
        rw [verifyChecksum_frame, ← hs]
        simpa using fun e => k e.symm
      simp [h, k, v, judgedState, judgedCause, takeCause, Raise.cause]
  · simp [h, judgedState, judgedCause, takeCause, Raise.cause]

theorem judgeFrame_done (s : State) : rxBusy (judgeFrame s) = false := by
  unfold judgeFrame rxBusy
  split
  · rfl
  · split <;> rfl

theorem judgeFrame_isDone (s : State) : rxDone (judgeFrame s) = true := by
  unfold judgeFrame rxDone
  split
  · rfl
  · split <;> rfl

/-! ## Events (60 R190) -/

theorem events_add (n k : Nat) (s : State) : events (n + k) s = events k (events n s) := by
  induction n generalizing s with
  | zero => simp [events]
  | succ n ih => rw [Nat.add_right_comm]; exact ih _

/-- The owner waits where it stands at one of the places of `Phase.waits`, if it is in a call at all. -/
theorem ownerWaits_of {s : State} {p : Phase} (hp : p.waits = true) (h : ∀ w, s.owner = some w → w.phase = p) :
    ownerWaits s = true := by
  unfold ownerWaits
  split
  · rfl
  · rename_i w hw
    rw [h w hw, hp]

theorem environment_line {s : State} (h : ownerWaits s = true) : environment s = lineEvent s := by
  unfold ownerWaits at h
  unfold environment
  split
  · rfl
  · rename_i w hw
    rw [hw] at h
    simp only at h
    cases hp : w.phase <;> simp [hp, Phase.waits] at h ⊢

theorem environment_send {s : State} (hw : ownerWaits s = true) (h : s.tx.state = .sending) :
    environment s = settle (sendByte s) := by
  simp [environment_line hw, lineEvent, txBusy, h]

theorem environment_read {s : State} (hw : ownerWaits s = true) (h : s.tx.state = .idle) (k : s.rx.state = .receiving) :
    environment s = settle (receiveNext s) := by
  simp [environment_line hw, lineEvent, txBusy, rxBusy, h, k]

theorem environment_rest {s : State} (hw : ownerWaits s = true) (h : lineBusy s = false) : environment s = wake s := by
  simp only [lineBusy, Bool.or_eq_false_iff] at h
  simp [environment_line hw, lineEvent, h.1, h.2]

/-- A blocked call whose read is not done stays where it is. -/
theorem settle_reading {s : State} (h : ∀ w, s.owner = some w → w.phase = .collect) (k : s.rx.state = .receiving) :
    settle s = s := by
  unfold settle
  split
  · rfl
  · rename_i w hw
    simp [h w hw, rxDone, k, RxState.isDone]

/-- A blocked call whose frame is not sent stays where it is. -/
theorem settle_sending {s : State} (h : ∀ w, s.owner = some w → w.phase = .send) (k : s.tx.state = .sending) :
    settle s = s := by
  unfold settle
  split
  · rfl
  · rename_i w hw
    simp [h w hw, txBusy, k]

/-! ## The transmit side (41 R95, R99, 42 R111) -/

theorem getD_byte (f : Frame) (k : Nat) (h : k < 13) : f.toList.getD k 0 = f[k] := by
  have hl : k < f.toList.length := by simpa using h
  rw [List.getD_eq_getElem _ _ hl]
  simp

/-- The first bytes of a frame being sent (R95). -/
theorem events_sending (k : Nat) (s : State) (h : s.tx.state = .sending) (hk : s.tx.idx + k ≤ 12)
    (ho : ∀ w, s.owner = some w → w.phase = .send) :
    events k s = { s with
      tx := { s.tx with idx := s.tx.idx + k }
      link := { s.link with sent := s.link.sent ++ (s.tx.buf.toList.drop s.tx.idx).take k } } := by
  induction k generalizing s with
  | zero => simp [events]
  | succ k ih =>
    have hi : ¬ s.tx.idx + 1 = 13 := by omega
    have e : sendByte s = { s with
        tx := { s.tx with idx := s.tx.idx + 1 }
        link := { s.link with sent := s.link.sent ++ [txNext s] } } := by
      simp [sendByte, frameLen, hi]
    have hl : s.tx.idx < s.tx.buf.toList.length := by
      have : s.tx.buf.toList.length = 13 := by simp
      omega
    have e' : environment s = sendByte s := by
      rw [environment_send (ownerWaits_of rfl ho) h]
      exact settle_sending (s := sendByte s) ho (by rw [e]; exact h)
    rw [events, e', ih (sendByte s) (by rw [e]; exact h) (by rw [e]; simp only; omega) ho, e,
      List.drop_eq_getElem_cons hl]
    simp only [txNext, List.getD_eq_getElem _ _ hl]
    simp [Nat.add_assoc, Nat.add_comm 1]

/-- A loaded frame, sent whole: the thirteen events end with the owner's going on (R99, R111). -/
theorem events_sent (f : Frame) (s : State) (ho : ∀ w, s.owner = some w → w.phase = .send) :
    events 13 (loadTx f s) = settle { s with
      tx := ⟨f, 13, .idle⟩
      link := { s.link with sent := s.link.sent ++ f.toList, history := s.link.history ++ [.write f] } } := by
  rw [show 13 = 12 + 1 from rfl, events_add, events_sending 12 (loadTx f s) rfl (by simp) ho, events,
    environment_send (by exact ownerWaits_of (p := .send) rfl ho) rfl]
  show settle (sendByte _) = _
  congr 1
  have e : f.toList.take 12 ++ [f[12]] = f.toList := by rw [frame_toList f]; rfl
  simp only [sendByte, txNext, loadTx, frameLen, List.drop_zero, Nat.zero_add]
  rw [getD_byte f 12 (by omega), List.append_assoc, e]
  simp

/-! ## The receive side (41 R97, R98, R100) -/

/-- One byte the transport holds, that leaves the frame incomplete. -/
theorem environment_byte {s : State} {b : Byte} {r : List Byte} (ht : s.tx.state = .idle) (h : s.rx.state = .receiving)
    (hb : s.link.buffered = b :: r) (hi : s.rx.idx < 12) (ho : ∀ w, s.owner = some w → w.phase = .collect) :
    environment s = { s with
      rx := { s.rx with buf := s.rx.buf.setIfInBounds s.rx.idx b, sum := s.rx.sum + b, idx := s.rx.idx + 1 }
      link := { s.link with buffered := r } } := by
  have e : receiveNext s = takeByte b (setBuffered r s) := by simp [receiveNext, hb, feed]
  rw [environment_read (ownerWaits_of rfl ho) ht h, e, takeByte_short b (setBuffered r s) hi]
  exact settle_reading ho h

/-- Bytes the transport holds, too few for the frame, are stored, summed and counted (R97). -/
theorem events_bytes (r more : List Byte) (s : State) (ht : s.tx.state = .idle) (h : s.rx.state = .receiving)
    (hb : s.link.buffered = r ++ more) (hl : s.rx.idx + r.length ≤ 12) (ho : ∀ w, s.owner = some w → w.phase = .collect) :
    ∃ buf : Frame, events r.length s = { s with
        rx := { s.rx with buf := buf, idx := s.rx.idx + r.length, sum := s.rx.sum + checksum r }
        link := { s.link with buffered := more } } ∧
      buf.toList.take (s.rx.idx + r.length) = s.rx.buf.toList.take s.rx.idx ++ r := by
  induction r generalizing s with
  | nil =>
    refine ⟨s.rx.buf, ?_, by simp⟩
    obtain ⟨_, _, _, _, _, _, _, ⟨_, _, c, _, _, _⟩, _, _, _, _⟩ := s
    simp only [List.nil_append] at hb
    subst hb
    simp [events, checksum_nil]
  | cons b r ih =>
    simp only [List.length_cons] at hl
    have e := environment_byte ht h (by simpa using hb) (by omega) ho
    obtain ⟨buf, e', k⟩ := ih (environment s) (by rw [e]; exact ht) (by rw [e]; exact h) (by rw [e])
      (by rw [e]; simp only; omega) (by rw [e]; exact ho)
    refine ⟨buf, ?_, ?_⟩
    · show events r.length (environment s) = _
      rw [e', e]
      simp [checksum_cons, BitVec.add_assoc, Nat.add_assoc, Nat.add_comm 1]
    · rw [show s.rx.idx + (b :: r).length = (environment s).rx.idx + r.length by rw [e]; simp; omega, k, e]
      have hlen : s.rx.idx < s.rx.buf.toList.length := by
        have : s.rx.buf.toList.length = 13 := by simp
        omega
      simp only
      rw [Vector.toList_setIfInBounds, List.take_add_one, List.getElem?_set_self hlen]
      simp [List.take_set_of_le]

/-- The end of a read that `r` answers: what R100 says of the validator, whatever its buffer held before. -/
structure ReadEnd (r : List Byte) (s t : State) : Prop where
  only : t = { s with rx := t.rx, lastCause := t.lastCause, raised := t.raised, link := t.link }
  state : t.rx.state = judgedState (judgeAnswer r s.rx.expect)
  cause : t.lastCause = judgedCause s.lastCause (judgeAnswer r s.rx.expect)
  bytes : received t = r
  full : r.length = 13 → t.rx =
    ⟨frameOf r, 13, checksum (r.take 12), s.rx.expect, judgedState (judgeAnswer r s.rx.expect)⟩
  expect : t.rx.expect = s.rx.expect
  history : t.link.history = s.link.history
  sent : t.link.sent = s.link.sent
  draws : t.link.draws = s.link.draws
  buffered : t.link.buffered = []
  oracle : t.link.oracle = s.link.oracle

theorem frameOf_bytes {r : List Byte} (hr : r.length = 13) : (frameOf r).toList = r := by
  rcases r with _ | ⟨a, _ | ⟨b, _ | ⟨c, _ | ⟨d, _ | ⟨e, _ | ⟨f, _ | ⟨g, _ | ⟨i, _ | ⟨j, _ | ⟨k, _ | ⟨l, _ | ⟨m, _ | ⟨n, _ | ⟨o, r⟩⟩⟩⟩⟩⟩⟩⟩⟩⟩⟩⟩⟩⟩ <;>
    first
    | rfl
    | simp at hr

/-- The byte at the last offset completes the frame. -/
theorem set_last (buf : Frame) (a : List Byte) (b : Byte) (k : buf.toList.take 12 = a) :
    buf.set 12 b = frameOf (a ++ [b]) := by
  subst k
  conv => lhs; rw [frame_eta buf]
  rw [frame_toList buf]
  rfl

/-- A fresh read whose whole answer the transport holds (R100): the events up to the one that ends it. -/
theorem events_answer (r : List Byte) (s : State) (ht : s.tx.state = .idle) (h : s.rx.state = .receiving)
    (hi : s.rx.idx = 0) (hs : s.rx.sum = 0) (hb : s.link.buffered = r) (ha : s.link.answered = true)
    (hl : r.length ≤ 13) (ho : ∀ w, s.owner = some w → w.phase = .collect) :
    ∃ n t, events (n + 1) s = settle t ∧ ReadEnd r s t := by
  rcases Nat.lt_or_ge r.length 13 with hr | hr
  · obtain ⟨buf, e, k⟩ := events_bytes r [] s ht h (by simpa using hb) (by omega) ho
    rw [hi] at k e
    have kk : buf.toList.take r.length = r := by simpa using k
    refine ⟨r.length, abortRx (events r.length s), ?_, ?_⟩
    · rw [events_add]
      show environment (events r.length s) = _
      rw [environment_read (ownerWaits_of rfl (by rw [e]; exact ho)) (by rw [e]; exact ht) (by rw [e]; exact h)]
      have h1 : (events r.length s).link.buffered = [] := by rw [e]
      have h2 : (events r.length s).link.answered = true := by rw [e]; exact ha
      simp [receiveNext, h1, h2, feed]
    · constructor <;> rw [e] <;>
        simp [abortRx, takeCause, recordCause, setRxState, Raise.cause, judgeAnswer, frameLen, hr, judgedState,
          judgedCause, received, kk]
      omega
  · have hr : r.length = 13 := by omega
    have hne : r ≠ [] := by rintro rfl; simp at hr
    obtain ⟨a, b, rfl⟩ : ∃ a b, r = a ++ [b] := ⟨r.dropLast, r.getLast hne, (List.dropLast_append_getLast hne).symm⟩
    have ha' : a.length = 12 := by simpa using hr
    obtain ⟨buf, e, k⟩ := events_bytes a [b] s ht h hb (by omega) ho
    rw [hi, ha'] at k e
    have ht' : (a ++ [b]).take 12 = a := by rw [← ha']; exact List.take_left
    have hf := set_last buf a b (by simpa using k)
    obtain ⟨u, hu⟩ : ∃ u, events 12 s = u := ⟨_, rfl⟩
    rw [hu] at e
    have ej : takeByte b (setBuffered [] u) = judgeFrame { s with
        rx := ⟨frameOf (a ++ [b]), 13, checksum a, s.rx.expect, .receiving⟩, link := { s.link with buffered := [] } } := by
      have hx : (setBuffered [] u).rx.idx = 12 := by rw [e]; rfl
      rw [takeByte_last b _ hx, e]
      simp [setBuffered, hf, h, hs]
    obtain ⟨h1, h2, h3⟩ := judgeFrame_spec { s with
        rx := ⟨frameOf (a ++ [b]), 13, checksum a, s.rx.expect, .receiving⟩, link := { s.link with buffered := [] } }
      (by simp only; rw [frameOf_bytes hr, ht'])
    have ro := judgeFrame_rxOnly { s with
        rx := ⟨frameOf (a ++ [b]), 13, checksum a, s.rx.expect, .receiving⟩, link := { s.link with buffered := [] } }
    have hj : judgeAnswer (a ++ [b]) s.rx.expect = validateFrame (frameOf (a ++ [b])) s.rx.expect := by
      rw [judgeAnswer, if_neg (by simp [ha'])]
    refine ⟨12, takeByte b (setBuffered [] u), ?_, ?_⟩
    · rw [events_add, hu]
      show environment u = _
      rw [environment_read (ownerWaits_of rfl (by rw [e]; exact ho)) (by rw [e]; exact ht) (by rw [e]; exact h)]
      have hb' : u.link.buffered = [b] := by rw [e]
      simp [receiveNext, hb', feed]
    · rw [ej]
      unfold RxOnly at ro
      constructor
      · generalize judgeFrame _ = t at ro ⊢
        obtain ⟨_, _, _, _, _, _, _, _, _, _, _, _⟩ := t
        simp only [State.mk.injEq] at ro ⊢
        simp [ro]
      · rw [h1, hj]
      · rw [h2, hj]
      · rw [received, h3]
        simp only
        rw [frameOf_bytes hr, List.take_of_length_le (by simp [ha'])]
      · intro _
        rw [h3, h1, ht', hj]
      · rw [h3]
      all_goals rw [ro]

/-- The oracle's next answer is what the transport then holds (42 R112). -/
theorem environment_draw {s : State} {r : List Byte} {rest : List (List Byte)} (hw : ownerWaits s = true)
    (ht : s.tx.state = .idle) (h : s.rx.state = .receiving) (hb : s.link.buffered = []) (ha : s.link.answered = false)
    (hq : s.link.oracle = r :: rest) (hl : r.length ≤ 13) :
    environment s = environment { s with link := { s.link with buffered := r, answered := true, oracle := rest } } := by
  have hr : r.take 13 = r := List.take_of_length_le hl
  have e2 : environment { s with link := { s.link with buffered := r, answered := true, oracle := rest } } =
      settle (receiveNext { s with link := { s.link with buffered := r, answered := true, oracle := rest } }) :=
    environment_read hw ht h
  rw [environment_read hw ht h, e2]
  congr 1
  have hd : drawAnswer s = (r, { s with link := { s.link with answered := true, oracle := rest } }) := by
    simp [drawAnswer, hq, frameLen, hr]
  cases r with
  | nil =>
    simp only [receiveNext, hb, ha, hd, feed, if_true]
    rw [if_neg Bool.false_ne_true]
  | cons b r =>
    simp only [receiveNext, hb, ha, hd, feed]
    rw [if_neg Bool.false_ne_true]
    rfl

/-- A fresh read, with nothing held by the transport, that the oracle's next answer ends (R100, R112). -/
theorem events_read (r : List Byte) (rest : List (List Byte)) (s : State) (ht : s.tx.state = .idle)
    (h : s.rx.state = .receiving) (hi : s.rx.idx = 0) (hs : s.rx.sum = 0) (hb : s.link.buffered = [])
    (ha : s.link.answered = false) (hq : s.link.oracle = r :: rest) (hl : r.length ≤ 13)
    (ho : ∀ w, s.owner = some w → w.phase = .collect) :
    ∃ n t, events n s = settle t ∧
      ReadEnd r { s with link := { s.link with buffered := r, answered := true, oracle := rest } } t := by
  obtain ⟨n, t, k1, k2⟩ := events_answer r
    { s with link := { s.link with buffered := r, answered := true, oracle := rest } } ht h hi hs rfl rfl hl ho
  refine ⟨n + 1, t, ?_, k2⟩
  rw [← k1]
  show events n (environment s) = events n (environment _)
  rw [environment_draw (ownerWaits_of rfl ho) ht h hb ha hq hl]

end Sys2Proof.Machine
end

