-- ==== Sys2Proof/Laws/FieldDecoder.lean ====
section
/-! SUPPORT. What the field decoder's operations can change, and when a field is read (43_field_decoder.md R130, R138,
R139, 44_interpreters.md R156). -/

namespace Sys2Proof.Machine

/-- `t` is `s` but for the field decoder, LAST_CAUSE (which is not cleared) and the raises. -/
structure FdOnly (s t : State) : Prop where
  eq : t = { s with fd := t.fd, lastCause := t.lastCause, raised := t.raised }
  cause : t.lastCause = .none → s.lastCause = .none

theorem FdOnly.refl (s : State) : FdOnly s s := ⟨rfl, id⟩

theorem FdOnly.trans {s t u : State} (h : FdOnly s t) (k : FdOnly t u) : FdOnly s u := by
  refine ⟨?_, fun e => h.cause (k.cause e)⟩
  have h1 := h.eq
  have k1 := k.eq
  rw [k1]
  conv => lhs; rw [h1]

theorem takeCause_fdOnly_load (n : Nat) (s : State) : FdOnly s (takeCause (.fdLoadRange n) s) := ⟨rfl, by simp [Raise.cause]⟩

theorem takeCause_fdOnly_notLoaded (s : State) : FdOnly s (takeCause .fdNotLoaded s) := ⟨rfl, by simp [Raise.cause]⟩

theorem fdLoadOp_fdOnly (p : Option Payload) (n : Nat) (s : State) : FdOnly s (fdLoadOp p n s).1 := by
  cases p with
  | none => exact takeCause_fdOnly_notLoaded s
  | some p =>
    unfold fdLoadOp
    dsimp only
    split
    · exact takeCause_fdOnly_load n s
    · exact ⟨rfl, id⟩

theorem field_fdOnly (d : Byte) (s : State) : FdOnly s (field d s).1 := by
  unfold field
  split
  · exact takeCause_fdOnly_notLoaded s
  · split
    · exact ⟨rfl, by simp [Raise.cause]⟩
    · split
      · exact ⟨rfl, by simp [Raise.cause]⟩
      · exact ⟨rfl, id⟩

theorem fields_fdOnly (ds : List Byte) (s : State) : FdOnly s (fields ds s).1 := by
  induction ds generalizing s with
  | nil => exact FdOnly.refl s
  | cons d ds ih =>
    have h := field_fdOnly d s
    unfold fields
    split
    · rename_i e; rw [e] at h; exact h
    · rename_i e; rw [e] at h; exact h.trans (ih _)

theorem decodeFieldsOp_fdOnly (p : Option Payload) (ds : List Byte) (s : State) : FdOnly s (decodeFieldsOp p ds s).1 := by
  have h := fdLoadOp_fdOnly p 0 s
  unfold decodeFieldsOp
  split
  · rename_i e; rw [e] at h; exact h
  · rename_i e; rw [e] at h; exact h.trans (fields_fdOnly ds _)

theorem takeItems_fdOnly (k : Series) (c n item : Nat) (s : State) : FdOnly s (takeItems k c n item s).1 := by
  induction n generalizing item s with
  | zero => exact FdOnly.refl s
  | succ n ih =>
    have h := field_fdOnly (seriesDescriptor k) s
    unfold takeItems
    split
    · exact FdOnly.refl s
    · split
      · exact FdOnly.refl s
      · split
        · rename_i e; rw [e] at h; exact h
        · rename_i e; rw [e] at h; exact h.trans (ih _ _)

theorem reassembleLoop_fdOnly (k : Series) (c : Nat) (ps : List Payload) (item : Nat) (s : State) :
    FdOnly s (reassembleLoop k c ps item s).1 := by
  induction ps generalizing item s with
  | nil => exact FdOnly.refl s
  | cons p ps ih =>
    unfold reassembleLoop
    split
    · exact ih _ _
    · have h := takeItems_fdOnly k c (seriesPerFrame k) item (fdLoadOp (some p) 1 s).1
      split
      rename_i e
      rw [e] at h
      exact ((fdLoadOp_fdOnly _ _ s).trans h).trans (ih _ _)

theorem reassembleOp_fdOnly (k : Series) (ps : List Payload) (s : State) : FdOnly s (reassembleOp k ps s).1 :=
  reassembleLoop_fdOnly _ _ _ _ _

/-- A field read (R139). -/
theorem field_reads (d : Byte) (s : State) (h : s.fd.state = .loaded) (hd : descReserved d = false)
    (hr : s.fd.cur + descWidth d ≤ 8) :
    field d s =
      (retireField d (fieldValue d (memRead s.fd.buf s.fd.cur (descWidth d))) (descWidth d) s,
        some (fieldValue d (memRead s.fd.buf s.fd.cur (descWidth d)))) := by
  have hr' : ¬ payloadLen < s.fd.cur + descWidth d := Nat.not_lt.mpr hr
  simp only [field, h, hd, hr', ne_eq, not_true_eq_false, if_false, Bool.false_eq_true]

/-- A descriptor is legal exactly when it has a type, and then its width is the type's (30 R66, R67). -/
theorem fieldType_spec (d : Byte) :
    match fieldType d with
    | none => descReserved d = true
    | some ty => descReserved d = false ∧ descWidth d = ty.1 ∧ descS d = ty.2.1 ∧ (ty.2.1 = false → descB d = ty.2.2) ∧
        (ty.2.2 = true → ty.1 = 1 ∧ ty.2.1 = false) ∧ (ty.1 = 1 ∨ ty.1 = 2 ∨ ty.1 = 4) := by
  have hn : ∀ d : Byte, fieldType d = none → descReserved d = true := by decide
  cases h : fieldType d with
  | none => exact hn d h
  | some ty =>
    simp only [fieldType] at h
    repeat' split at h
    all_goals cases h
    all_goals
      rename_i e
      subst e
      decide

/-- MemRead is the big-endian number of its bytes (20 R43). -/
theorem memRead_eq (p : Payload) (a w : Nat) (hw : w = 1 ∨ w = 2 ∨ w = 4) (h : a + w ≤ 8) :
    (memRead p a w : Int) = bigEndianAt p a w ∧ memRead p a w < 2 ^ (8 * w) := by
  have b0 := p[0].isLt
  have b1 := p[1].isLt
  have b2 := p[2].isLt
  have b3 := p[3].isLt
  have b4 := p[4].isLt
  have b5 := p[5].isLt
  have b6 := p[6].isLt
  have b7 := p[7].isLt
  have ha : a < 8 := by omega
  rcases hw with rfl | rfl | rfl <;> interval_cases a <;>
    first
    | omega
    | (simp [memRead, bigEndianAt, byteNum, payload_toList, bigEndian]; omega)

/-- The value FIELD makes of the raw number is the value of the descriptor's type (43 R139, 30 R65). -/
theorem fieldValue_typed (p : Payload) (a : Nat) (d : Byte) (ty : Nat × Bool × Bool) (h : fieldType d = some ty)
    (hr : a + ty.1 ≤ 8) : fieldValue d (memRead p a (descWidth d)) = typedValue p a ty := by
  have ft := fieldType_spec d
  rw [h] at ft
  obtain ⟨w, sg, bl⟩ := ty
  obtain ⟨-, h1, h2, h3, h4, h5⟩ := ft
  simp only at h1 h2 h3 h4 h5 hr
  obtain ⟨m1, m2⟩ := memRead_eq p a w h5 hr
  rw [h1]
  cases sg
  · cases bl
    · simp [fieldValue, h2, h3 rfl, typedValue, m1]
    · obtain ⟨rfl, -⟩ := h4 rfl
      have hz : memRead p a 1 = 0 ↔ byteNum p a = 0 := by
        rw [show byteNum p a = bigEndianAt p a 1 by simp [bigEndianAt], ← m1]
        exact Int.natCast_eq_zero.symm
      simp only [fieldValue, h2, h3 rfl, typedValue, Bool.false_eq_true, if_false, if_true]
      congr 1
      rw [Bool.eq_iff_iff]
      simp [hz]
  · have hb : bl = false := by
      cases bl
      · rfl
      · exact absurd (h4 rfl).2 (by simp)
    subst hb
    simp only [fieldValue, h1, h2, typedValue, if_true, sext, signedNum]
    rw [← m1]
    rcases h5 with rfl | rfl | rfl <;> simp

/-- FIELD with a legal descriptor and room at the cursor (R139). -/
theorem field_typed {d : Byte} {ty : Nat × Bool × Bool} {s : State} (hty : fieldType d = some ty)
    (h : s.fd.state = .loaded) (hr : s.fd.cur + ty.1 ≤ 8) :
    field d s = (retireField d (typedValue s.fd.buf s.fd.cur ty) ty.1 s, some (typedValue s.fd.buf s.fd.cur ty)) := by
  have ft := fieldType_spec d
  rw [hty] at ft
  obtain ⟨h0, h1, -⟩ := ft
  rw [field_reads d s h h0 (by rw [h1]; exact hr), fieldValue_typed s.fd.buf s.fd.cur d ty hty hr, h1]

/-- FIELD with a legal descriptor and no room at the cursor (R139). -/
theorem field_range {d : Byte} {ty : Nat × Bool × Bool} {s : State} (hty : fieldType d = some ty)
    (h : s.fd.state = .loaded) (hr : 8 < s.fd.cur + ty.1) :
    field d s = (takeCause (.fdFieldRange s.fd.cur ty.1) s, none) := by
  have ft := fieldType_spec d
  rw [hty] at ft
  obtain ⟨h0, h1, -⟩ := ft
  simp [field, h, h0, h1, payloadLen, hr]

/-- FIELD with a reserved descriptor (R139, 30 R67). -/
theorem field_badDesc {d : Byte} {s : State} (hty : fieldType d = none) (h : s.fd.state = .loaded) :
    field d s = (takeCause (.fdBadDesc d) s, none) := by
  have ft := fieldType_spec d
  rw [hty] at ft
  simp [field, h, ft]

/-- FIELD with nothing loaded, or after a fault (R139). -/
theorem field_notLoaded (d : Byte) {s : State} (h : s.fd.state ≠ .loaded) :
    field d s = (takeCause .fdNotLoaded s, none) := by
  rw [field, if_pos h]

/-- A schema that fits, from the cursor on (R138). -/
theorem fields_spec (ds : List Byte) (s : State) (vs : List FieldValue) (a : Nat) (h : s.fd.state = .loaded)
    (hs : schemaSpec s.fd.buf ds s.fd.cur = some (vs, a)) :
    ∃ val kind, fields ds s = ({ s with fd := { s.fd with cur := a, val := val, kind := kind } }, some vs) := by
  induction ds generalizing s vs with
  | nil =>
    simp only [schemaSpec, Option.some.injEq, Prod.mk.injEq] at hs
    obtain ⟨rfl, rfl⟩ := hs
    exact ⟨s.fd.val, s.fd.kind, rfl⟩
  | cons d ds ih =>
    unfold schemaSpec at hs
    cases hty : fieldType d with
    | none => rw [hty] at hs; cases hs
    | some ty =>
      rw [hty] at hs
      simp only at hs
      split at hs
      · cases hs
      · rename_i hr
        have fl := field_typed hty h (Nat.not_lt.mp hr)
        obtain ⟨⟨vs', a'⟩, k1, k2⟩ := Option.map_eq_some_iff.1 hs
        simp only [Prod.mk.injEq] at k2
        obtain ⟨rfl, rfl⟩ := k2
        obtain ⟨val, kind, e⟩ := ih (retireField d (typedValue s.fd.buf s.fd.cur ty) ty.1 s) vs' h k1
        refine ⟨val, kind, ?_⟩
        rw [fields, fl]
        simp only [e]
        rfl

/-- DECODE_FIELDS of a schema that fits (R138). -/
theorem decodeFieldsOp_spec (p : Payload) (ds : List Byte) (s : State) (vs : List FieldValue) (a : Nat)
    (h : schemaSpec p ds 0 = some (vs, a)) :
    ∃ val kind, decodeFieldsOp (some p) ds s = ({ s with fd := ⟨a, p, .loaded, val, kind⟩ }, some vs) := by
  obtain ⟨val, kind, e⟩ := fields_spec ds (loadFd p 0 s) vs a rfl h
  exact ⟨val, kind, by simpa [decodeFieldsOp, fdLoadOp, payloadLen] using e⟩

/-! ## What the field decoder answers depends on its own registers only (43 R141) -/

theorem field_congr (d : Byte) {s t : State} (h : s.fd = t.fd) :
    (field d s).1.fd = (field d t).1.fd ∧ (field d s).2 = (field d t).2 := by
  unfold field
  rw [h]
  split
  · exact ⟨h, rfl⟩
  · split
    · exact ⟨by simp [takeCause, recordCause, setFdState, h], rfl⟩
    · split
      · exact ⟨by simp [takeCause, recordCause, setFdState, h], rfl⟩
      · exact ⟨by simp [h], rfl⟩

theorem fields_congr (ds : List Byte) {s t : State} (h : s.fd = t.fd) :
    (fields ds s).1.fd = (fields ds t).1.fd ∧ (fields ds s).2 = (fields ds t).2 := by
  induction ds generalizing s t with
  | nil => exact ⟨h, rfl⟩
  | cons d ds ih =>
    obtain ⟨h1, h2⟩ := field_congr d h
    rcases hs : field d s with ⟨s', _ | v⟩ <;> rcases ht : field d t with ⟨t', _ | w⟩ <;> rw [hs, ht] at h1 h2
    · simp only [fields, hs, ht]
      exact ⟨h1, trivial⟩
    · cases h2
    · cases h2
    · obtain ⟨i1, i2⟩ := ih h1
      cases h2
      simp only [fields, hs, ht]
      exact ⟨i1, by rw [i2]⟩

theorem decodeFieldsOp_congr (p : Payload) (ds : List Byte) {s t : State} (h : s.fd = t.fd) :
    (decodeFieldsOp (some p) ds s).1.fd = (decodeFieldsOp (some p) ds t).1.fd ∧
    (decodeFieldsOp (some p) ds s).2 = (decodeFieldsOp (some p) ds t).2 := by
  have e : ∀ u : State, decodeFieldsOp (some p) ds u = fields ds (loadFd p 0 u) := by
    intro u
    simp [decodeFieldsOp, fdLoadOp, payloadLen]
  rw [e, e]
  exact fields_congr ds (by simp [h])

theorem takeItems_congr (k : Series) (c n item : Nat) {s t : State} (h : s.fd = t.fd) :
    (takeItems k c n item s).1.fd = (takeItems k c n item t).1.fd ∧
    (takeItems k c n item s).2 = (takeItems k c n item t).2 := by
  induction n generalizing item s t with
  | zero => exact ⟨h, rfl⟩
  | succ n ih =>
    unfold takeItems
    rw [h]
    split
    · exact ⟨h, rfl⟩
    · split
      · exact ⟨h, rfl⟩
      · obtain ⟨h1, h2⟩ := field_congr (seriesDescriptor k) h
        rcases hs : field (seriesDescriptor k) s with ⟨s', _ | v⟩ <;>
          rcases ht : field (seriesDescriptor k) t with ⟨t', _ | w⟩ <;> rw [hs, ht] at h1 h2
        · exact ⟨h1, rfl⟩
        · cases h2
        · cases h2
        · obtain ⟨i1, i2⟩ := ih (item + 1) h1
          cases h2
          exact ⟨i1, by simp only at i2 ⊢; rw [i2]⟩

theorem reassembleLoop_congr (k : Series) (c : Nat) (ps : List Payload) (item : Nat) {s t : State} (h : s.fd = t.fd) :
    (reassembleLoop k c ps item s).1.fd = (reassembleLoop k c ps item t).1.fd ∧
    (reassembleLoop k c ps item s).2 = (reassembleLoop k c ps item t).2 := by
  induction ps generalizing item s t with
  | nil => exact ⟨h, rfl⟩
  | cons p ps ih =>
    unfold reassembleLoop
    split
    · exact ih item h
    · have hl : ∀ u : State, (fdLoadOp (some p) 1 u).1 = loadFd p 1 u := fun u => by simp [fdLoadOp, payloadLen]
      rw [hl, hl]
      obtain ⟨h1, h2⟩ := takeItems_congr k c (seriesPerFrame k) item (s := loadFd p 1 s) (t := loadFd p 1 t) (by simp [h])
      rcases hs : takeItems k c (seriesPerFrame k) item (loadFd p 1 s) with ⟨s', a, m⟩
      rcases ht : takeItems k c (seriesPerFrame k) item (loadFd p 1 t) with ⟨t', b, n⟩
      rw [hs, ht] at h1 h2
      cases h2
      obtain ⟨i1, i2⟩ := ih m h1
      exact ⟨i1, by simp only; rw [i2]⟩

/-! ## REASSEMBLE (44 R156) -/

/-- The type of REASSEMBLE's descriptor (44 R157, R158). -/
theorem seriesDescriptor_type (k : Series) : fieldType (seriesDescriptor k) = some (seriesWidth k, true, false) := by
  cases k <;> rfl

/-- REASSEMBLE's inner loop on a frame with room for all its fields: the fields from the cursor on, up to the count. -/
theorem takeItems_spec (k : Series) (c n item : Nat) (s : State) (h : s.fd.state = .loaded)
    (hr : s.fd.cur + n * seriesWidth k ≤ 8) :
    ∃ f, takeItems k c n item s = ({ s with fd := f },
      numbered item (((List.range n).map fun j =>
        seriesValue k (typedValue s.fd.buf (s.fd.cur + j * seriesWidth k) (seriesWidth k, true, false))).take (c + 1 - item)),
      item + min n (c + 1 - item)) := by
  induction n generalizing item s with
  | zero => exact ⟨s.fd, by simp [takeItems, numbered]⟩
  | succ n ih =>
    have hw : seriesWidth k = 1 ∨ seriesWidth k = 2 := by cases k <;> simp [seriesWidth]
    have h1 : ¬ 8 < s.fd.cur + seriesWidth k := by
      rcases hw with e | e <;> rw [e] at hr ⊢ <;> omega
    unfold takeItems
    rw [if_neg h1]
    by_cases hc : c < item
    · rw [if_pos hc]
      exact ⟨s.fd, by simp [show c + 1 - item = 0 by omega, numbered]⟩
    · rw [if_neg hc, field_typed (seriesDescriptor_type k) h (Nat.not_lt.1 h1)]
      obtain ⟨f, e⟩ := ih (item + 1) (retireField (seriesDescriptor k)
        (typedValue s.fd.buf s.fd.cur (seriesWidth k, true, false)) (seriesWidth k) s) h
        (by simp only [retireField_fd]; rcases hw with e | e <;> rw [e] at hr ⊢ <;> omega)
      refine ⟨f, ?_⟩
      simp only [e]
      have h2 : c + 1 - item = (c + 1 - (item + 1)) + 1 := by omega
      refine Prod.ext rfl (Prod.ext ?_ ?_)
      · simp only [h2, List.range_succ_eq_map, List.map_cons, List.take_succ_cons, numbered]
        simp [List.map_map, Function.comp_def, Nat.succ_mul, Nat.add_assoc, Nat.add_comm (seriesWidth k)]
      · simp only
        omega

/-- The fields of one frame are its values. -/
theorem seriesValues_fields (k : Series) (p : Payload) :
    (List.range (seriesPerFrame k)).map (fun j =>
      seriesValue k (typedValue p (1 + j * seriesWidth k) (seriesWidth k, true, false))) = seriesValues k p := by
  cases k <;>
    simp [seriesPerFrame, List.range, List.range.loop, seriesWidth, seriesValues, seriesValue, typedValue,
      FieldValue.toInt, bigEndianAt, voltWidth]

theorem numbered_append (n : Nat) (a b : List MVal) : numbered n (a ++ b) = numbered n a ++ numbered (n + a.length) b := by
  induction a generalizing n with
  | nil => rfl
  | cons x a ih => simp [numbered, ih, Nat.add_assoc, Nat.add_comm 1]

/-- REASSEMBLE's outer loop: it raises nothing, writes the field decoder's registers only, and numbers the values of the frames
that are not padding. -/
theorem reassembleLoop_spec (k : Series) (c : Nat) (ps : List Payload) (item : Nat) (s : State) :
    ∃ f, reassembleLoop k c ps item s = ({ s with fd := f },
      numbered item (((ps.filter fun p => p[0] != seqInvalid).flatMap (seriesValues k)).take (c + 1 - item))) := by
  induction ps generalizing item s with
  | nil => exact ⟨s.fd, by simp [reassembleLoop, numbered]⟩
  | cons p ps ih =>
    unfold reassembleLoop
    by_cases h : p[0] = seqInvalid
    · rw [if_pos h]
      obtain ⟨f, e⟩ := ih item s
      exact ⟨f, by rw [e]; simp [h]⟩
    · rw [if_neg h, show (fdLoadOp (some p) 1 s).1 = loadFd p 1 s by simp [fdLoadOp, payloadLen]]
      obtain ⟨f, e⟩ := takeItems_spec k c (seriesPerFrame k) item (loadFd p 1 s) rfl
        (by cases k <;> (show 1 + _ ≤ 8; decide))
      rw [e]
      simp only [loadFd_fd, seriesValues_fields]
      obtain ⟨f', e'⟩ := ih (item + min (seriesPerFrame k) (c + 1 - item)) { loadFd p 1 s with fd := f }
      refine ⟨f', ?_⟩
      rw [e']
      refine Prod.ext rfl ?_
      have hlen : (seriesValues k p).length = seriesPerFrame k := by cases k <;> rfl
      simp only [List.filter_cons, bne_iff_ne, ne_eq, h, not_false_eq_true, if_true, List.flatMap_cons, List.take_append,
        numbered_append]
      congr 2
      · rw [List.length_take, hlen, Nat.min_comm]
      · congr 1
        rw [hlen]
        omega

end Sys2Proof.Machine
end

