-- ==== Sys2Proof/Laws/Sequencer.lean ====
section
/-! SUPPORT. What no operation but RESET (and, for the Device State, GET_STATUS) can do: change the configuration, shorten the
link's record, clear LAST_CAUSE, touch the agenda (10_state.md R11, R25, R28, 20_memory.md R52). -/

namespace Sys2Proof.Machine

/-- The configuration and the agenda are kept, the link's record only grows, LAST_CAUSE is not cleared. -/
structure Grows (s t : State) : Prop where
  cfg : t.cfg = s.cfg
  agenda : t.agenda = s.agenda
  history : s.link.history <+: t.link.history
  sent : s.link.sent <+: t.link.sent
  cause : t.lastCause = .none → s.lastCause = .none

/-- The same, and the Device State is kept. -/
structure Keeps (s t : State) : Prop extends Grows s t where
  dev : t.dev = s.dev

theorem Grows.refl (s : State) : Grows s s := ⟨rfl, rfl, List.prefix_rfl, List.prefix_rfl, id⟩

theorem Grows.trans {s t u : State} (h : Grows s t) (k : Grows t u) : Grows s u :=
  ⟨k.cfg.trans h.cfg, k.agenda.trans h.agenda, h.history.trans k.history, h.sent.trans k.sent, fun e => h.cause (k.cause e)⟩

theorem Keeps.refl (s : State) : Keeps s s := ⟨Grows.refl s, rfl⟩

theorem Keeps.trans {s t u : State} (h : Keeps s t) (k : Keeps t u) : Keeps s u :=
  ⟨h.toGrows.trans k.toGrows, k.dev.trans h.dev⟩

/-- A state that differs in the fields `Keeps` does not look at. -/
theorem Keeps.of_eq {s t : State} (hc : t.cfg = s.cfg) (ha : t.agenda = s.agenda) (hl : t.link = s.link)
    (hk : t.lastCause = s.lastCause) (hd : t.dev = s.dev) : Keeps s t :=
  ⟨⟨hc, ha, by rw [hl], by rw [hl], by rw [hk]; exact id⟩, hd⟩

theorem Raise.cause_ne_none (r : Raise) : r.cause ≠ .none := by cases r <;> simp [Raise.cause]

theorem takeCause_keeps (r : Raise) (s : State) : Keeps s (takeCause r s) :=
  ⟨⟨by simp, by simp, by simp, by simp, fun e => absurd (by simpa using e) (Raise.cause_ne_none r)⟩, by simp⟩

theorem setRet_keeps (v : Option Value) (s : State) : Keeps s (setRet v s) := Keeps.of_eq rfl rfl rfl rfl rfl
theorem setOwner_keeps (c : Option Wait) (s : State) : Keeps s (setOwner c s) := Keeps.of_eq rfl rfl rfl rfl rfl
theorem armRx_keeps (e : Byte) (s : State) : Keeps s (armRx e s) :=
  ⟨⟨rfl, rfl, List.prefix_rfl, List.prefix_rfl, id⟩, rfl⟩
theorem waitFor_keeps (c : Call) (p : Phase) (s : State) : Keeps s (waitFor c p s) := Keeps.of_eq rfl rfl rfl rfl rfl
theorem returnCall_keeps (v : Option Value) (s : State) : Keeps s (returnCall v s) := Keeps.of_eq rfl rfl rfl rfl rfl
theorem loadTx_keeps (f : Frame) (s : State) : Keeps s (loadTx f s) := Keeps.of_eq rfl rfl rfl rfl rfl
theorem closeExchange_keeps (s : State) : Keeps s (closeExchange s) := Keeps.of_eq rfl rfl rfl rfl rfl
theorem setCollected_keeps (ps : List Payload) (s : State) : Keeps s (setCollected ps s) := Keeps.of_eq rfl rfl rfl rfl rfl
theorem setAttempt_keeps (n : Nat) (s : State) : Keeps s (setAttempt n s) := Keeps.of_eq rfl rfl rfl rfl rfl
theorem latchRequest_keeps (q : ExReq) (s : State) : Keeps s (latchRequest q s) := Keeps.of_eq rfl rfl rfl rfl rfl

theorem setBuffered_keeps (b : List Byte) (s : State) : Keeps s (setBuffered b s) :=
  ⟨⟨rfl, rfl, List.prefix_rfl, List.prefix_rfl, id⟩, rfl⟩

theorem bufferBytes_keeps (b : List Byte) (s : State) : Keeps s (bufferBytes b s) := setBuffered_keeps _ s

theorem record_keeps (e : LinkEvent) (s : State) : Keeps s (record e s) :=
  ⟨⟨rfl, rfl, List.prefix_append _ _, List.prefix_rfl, id⟩, rfl⟩

theorem flushLink_keeps (s : State) : Keeps s (flushLink s) := (setBuffered_keeps [] s).trans (record_keeps _ _)

theorem sendByte_keeps (s : State) : Keeps s (sendByte s) :=
  ⟨⟨rfl, rfl, List.prefix_append _ _, List.prefix_append _ _, id⟩, rfl⟩

theorem RxOnly.keeps {s t : State} (h : RxOnly s t) (k : t.lastCause = .none → s.lastCause = .none) : Keeps s t := by
  unfold RxOnly at h
  refine ⟨⟨?_, ?_, ?_, ?_, k⟩, ?_⟩ <;> rw [h]

theorem judgeFrame_cause (s : State) : (judgeFrame s).lastCause = .none → s.lastCause = .none := by
  unfold judgeFrame
  split
  · simp [Raise.cause]
  · split
    · simp [Raise.cause]
    · simp

theorem takeByte_keeps (b : Byte) (s : State) : Keeps s (takeByte b s) := by
  refine (takeByte_rxOnly b s).keeps ?_
  unfold takeByte
  split
  · exact judgeFrame_cause _
  · exact id

theorem feed_keeps (bs : List Byte) (s : State) : Keeps s (feed bs s) := by
  unfold feed
  split
  · exact (setBuffered_keeps _ s).trans (takeByte_keeps _ _)
  · exact takeCause_keeps _ s

theorem drawAnswer_keeps (s : State) : Keeps s (drawAnswer s).2 := by
  unfold drawAnswer
  split <;> exact ⟨⟨rfl, rfl, List.prefix_rfl, List.prefix_rfl, id⟩, rfl⟩

theorem receiveNext_keeps (s : State) : Keeps s (receiveNext s) := by
  unfold receiveNext
  split
  · exact feed_keeps _ s
  · split
    · exact feed_keeps _ s
    · exact (drawAnswer_keeps s).trans (feed_keeps _ _)

theorem rxByteEvent_keeps (b : Byte) (s : State) : Keeps s (rxByteEvent b s) := by
  unfold rxByteEvent
  split
  · exact feed_keeps _ s
  · exact bufferBytes_keeps _ s

theorem FdOnly.keeps {s t : State} (h : FdOnly s t) : Keeps s t := by
  have e := h.eq
  refine ⟨⟨?_, ?_, ?_, ?_, h.cause⟩, ?_⟩ <;> rw [e]

/-- What the owner's going on with the call `c` can do. -/
structure Moves (c : Call) (s t : State) : Prop extends Grows s t where
  dev : c ≠ .interp .status → t.dev = s.dev

theorem Keeps.moves {c : Call} {s t : State} (h : Keeps s t) : Moves c s t := ⟨h.toGrows, fun _ => h.dev⟩

theorem Moves.trans {c : Call} {s t u : State} (h : Moves c s t) (k : Moves c t u) : Moves c s u :=
  ⟨h.toGrows.trans k.toGrows, fun e => (k.dev e).trans (h.dev e)⟩

theorem Keeps.then {c : Call} {s t u : State} (h : Keeps s t) (k : Moves c t u) : Moves c s u := h.moves.trans k

/-! ## The field decoder's calls (43 R138, 44 R150, R156) -/

theorem interpValues_moves (k : Interp) (vs : List FieldValue) (s : State) : Moves (.interp k) s (interpValues k vs s).1 := by
  cases k with
  | status =>
    refine ⟨?_, fun h => absurd rfl h⟩
    simp only [interpValues, statusCounts]
    split
    · exact ⟨rfl, rfl, List.prefix_rfl, List.prefix_rfl, id⟩
    · exact Grows.refl s
  | _ => exact (Keeps.refl s).moves

theorem returnFields_moves (c : Call) (vs : List FieldValue) (s : State) : Moves c s (returnFields c vs s) := by
  cases c with
  | interp k => exact (interpValues_moves k vs s).trans (returnCall_keeps _ _).moves
  | _ => exact (returnCall_keeps _ s).moves

theorem nextField_moves (c : Call) (ds : List Byte) (got : List FieldValue) (s : State) : Moves c s (nextField c ds got s) := by
  cases ds with
  | nil => exact returnFields_moves c got s
  | cons d ds => exact (waitFor_keeps c _ s).moves

theorem bindSchema_moves (c : Call) (p : Option Payload) (ds : List Byte) (s : State) : Moves c s (bindSchema c p ds s) := by
  have h := (fdLoadOp_fdOnly p 0 s).keeps
  unfold bindSchema
  split <;> (rename_i e; rw [e] at h)
  · exact (h.trans (returnCall_keeps _ _)).moves
  · exact h.then (nextField_moves c ds [] _)

theorem fieldStrobe_moves (c : Call) (d : Byte) (ds : List Byte) (got : List FieldValue) (s : State) :
    Moves c s (fieldStrobe c d ds got s) := by
  have h := (field_fdOnly d s).keeps
  unfold fieldStrobe
  split <;> (rename_i e; rw [e] at h)
  · exact (h.trans (returnCall_keeps _ _)).moves
  · exact h.then (nextField_moves c ds _ _)

theorem nextFrame_keeps (c : Call) (k : Series) (ps : List Payload) (item : Nat) (got : List (MKey × MVal)) (s : State) :
    Keeps s (nextFrame c k ps item got s) := by
  induction ps with
  | nil => exact returnCall_keeps _ s
  | cons p ps ih =>
    unfold nextFrame
    split
    · exact ih
    · exact waitFor_keeps c _ s

theorem nextItem_keeps (c : Call) (k : Series) (n : Nat) (ps : List Payload) (item : Nat) (got : List (MKey × MVal))
    (s : State) : Keeps s (nextItem c k n ps item got s) := by
  unfold nextItem
  split
  · exact nextFrame_keeps c k ps item got s
  · split
    · exact nextFrame_keeps c k ps item got s
    · split
      · exact nextFrame_keeps c k ps item got s
      · exact waitFor_keeps c _ s

theorem bindItems_keeps (c : Call) (k : Series) (p : Payload) (ps : List Payload) (item : Nat) (got : List (MKey × MVal))
    (s : State) : Keeps s (bindItems c k p ps item got s) :=
  (fdLoadOp_fdOnly (some p) 1 s).keeps.trans (nextItem_keeps c k _ ps item got _)

theorem itemStrobe_keeps (c : Call) (k : Series) (n : Nat) (ps : List Payload) (item : Nat) (got : List (MKey × MVal))
    (s : State) : Keeps s (itemStrobe c k n ps item got s) := by
  have h := (field_fdOnly (seriesDescriptor k) s).keeps
  unfold itemStrobe
  split <;> (rename_i e; rw [e] at h)
  · exact h.trans (returnCall_keeps _ _)
  · exact h.trans (nextItem_keeps c k n ps _ _ _)

theorem interpret_keeps (k : Interp) (ps : List Payload) (s : State) : Keeps s (interpret k ps s) := by
  unfold interpret
  split
  · exact returnCall_keeps _ s
  · split
    · exact nextFrame_keeps _ _ _ _ _ s
    · exact waitFor_keeps _ _ s

/-! ## The sequencer (42 R115, R116, R120) -/

theorem returnPayloads_keeps (c : Call) (ps : List Payload) (s : State) : Keeps s (returnPayloads c ps s) := by
  cases c with
  | interp k => exact interpret_keeps k ps s
  | _ => exact returnCall_keeps _ s

theorem abandon_keeps (c : Call) (s : State) : Keeps s (abandon c s) := by
  unfold abandon
  split
  · exact (closeExchange_keeps s).trans (returnPayloads_keeps c [] _)
  · exact returnPayloads_keeps c [] s

theorem sendRequest_keeps (c : Call) (s : State) : Keeps s (sendRequest c s) := by
  unfold sendRequest
  split
  · exact (takeCause_keeps _ s).trans (abandon_keeps c _)
  · exact waitFor_keeps c _ s

theorem startAttempt_keeps (c : Call) (s : State) : Keeps s (startAttempt c s) := by
  unfold startAttempt
  split
  · exact (setAttempt_keeps _ s).trans (sendRequest_keeps c _)
  · exact sendRequest_keeps c s

theorem flushStrobe_keeps (c : Call) (f : Frame) (s : State) : Keeps s (flushStrobe c f s) :=
  (flushLink_keeps s).trans (waitFor_keeps c _ _)

theorem loadStrobe_keeps (c : Call) (f : Frame) (s : State) : Keeps s (loadStrobe c f s) := by
  unfold loadStrobe
  split
  · exact (takeCause_keeps .opBusy s).trans (abandon_keeps c _)
  · exact (loadTx_keeps f s).trans (waitFor_keeps c _ _)

theorem armStrobe_keeps (c : Call) (s : State) : Keeps s (armStrobe c s) := by
  unfold armStrobe
  split
  · exact (takeCause_keeps .opBusy s).trans (abandon_keeps c _)
  · exact (armRx_keeps _ s).trans (waitFor_keeps c _ _)

theorem endAttempt_keeps (c : Call) (s : State) : Keeps s (endAttempt c s) := by
  unfold endAttempt
  split
  · split
    · exact (closeExchange_keeps s).trans (returnPayloads_keeps c _ _)
    · split
      · exact waitFor_keeps c _ s
      · exact (takeCause_keeps .exRetriesExhausted s).trans (returnPayloads_keeps c [] _)
  · exact returnPayloads_keeps c _ s

theorem nextRead_keeps (c : Call) (s : State) : Keeps s (nextRead c s) := by
  unfold nextRead
  split
  · exact waitFor_keeps c _ s
  · exact endAttempt_keeps c s

theorem endRead_keeps (d : Duration) (s : State) : Keeps s (endRead d s) := record_keeps _ _

theorem judgeRead_keeps (c : Call) (s : State) : Keeps s (judgeRead c s) := by
  unfold judgeRead
  split
  · exact ((endRead_keeps _ s).trans (setCollected_keeps _ _)).trans (nextRead_keeps c _)
  · exact (endRead_keeps _ s).trans (nextRead_keeps c _)
  · exact (endRead_keeps _ s).trans (nextRead_keeps c _)
  all_goals exact (endRead_keeps _ s).trans (endAttempt_keeps c _)

theorem afterSend_keeps (c : Call) (s : State) : Keeps s (afterSend c s) := by
  unfold afterSend
  split
  · exact waitFor_keeps c _ s
  · exact returnCall_keeps _ s

theorem afterDelay_keeps (c : Call) (s : State) : Keeps s (afterDelay c s) :=
  ((record_keeps _ s).trans (setCollected_keeps [] _)).trans (nextRead_keeps c _)

theorem afterPace_keeps (c : Call) (s : State) : Keeps s (afterPace c s) := by
  cases c with
  | sleep d => exact (record_keeps _ s).trans (returnCall_keeps _ _)
  | attempt => exact afterDelay_keeps .attempt s
  | exchange => exact afterDelay_keeps .exchange s
  | interp k => exact afterDelay_keeps (.interp k) s
  | _ => exact returnCall_keeps _ s

theorem afterRead_keeps (c : Call) (s : State) : Keeps s (afterRead c s) := by
  cases c with
  | read t => exact (endRead_keeps t s).trans (returnCall_keeps _ _)
  | attempt => exact judgeRead_keeps .attempt s
  | exchange => exact judgeRead_keeps .exchange s
  | interp k => exact judgeRead_keeps (.interp k) s
  | _ => exact returnCall_keeps _ s

theorem afterBackoff_keeps (c : Call) (s : State) : Keeps s (afterBackoff c s) :=
  (record_keeps _ s).trans (startAttempt_keeps c _)

theorem startExchange_keeps (c : Call) (q : ExReq) (s : State) : Keeps s (startExchange c q s) := by
  have h := (latchRequest_keeps q s).trans (setAttempt_keeps 0 _)
  unfold startExchange
  split
  · exact (h.trans (takeCause_keeps .exRetriesExhausted _)).trans (returnPayloads_keeps c [] _)
  · exact h.trans (startAttempt_keeps c _)

/-! ## Events (60 R190) -/

theorem settle_keeps (s : State) : Keeps s (settle s) := by
  unfold settle
  repeat' split
  all_goals first
    | exact Keeps.refl s
    | exact afterSend_keeps _ s
    | exact afterRead_keeps _ s

theorem wake_keeps (s : State) : Keeps s (wake s) := by
  unfold wake
  repeat' split
  all_goals first
    | exact Keeps.refl s
    | exact afterPace_keeps _ s
    | exact afterBackoff_keeps _ s

/-- What one event of the link or the clock can do. -/
theorem lineEvent_keeps (s : State) : Keeps s (lineEvent s) := by
  unfold lineEvent
  split
  · exact (sendByte_keeps s).trans (settle_keeps _)
  · split
    · exact (receiveNext_keeps s).trans (settle_keeps _)
    · exact wake_keeps s

/-- What one event can do: only a GET_STATUS in progress writes the Device State. -/
structure EventMoves (s t : State) : Prop extends Grows s t where
  dev : t.dev = s.dev ∨ ∃ p, s.owner = some ⟨.interp .status, p⟩

theorem Keeps.event {s t : State} (h : Keeps s t) : EventMoves s t := ⟨h.toGrows, Or.inl h.dev⟩

theorem Moves.event {s t : State} {w : Wait} (h : Moves w.call s t) (k : s.owner = some w) : EventMoves s t := by
  refine ⟨h.toGrows, ?_⟩
  by_cases e : w.call = .interp .status
  · obtain ⟨c, p⟩ := w
    subst e
    exact Or.inr ⟨p, k⟩
  · exact Or.inl (h.dev e)

theorem environment_moves (s : State) : EventMoves s (environment s) := by
  unfold environment
  split
  · exact (lineEvent_keeps s).event
  · rename_i w hw
    split
    · exact (flushStrobe_keeps _ _ s).event
    · exact (loadStrobe_keeps _ _ s).event
    · exact (armStrobe_keeps _ s).event
    · exact (bindSchema_moves _ _ _ s).event hw
    · exact (fieldStrobe_moves _ _ _ _ s).event hw
    · exact (bindItems_keeps _ _ _ _ _ _ s).event
    · exact (itemStrobe_keeps _ _ _ _ _ _ s).event
    all_goals exact (lineEvent_keeps s).event

end Sys2Proof.Machine
end

