-- ==== Sys2Proof/Laws/Decoding.lean ====
section
/-! SUPPORT. The calls made of field decoder strobes, one event each, come to what their pseudocode comes to as one function:
DECODE_FIELDS (43_field_decoder.md R138), REASSEMBLE (44_interpreters.md R156), an interpreter's decoding (R150). -/

namespace Sys2Proof.Machine

/-! ## The field decoder does not look at the owner -/

theorem takeCause_wait (r : Raise) (c : Call) (p : Phase) (s : State) :
    takeCause r (waitFor c p s) = waitFor c p (takeCause r s) := by cases r <;> rfl

theorem field_wait (d : Byte) (c : Call) (p : Phase) (s : State) :
    field d (waitFor c p s) = (waitFor c p (field d s).1, (field d s).2) := by
  simp only [field, waitFor_fd, takeCause_wait]
  split
  · rfl
  · split
    · rfl
    · split <;> rfl

theorem fdLoadOp_wait (x : Option Payload) (n : Nat) (c : Call) (p : Phase) (s : State) :
    fdLoadOp x n (waitFor c p s) = (waitFor c p (fdLoadOp x n s).1, (fdLoadOp x n s).2) := by
  cases x with
  | none => rfl
  | some x =>
    simp only [fdLoadOp]
    split <;> rfl

theorem returnFields_wait (c c' : Call) (vs : List FieldValue) (p : Phase) (s : State) :
    returnFields c vs (waitFor c' p s) = returnFields c vs s := by
  cases c with
  | interp k =>
    cases k with
    | status =>
      simp only [returnFields, interpValues, statusCounts]
      split <;> rfl
    | _ => rfl
  | _ => rfl

theorem nextField_wait (c c' : Call) (ds : List Byte) (got : List FieldValue) (p : Phase) (s : State) :
    nextField c ds got (waitFor c' p s) = nextField c ds got s := by
  cases ds with
  | nil => exact returnFields_wait c c' got p s
  | cons d ds => rfl

theorem nextFrame_wait (c c' : Call) (k : Series) (ps : List Payload) (item : Nat) (got : List (MKey × MVal)) (p : Phase)
    (s : State) : nextFrame c k ps item got (waitFor c' p s) = nextFrame c k ps item got s := by
  induction ps with
  | nil => rfl
  | cons q ps ih =>
    simp only [nextFrame, ih]
    split <;> rfl

theorem nextItem_wait (c c' : Call) (k : Series) (n : Nat) (ps : List Payload) (item : Nat) (got : List (MKey × MVal))
    (p : Phase) (s : State) : nextItem c k n ps item got (waitFor c' p s) = nextItem c k n ps item got s := by
  cases n with
  | zero => exact nextFrame_wait c c' k ps item got p s
  | succ n =>
    simp only [nextItem, nextFrame_wait, waitFor_fd, waitFor_dev]
    split
    · rfl
    · split <;> rfl

/-! ## DECODE_FIELDS -/

/-- The schema's fields, one event each, come to what `fields` comes to (R138). -/
theorem nextField_events (c : Call) (ds : List Byte) (got : List FieldValue) (s : State) :
    ∃ n, events n (nextField c ds got s) =
      match fields ds s with
      | (t, none) => returnCall none t
      | (t, some vs) => returnFields c (got ++ vs) t := by
  induction ds generalizing got s with
  | nil => exact ⟨0, by simp [events, nextField, fields]⟩
  | cons d ds ih =>
    have e : environment (nextField c (d :: ds) got s) = fieldStrobe c d ds got (waitFor c (.decode d ds got) s) := rfl
    rw [fieldStrobe, field_wait] at e
    rcases h : field d s with ⟨t, _ | v⟩
    · rw [h] at e
      refine ⟨1, ?_⟩
      rw [events, events, e, fields, h]
      rfl
    · rw [h] at e
      simp only [nextField_wait] at e
      obtain ⟨n, k⟩ := ih (got ++ [v]) t
      refine ⟨n + 1, ?_⟩
      rw [events, e, k, fields, h]
      dsimp only
      rcases fields ds t with ⟨u, _ | vs⟩
      · rfl
      · simp

/-- DECODE_FIELDS's events after its first (R138). -/
theorem bindSchema_events (c : Call) (x : Option Payload) (ds : List Byte) (s : State) :
    ∃ n, events n (bindSchema c x ds s) =
      match decodeFieldsOp x ds s with
      | (t, none) => returnCall none t
      | (t, some vs) => returnFields c vs t := by
  unfold bindSchema decodeFieldsOp
  rcases fdLoadOp x 0 s with ⟨t, _ | _⟩
  · exact ⟨0, rfl⟩
  · exact nextField_events c ds [] t

theorem bindSchema_wait (c c' : Call) (x : Option Payload) (ds : List Byte) (p : Phase) (s : State) :
    bindSchema c x ds (waitFor c' p s) = bindSchema c x ds s := by
  simp only [bindSchema, fdLoadOp_wait]
  rcases fdLoadOp x 0 s with ⟨t, _ | _⟩
  · rfl
  · exact nextField_wait c c' ds [] p t

/-! ## REASSEMBLE -/

/-- The fields of one frame, one event each, come to what `takeItems` comes to (R156). -/
theorem nextItem_events (c : Call) (k : Series) (n : Nat) (ps : List Payload) (item : Nat) (got : List (MKey × MVal))
    (s : State) (h : s.fd.state = .loaded) :
    ∃ m, events m (nextItem c k n ps item got s) =
      match takeItems k (seriesCount s.dev k) n item s with
      | (t, entries, next) => nextFrame c k ps next (got ++ entries) t := by
  induction n generalizing item got s with
  | zero => exact ⟨0, by simp [events, nextItem, takeItems]⟩
  | succ n ih =>
    unfold nextItem takeItems
    by_cases h1 : payloadLen < s.fd.cur + seriesWidth k
    · exact ⟨0, by simp [h1, events]⟩
    · by_cases h2 : seriesCount s.dev k < item
      · exact ⟨0, by simp [h1, h2, events]⟩
      · have hf := field_typed (seriesDescriptor_type k) h (Nat.not_lt.1 h1)
        generalize ht : retireField (seriesDescriptor k) (typedValue s.fd.buf s.fd.cur (seriesWidth k, true, false))
          (seriesWidth k) s = t at hf
        generalize typedValue s.fd.buf s.fd.cur (seriesWidth k, true, false) = v at hf
        have hd : t.dev = s.dev := by rw [← ht]; rfl
        have e : environment (waitFor c (.items k n ps item got) s) =
            nextItem c k n ps (item + 1) (got ++ [(.item item, seriesValue k v)]) t := by
          show itemStrobe c k n ps item got (waitFor c (.items k n ps item got) s) = _
          rw [itemStrobe, field_wait, hf]
          exact nextItem_wait c c k n ps _ _ _ t
        obtain ⟨m, g⟩ := ih (item + 1) (got ++ [(.item item, seriesValue k v)]) t (by rw [← ht]; exact h)
        refine ⟨m + 1, ?_⟩
        simp only [h1, h2, if_false, hf]
        rw [events, e, g, hd]
        simp

/-- REASSEMBLE's frames, one strobe an event, come to what `reassembleLoop` comes to (R156). -/
theorem nextFrame_events (c : Call) (k : Series) (ps : List Payload) (item : Nat) (got : List (MKey × MVal)) (s : State) :
    ∃ m, events m (nextFrame c k ps item got s) =
      returnCall (some (.measurement (.map (got ++ (reassembleLoop k (seriesCount s.dev k) ps item s).2))))
        (reassembleLoop k (seriesCount s.dev k) ps item s).1 := by
  induction ps generalizing item got s with
  | nil => exact ⟨0, by simp [events, nextFrame, reassembleLoop]⟩
  | cons p ps ih =>
    unfold nextFrame reassembleLoop
    by_cases h : p[0] = seqInvalid
    · simp only [h, if_true]
      exact ih item got s
    · simp only [h, if_false]
      have hl : (fdLoadOp (some p) 1 s).1 = loadFd p 1 s := by simp [fdLoadOp, payloadLen]
      have e : environment (waitFor c (.bindItems k p ps item got) s) =
          nextItem c k (seriesPerFrame k) ps item got (loadFd p 1 s) := by
        show bindItems c k p ps item got (waitFor c (.bindItems k p ps item got) s) = _
        rw [bindItems, fdLoadOp_wait, nextItem_wait, hl]
      obtain ⟨m1, g1⟩ := nextItem_events c k (seriesPerFrame k) ps item got (loadFd p 1 s) rfl
      rw [show seriesCount (loadFd p 1 s).dev k = seriesCount s.dev k from rfl] at g1
      have hd := (takeItems_fdOnly k (seriesCount s.dev k) (seriesPerFrame k) item (loadFd p 1 s)).keeps.dev
      rw [hl]
      rcases ht : takeItems k (seriesCount s.dev k) (seriesPerFrame k) item (loadFd p 1 s) with ⟨t, entries, next⟩
      rw [ht] at g1 hd
      obtain ⟨m2, g2⟩ := ih next (got ++ entries) t
      refine ⟨m1 + m2 + 1, ?_⟩
      rw [events, e, events_add, g1]
      simp only
      rw [g2, show t.dev = s.dev from hd]
      simp

/-! ## An interpreter's decoding (R150) -/

/-- An interpreter's decoding, one strobe an event, comes to its result. -/
theorem interpret_events (k : Interp) (ps : List Payload) (s : State) :
    ∃ n, events n (interpret k ps s) =
      returnCall ((interpResult k ps s).2.map .measurement) (interpResult k ps s).1 := by
  cases ps with
  | nil => exact ⟨0, rfl⟩
  | cons p ps =>
    unfold interpret interpResult
    dsimp only
    cases h : interpSeries k with
    | some r => exact nextFrame_events (.interp k) r (p :: ps) 1 [] s
    | none =>
      obtain ⟨n, e⟩ := bindSchema_events (.interp k) (some p) (interpSchema k) s
      refine ⟨n + 1, ?_⟩
      dsimp only
      rw [events, show environment (waitFor (.interp k) (.bind p (interpSchema k)) s) =
        bindSchema (.interp k) (some p) (interpSchema k) (waitFor (.interp k) (.bind p (interpSchema k)) s) from rfl,
        bindSchema_wait, e]
      rcases decodeFieldsOp (some p) (interpSchema k) s with ⟨t, _ | vs⟩ <;> rfl

end Sys2Proof.Machine
end

