-- ==== Sys2Proof/Laws/Episodes.lean ====
section
/-! SUPPORT. The sequencer's events, one after another, come to what its pseudocode comes to on the oracle's answers
(42_exchange_engine.md R115, R116, R120; 41_frame_codec.md R99, R100): first COLLECT, then SEND and PACE, then the retries. -/

namespace Sys2Proof.Machine

theorem validateFrame_payload {f : Frame} {e : Byte} {p : Payload} (h : validateFrame f e = .ok p) : p = framePayload f := by
  unfold validateFrame at h
  split at h
  · cases h
  · split at h
    · exact (Except.ok.inj h).symm
    · cases h

/-- VALIDATE rejects for one of two causes. -/
theorem validateFrame_error {f : Frame} {e : Byte} {c : Cause} (h : validateFrame f e = .error c) :
    c = .rxCmdMismatch ∨ c = .rxCsumFail := by
  unfold validateFrame at h
  split at h
  · exact Or.inl (Except.error.inj h).symm
  · split at h
    · cases h
    · exact Or.inr (Except.error.inj h).symm

theorem writtenBytes_append (a b : List LinkEvent) : writtenBytes (a ++ b) = writtenBytes a ++ writtenBytes b := by
  induction a with
  | nil => rfl
  | cons x a ih => cases x <;> simp [writtenBytes, ih]

/-- From `s` the pseudocode has come to `e`, and the machine to `t`: what both say of the link and LAST_CAUSE agrees, and the
rest of the machine is as it was, but for the framer, the validator and the sequencer's own registers. -/
structure Base (s t : State) (e : Episode) : Prop where
  cfg : t.cfg = s.cfg
  fd : t.fd = s.fd
  dev : t.dev = s.dev
  agenda : t.agenda = s.agenda
  draws : t.link.draws = s.link.draws
  history : t.link.history = s.link.history ++ e.events
  sent : t.link.sent = s.link.sent ++ writtenBytes e.events
  oracle : t.link.oracle = e.rest
  buffered : t.link.buffered = []
  cause : t.lastCause = e.cause
  req : t.ex.req = s.ex.req
  line : lineBusy t = false

theorem Base.trans {s t u : State} {d e : Episode} (h : Base s t d) (k : Base t u e) : Base s u (e.after d.events) :=
  ⟨k.cfg.trans h.cfg, k.fd.trans h.fd, k.dev.trans h.dev, k.agenda.trans h.agenda, k.draws.trans h.draws,
    by rw [k.history, h.history, List.append_assoc]; rfl,
    by rw [k.sent, h.sent, List.append_assoc, Episode.after, writtenBytes_append],
    k.oracle, k.buffered, k.cause, k.req.trans h.req, k.line⟩

/-- Nothing of `Base` looks at the owner, the returned value, the raises or the other registers of the sequencer. -/
theorem Base.of_eq {s t u : State} {e : Episode} (h : Base s t e) (h1 : u.cfg = t.cfg) (h2 : u.fd = t.fd)
    (h3 : u.dev = t.dev) (h4 : u.agenda = t.agenda) (h5 : u.link = t.link) (h6 : u.lastCause = t.lastCause)
    (h7 : u.ex.req = t.ex.req) (h8 : u.tx = t.tx) (h9 : u.rx = t.rx) : Base s u e := by
  constructor
  · rw [h1, h.cfg]
  · rw [h2, h.fd]
  · rw [h3, h.dev]
  · rw [h4, h.agenda]
  · rw [h5, h.draws]
  · rw [h5, h.history]
  · rw [h5, h.sent]
  · rw [h5, h.oracle]
  · rw [h5, h.buffered]
  · rw [h6, h.cause]
  · rw [h7, h.req]
  · simpa [lineBusy, txBusy, rxBusy, h8, h9] using h.line

theorem lineBusy_false {s : State} : lineBusy s = false ↔ s.tx.state = .idle ∧ s.rx.state ≠ .receiving := by
  cases h : s.tx.state <;> simp [lineBusy, txBusy, rxBusy, h]

theorem afterRead_attempt {c : Call} (h : c.runsAttempt = true) (s : State) : afterRead c s = judgeRead c s := by
  cases c <;> first | rfl | simp [Call.runsAttempt] at h

/-! ## The owner's own strobes (R115, 70 R221) -/

theorem environment_flush (c : Call) (f : Frame) (s : State) :
    environment (waitFor c (.flush f) s) = waitFor c (.load f) (flushLink s) := rfl

theorem environment_load (c : Call) (f : Frame) (s : State) (h : lineBusy s = false) :
    environment (waitFor c (.load f) s) = waitFor c .send (loadTx f s) := by
  show loadStrobe c f (waitFor c (.load f) s) = _
  rw [loadStrobe, if_neg (show ¬ lineBusy (waitFor c (.load f) s) = true by
    rw [show lineBusy (waitFor c (.load f) s) = lineBusy s from rfl, h]; exact Bool.false_ne_true)]
  rfl

theorem environment_arm (c : Call) (s : State) (h : lineBusy s = false) :
    environment (waitFor c .arm s) = waitFor c .collect (armRx s.ex.req.cmd s) := by
  show armStrobe c (waitFor c .arm s) = _
  rw [armStrobe, if_neg (show ¬ lineBusy (waitFor c .arm s) = true by
    rw [show lineBusy (waitFor c .arm s) = lineBusy s from rfl, h]; exact Bool.false_ne_true)]
  rfl

/-- The return of SLEEP in PACE, for an attempt. -/
theorem environment_pace {c : Call} (hc : c.runsAttempt = true) (s : State) (h : lineBusy s = false) :
    environment (waitFor c .pace s) = afterDelay c (waitFor c .pace s) := by
  rw [environment_rest (s := waitFor c .pace s) rfl h]
  cases c <;> first | rfl | simp [Call.runsAttempt] at hc

/-- The return of SLEEP in BACKOFF. -/
theorem environment_backoff (c : Call) (s : State) (h : lineBusy s = false) :
    environment (waitFor c .backoff s) = afterBackoff c (waitFor c .backoff s) :=
  environment_rest (s := waitFor c .backoff s) rfl h

/-- One read of an attempt, answered by `r`: the events up to the judgement, and the state that the judgement goes on from. -/
theorem read_judged (c : Call) (r : List Byte) (rest : List (List Byte)) (s : State) (hc : c.runsAttempt = true)
    (hl : lineBusy s = false) (hb : s.link.buffered = []) (hq : s.link.oracle = r :: rest) (hr : r.length ≤ 13) :
    ∃ n t,
      events n (waitFor c .collect (armRx s.ex.req.cmd s)) =
        (if r.length < 13 then endAttempt c t else nextRead c t) ∧
      t.cfg = s.cfg ∧ t.fd = s.fd ∧ t.dev = s.dev ∧ t.agenda = s.agenda ∧ t.link.draws = s.link.draws ∧
      t.link.history = s.link.history ++ [.read s.ex.req.readTimeout r] ∧ t.link.sent = s.link.sent ∧
      t.link.oracle = rest ∧ t.link.buffered = [] ∧
      t.lastCause = judgedCause s.lastCause (judgeAnswer r s.ex.req.cmd) ∧
      t.ex = { s.ex with collected := match judgeAnswer r s.ex.req.cmd with
        | .ok p => s.ex.collected ++ [p]
        | .error _ => s.ex.collected } ∧
      lineBusy t = false := by
  obtain ⟨hti, -⟩ := lineBusy_false.1 hl
  obtain ⟨n, t, h1, k⟩ := events_read r rest (waitFor c .collect (armRx s.ex.req.cmd s)) hti rfl rfl rfl hb rfl hq hr
    (by intro w hw; simp at hw; rw [← hw])
  have hx : (waitFor c .collect (armRx s.ex.req.cmd s)).rx.expect = s.ex.req.cmd := rfl
  have hst := k.state
  have hca := k.cause
  simp only [hx] at hst hca
  have ho : t.owner = some ⟨c, .collect⟩ := by rw [k.only]; rfl
  have hex : t.ex = s.ex := by rw [k.only]; rfl
  have htx : t.tx.state = .idle := by rw [k.only]; exact hti
  have hgo : rxDone t = true → settle t = judgeRead c t := by
    intro h
    unfold settle
    rw [ho]
    simp [h, afterRead_attempt hc]
  have frame : ∀ v : State, v = endRead s.ex.req.readTimeout t ∨
      (∃ ps, v = setCollected ps (endRead s.ex.req.readTimeout t)) →
      v.cfg = s.cfg ∧ v.fd = s.fd ∧ v.dev = s.dev ∧ v.agenda = s.agenda ∧ v.link.draws = s.link.draws ∧
      v.link.history = s.link.history ++ [.read s.ex.req.readTimeout r] ∧ v.link.sent = s.link.sent ∧
      v.link.oracle = rest ∧ v.link.buffered = [] ∧
      v.lastCause = judgedCause s.lastCause (judgeAnswer r s.ex.req.cmd) ∧ v.rx = t.rx ∧ v.tx = t.tx := by
    have e1 : t.cfg = s.cfg := by rw [k.only]; rfl
    have e2 : t.fd = s.fd := by rw [k.only]; rfl
    have e3 : t.dev = s.dev := by rw [k.only]; rfl
    have e4 : t.agenda = s.agenda := by rw [k.only]; rfl
    intro v hv
    rcases hv with rfl | ⟨ps, rfl⟩ <;>
      exact ⟨e1, e2, e3, e4, k.draws, by simp [endRead, k.history, k.bytes], k.sent, k.oracle, k.buffered, hca, rfl, rfl⟩
  have idle : ∀ v : State, v.rx = t.rx → v.tx = t.tx → rxDone t = true → lineBusy v = false := by
    intro v h1 h2 h3
    rw [lineBusy_false, h1, h2]
    refine ⟨htx, ?_⟩
    intro h
    simp [rxDone, h, RxState.isDone] at h3
  rcases hj : judgeAnswer r s.ex.req.cmd with x | p
  · have hcase : x = .rxNoData ∧ r.length < 13 ∨ (x = .rxCmdMismatch ∨ x = .rxCsumFail) ∧ ¬ r.length < 13 := by
      unfold judgeAnswer at hj
      split at hj
      · rename_i h; exact Or.inl ⟨(Except.error.inj hj).symm, h⟩
      · rename_i h; exact Or.inr ⟨validateFrame_error hj, h⟩
    rw [hj] at hst
    have hd : rxDone t = true := by
      rcases hcase with ⟨rfl, -⟩ | ⟨rfl | rfl, -⟩ <;> simp [rxDone, hst, judgedState, RxState.isDone]
    obtain ⟨f1, f2, f3, f4, f5, f6, f7, f8, f9, f10, f11, f12⟩ := frame _ (Or.inl rfl)
    refine ⟨n, endRead s.ex.req.readTimeout t, ?_, f1, f2, f3, f4, f5, f6, f7, f8, f9, by rw [f10, hj], ?_,
      idle _ f11 f12 hd⟩
    · rw [h1, hgo hd]
      rcases hcase with ⟨rfl, h⟩ | ⟨rfl | rfl, h⟩ <;> simp [judgeRead, hst, judgedState, hex, h]
    · simp [endRead, hex]
  · have hn : ¬ r.length < 13 := by
      unfold judgeAnswer at hj
      split at hj
      · cases hj
      · rename_i h; exact h
    have hv : validateFrame (frameOf r) s.ex.req.cmd = .ok p := by
      unfold judgeAnswer at hj
      rwa [if_neg hn] at hj
    rw [hj] at hst
    have hd : rxDone t = true := by simp [rxDone, hst, judgedState, RxState.isDone]
    have hp : framePayload t.rx.buf = p := by
      rw [k.full (by omega), validateFrame_payload hv]
    obtain ⟨f1, f2, f3, f4, f5, f6, f7, f8, f9, f10, f11, f12⟩ := frame _ (Or.inr ⟨t.ex.collected ++ [framePayload t.rx.buf], rfl⟩)
    refine ⟨n, setCollected (t.ex.collected ++ [framePayload t.rx.buf]) (endRead s.ex.req.readTimeout t), ?_, f1, f2, f3, f4,
      f5, f6, f7, f8, f9, by rw [f10, hj], ?_, idle _ f11 f12 hd⟩
    · rw [h1, hgo hd]
      simp [judgeRead, hst, judgedState, hex, hn]
    · simp [endRead, hex, hp]

/-- From `start`, COLLECT comes on the answers `o` to what R115's loop comes to from `s`: where the loop ends, ENDATT; where the
answers run out inside it, the read that has none. -/
def Collects (c : Call) (o : List (List Byte)) (s start : State) : Prop :=
  ∃ n t, Base s t (collectSpec s.ex.req o s.ex.collected s.lastCause) ∧
    t.ex = { s.ex with collected := (collectSpec s.ex.req o s.ex.collected s.lastCause).got } ∧
    events n start =
      if (collectSpec s.ex.req o s.ex.collected s.lastCause).ended then endAttempt c t
      else waitFor c .collect (armRx s.ex.req.cmd t)

/-- The loop's head: another read, armed by an event of its own, or the loop's end. -/
theorem collects_next (c : Call) (o : List (List Byte)) (s : State) (hl : lineBusy s = false) (hb : s.link.buffered = [])
    (hq : s.link.oracle = o)
    (h : s.ex.collected.length < s.ex.req.maxResponses → Collects c o s (waitFor c .collect (armRx s.ex.req.cmd s))) :
    Collects c o s (nextRead c s) := by
  by_cases hm : s.ex.collected.length < s.ex.req.maxResponses
  · obtain ⟨n, t, b, hx, e⟩ := h hm
    refine ⟨n + 1, t, b, hx, ?_⟩
    rw [nextRead, if_pos hm, events, environment_arm c s hl]
    exact e
  · have hc : collectSpec s.ex.req o s.ex.collected s.lastCause = ⟨s.ex.collected, s.lastCause, [], o, true, 0⟩ := by
      cases o with
      | nil => simp [collectSpec, Nat.le_of_not_lt hm]
      | cons r o => rw [collectSpec, if_neg hm]
    refine ⟨0, s, ?_, ?_, ?_⟩ <;> rw [hc]
    · exact ⟨rfl, rfl, rfl, rfl, rfl, by simp, by simp [writtenBytes], hq, hb, rfl, rfl, hl⟩
    · rw [nextRead, if_neg hm]
      rfl

/-- COLLECT from an armed read, with room for its payload (R115 step 3). -/
theorem collects_armed (c : Call) (o : List (List Byte)) (s : State) (hc : c.runsAttempt = true)
    (h : ∀ r ∈ o, r.length ≤ 13) (hl : lineBusy s = false) (hb : s.link.buffered = []) (hq : s.link.oracle = o)
    (hm : s.ex.collected.length < s.ex.req.maxResponses) : Collects c o s (waitFor c .collect (armRx s.ex.req.cmd s)) := by
  induction o generalizing s with
  | nil =>
    refine ⟨0, s, ⟨rfl, rfl, rfl, rfl, rfl, by simp [collectSpec], by simp [collectSpec, writtenBytes], by simp [collectSpec, hq],
      hb, rfl, rfl, hl⟩, rfl, ?_⟩
    simp [events, collectSpec, Nat.not_le.2 hm]
  | cons r o ih =>
    obtain ⟨n, t, e, f1, f2, f3, f4, f5, f6, f7, f8, f9, f10, f11, f12⟩ := read_judged c r o s hc hl hb hq (h r (by simp))
    by_cases hr : r.length < 13
    · have hj : judgeAnswer r s.ex.req.cmd = .error .rxNoData := by rw [judgeAnswer, if_pos hr]
      have hcs : collectSpec s.ex.req (r :: o) s.ex.collected s.lastCause =
          ⟨s.ex.collected, .rxNoData, [.read s.ex.req.readTimeout r], o, true, 0⟩ := by
        rw [collectSpec, if_pos hm, if_pos (show r.length < frameLen from hr)]
      unfold Collects
      rw [hcs]
      refine ⟨n, t, ⟨f1, f2, f3, f4, f5, f6, by simp [f7, writtenBytes], f8, f9, by rw [f10, hj]; rfl, by rw [f11], f12⟩, ?_, ?_⟩
      · rw [f11, hj]
      · rw [e, if_pos hr]
        rfl
    · have hj : judgeAnswer r s.ex.req.cmd = validateFrame (frameOf r) s.ex.req.cmd := by
        rw [judgeAnswer, if_neg (show ¬ r.length < frameLen from hr)]
      have hreq : t.ex.req = s.ex.req := by rw [f11]
      obtain ⟨m, u, b, hx, g⟩ := collects_next c o t f12 f9 f8 (ih t (fun x hx => h x (by simp [hx])) f12 f9 f8)
      have hcs : collectSpec s.ex.req (r :: o) s.ex.collected s.lastCause =
          (collectSpec t.ex.req o t.ex.collected t.lastCause).after [.read s.ex.req.readTimeout r] := by
        rw [collectSpec, if_pos hm, if_neg (show ¬ r.length < frameLen from hr), f10, f11, hj]
        cases validateFrame (frameOf r) s.ex.req.cmd <;> rfl
      have one : Base s t ⟨[], t.lastCause, [.read s.ex.req.readTimeout r], o, true, 0⟩ :=
        ⟨f1, f2, f3, f4, f5, f6, by simp [f7, writtenBytes], f8, f9, rfl, hreq, f12⟩
      unfold Collects
      rw [hcs]
      refine ⟨n + m, u, one.trans b, ?_, ?_⟩
      · rw [hx, f11]
        rfl
      · rw [events_add, e, if_neg hr, g, hreq]
        rfl

/-- COLLECT from its start (R115 step 3). -/
theorem collect_events (c : Call) (o : List (List Byte)) (s : State) (hc : c.runsAttempt = true)
    (h : ∀ r ∈ o, r.length ≤ 13) (hl : lineBusy s = false) (hb : s.link.buffered = []) (hq : s.link.oracle = o) :
    Collects c o s (nextRead c s) :=
  collects_next c o s hl hb hq (collects_armed c o s hc h hl hb hq)

/-- SEND and PACE (R115 steps 1 and 2): the frame is sent, the owner paces, and COLLECT begins with nothing collected. -/
theorem send_events (c : Call) (f : Frame) (s : State) (hc : c.runsAttempt = true) (hl : lineBusy s = false)
    (hf : encodeFrame s.cfg.addr s.ex.req.cmd s.ex.req.extra = some f) :
    ∃ n t, events n (sendRequest c s) = nextRead c t ∧ t.ex = { s.ex with collected := [] } ∧
      Base s t ⟨[], s.lastCause, [.flush, .write f, .sleep s.ex.req.interCommandDelay], s.link.oracle, true, 0⟩ := by
  obtain ⟨hti, hri⟩ := lineBusy_false.1 hl
  have h1 : sendRequest c s = waitFor c (.flush f) s := by rw [sendRequest, hf]
  have h2 : environment (waitFor c (.load f) (flushLink s)) = loadTx f (waitFor c .send (flushLink s)) :=
    environment_load c f (flushLink s) hl
  have h3 := events_sent f (waitFor c .send (flushLink s)) (by intro w hw; simp at hw; rw [← hw])
  have h4 : settle { waitFor c .send (flushLink s) with
      tx := ⟨f, 13, .idle⟩
      link := { (waitFor c .send (flushLink s)).link with
        sent := (waitFor c .send (flushLink s)).link.sent ++ f.toList
        history := (waitFor c .send (flushLink s)).link.history ++ [.write f] } } =
      waitFor c .pace { s with
        tx := ⟨f, 13, .idle⟩
        link := { s.link with
          buffered := [], sent := s.link.sent ++ f.toList, history := s.link.history ++ [.flush] ++ [.write f] } } := by
    simp only [settle, waitFor, setRet, setOwner, flushLink, record, setBuffered, txBusy, afterSend, hc]
    rfl
  refine ⟨2 + (13 + 1), setCollected [] (record (.sleep s.ex.req.interCommandDelay) (waitFor c .pace { s with
        tx := ⟨f, 13, .idle⟩
        link := { s.link with
          buffered := [], sent := s.link.sent ++ f.toList, history := s.link.history ++ [.flush] ++ [.write f] } })), ?_,
      rfl, ?_⟩
  · rw [h1, events_add]
    show events 14 (environment (environment (waitFor c (.flush f) s))) = _
    rw [environment_flush, h2, show (14 : Nat) = 13 + 1 from rfl, events_add, h3, h4]
    exact environment_pace hc { s with
        tx := ⟨f, 13, .idle⟩
        link := { s.link with
          buffered := [], sent := s.link.sent ++ f.toList, history := s.link.history ++ [.flush] ++ [.write f] } }
      (lineBusy_false.2 ⟨rfl, hri⟩)
  · exact ⟨rfl, rfl, rfl, rfl, rfl, by simp [waitFor, setRet, setOwner, record],
      by simp [waitFor, setRet, setOwner, record, writtenBytes], rfl, rfl, rfl, rfl, lineBusy_false.2 ⟨rfl, hri⟩⟩

/-- What the events of a call lead to: its return where the pseudocode has ended, its blocked read where it has not. -/
def Leads (c : Call) (s : State) (e : Episode) (u : State) : Prop :=
  ∃ t, Base s t e ∧ t.ex.collected = e.got ∧ (c.runsExchange = false → t.ex.state = s.ex.state ∧ t.ex.attempt = s.ex.attempt) ∧
    if e.ended then
      u = returnPayloads c e.got t ∧ (c.runsExchange = true → t.ex.state = .idle ∧ t.ex.attempt = 0)
    else
      u = waitFor c .collect (armRx s.ex.req.cmd t) ∧
        (c.runsExchange = true → t.ex.state = .running ∧ t.ex.attempt + e.left = s.cfg.retryCount)

theorem Leads.after {c : Call} {s t u : State} {d e : Episode} (hc : c.runsExchange = true) (h : Base s t d)
    (k : Leads c t e u) : Leads c s (e.after d.events) u := by
  obtain ⟨v, b, hg, -, g⟩ := k
  refine ⟨v, h.trans b, hg, fun x => absurd hc (by rw [x]; exact Bool.false_ne_true), ?_⟩
  rw [h.req, h.cfg] at g
  exact g

/-- ATTEMPT alone (R115). -/
theorem attempt_events (f : Frame) (s : State) (hl : lineBusy s = false)
    (h : ∀ r ∈ s.link.oracle, r.length ≤ 13) (hf : encodeFrame s.cfg.addr s.ex.req.cmd s.ex.req.extra = some f) :
    ∃ n u, events n (startAttempt .attempt s) = u ∧ Leads .attempt s (attemptSpec s.ex.req f s.link.oracle s.lastCause) u := by
  obtain ⟨n, t, e1, e2, b⟩ := send_events .attempt f s rfl hl hf
  obtain ⟨m, v, b2, e3, e4⟩ := collect_events .attempt s.link.oracle t rfl h b.line b.buffered b.oracle
  have e5 : collectSpec t.ex.req s.link.oracle t.ex.collected t.lastCause = collectSpec s.ex.req s.link.oracle [] s.lastCause := by
    rw [b.req, b.cause, e2]
  rw [e5] at b2 e3 e4
  refine ⟨n + m, _, rfl, v, b.trans b2, by rw [e3]; rfl, fun _ => by rw [e3, e2]; exact ⟨rfl, rfl⟩, ?_⟩
  rw [show startAttempt .attempt s = sendRequest .attempt s from rfl, events_add, e1, e4]
  split
  · rename_i he
    rw [if_pos (show (collectSpec s.ex.req s.link.oracle [] s.lastCause).ended = true from he)]
    refine ⟨?_, fun x => absurd x (by decide)⟩
    rw [show endAttempt .attempt v = returnPayloads .attempt v.ex.collected v from rfl, e3]
    rfl
  · rename_i he
    rw [if_neg (show ¬ (collectSpec s.ex.req s.link.oracle [] s.lastCause).ended = true from he)]
    exact ⟨by rw [b.req], fun x => absurd x (by decide)⟩

/-- An EXCHANGE with `n` attempts left comes from the start of its next attempt to what R116 comes to. -/
def FromStart (c : Call) (f : Frame) (n : Nat) : Prop :=
  ∀ s : State, lineBusy s = false → (∀ r ∈ s.link.oracle, r.length ≤ 13) →
    encodeFrame s.cfg.addr s.ex.req.cmd s.ex.req.extra = some f → s.ex.attempt + n = s.cfg.retryCount →
    s.ex.state = .running →
    ∃ m u, events m (startAttempt c s) = u ∧
      Leads c s (exchangeSpec s.cfg.backoff s.ex.req f n s.link.oracle s.lastCause) u

/-- The same from the end of an attempt, or its blocked read, with `n` attempts left after it (R120, ENDATT). -/
def FromEnd (c : Call) (f : Frame) (n : Nat) : Prop :=
  ∀ (s t : State) (d : Episode), Base s t d → (∀ r ∈ d.rest, r.length ≤ 13) →
    encodeFrame s.cfg.addr s.ex.req.cmd s.ex.req.extra = some f → t.ex.attempt + n = s.cfg.retryCount →
    t.ex.state = .running → t.ex.collected = d.got →
    ∃ m u, events m (if d.ended then endAttempt c t else waitFor c .collect (armRx s.ex.req.cmd t)) = u ∧
      Leads c s (retrySpec s.cfg.backoff n (exchangeSpec s.cfg.backoff s.ex.req f n) d) u

theorem fromEnd {c : Call} (hc : c.runsExchange = true) {f : Frame} {n : Nat} (ih : 0 < n → FromStart c f n) :
    FromEnd c f n := by
  intro s t d b ho hf ha hr hg
  have hno : ∀ v : State, c.runsExchange = false → v.ex.state = s.ex.state ∧ v.ex.attempt = s.ex.attempt :=
    fun v x => absurd hc (by rw [x]; exact Bool.false_ne_true)
  unfold retrySpec
  by_cases he : d.ended = true
  · rw [if_neg (show ¬ d.ended = false by simp [he]), if_pos he]
    by_cases hn : d.got = []
    · rw [if_neg (by simpa using hn)]
      have e1 : endAttempt c t = if t.ex.attempt < t.cfg.retryCount then waitFor c .backoff t
          else returnPayloads c [] (takeCause .exRetriesExhausted t) := by
        rw [endAttempt, if_pos hc, if_neg (by simp [hg, hn])]
      rw [e1]
      by_cases h0 : n = 0
      · rw [if_neg (by rw [b.cfg]; omega), if_pos h0]
        refine ⟨0, _, rfl, takeCause .exRetriesExhausted t, ?_, hg, hno _, ?_⟩
        · exact ⟨b.cfg, b.fd, b.dev, b.agenda, b.draws, b.history, b.sent, b.oracle, b.buffered, rfl, b.req, b.line⟩
        · rw [if_pos (show d.ended = true from he)]
          exact ⟨by rw [show d.got = [] from hn]; rfl, fun _ => ⟨rfl, rfl⟩⟩
      · rw [if_pos (by rw [b.cfg]; omega), if_neg h0]
        have one : Base s (record (.sleep s.cfg.backoff) (waitFor c .backoff t))
            ⟨[], d.cause, d.events ++ [.sleep s.cfg.backoff], d.rest, true, 0⟩ :=
          ⟨b.cfg, b.fd, b.dev, b.agenda, b.draws,
            by simp [waitFor, setRet, setOwner, record, b.history],
            by simp [waitFor, setRet, setOwner, record, b.sent, writtenBytes_append, writtenBytes],
            b.oracle, b.buffered, b.cause, b.req, b.line⟩
        obtain ⟨m, u, e, k⟩ := ih (by omega) (record (.sleep s.cfg.backoff) (waitFor c .backoff t)) one.line
          (by rw [one.oracle]; exact ho) (by rw [one.cfg, one.req]; exact hf) (by rw [one.cfg]; exact ha) hr
        rw [one.cfg, one.req, one.oracle, one.cause] at k
        refine ⟨1 + m, u, ?_, Leads.after hc one k⟩
        rw [events_add]
        show events m (environment (waitFor c .backoff t)) = u
        rw [environment_backoff c t b.line, afterBackoff, show (waitFor c .backoff t).cfg = s.cfg from b.cfg]
        exact e
    · rw [if_pos (by simpa using hn)]
      refine ⟨0, _, rfl, closeExchange t, ?_, hg, hno _, ?_⟩
      · exact b.of_eq rfl rfl rfl rfl rfl rfl rfl rfl rfl
      · rw [if_pos he]
        refine ⟨?_, fun _ => ⟨rfl, rfl⟩⟩
        rw [events, endAttempt, if_pos hc, if_pos (by rw [hg]; exact hn), hg]
  · rw [if_pos (show d.ended = false by simpa using he), if_neg he]
    refine ⟨0, _, rfl, t, ⟨b.cfg, b.fd, b.dev, b.agenda, b.draws, b.history, b.sent, b.oracle, b.buffered, b.cause, b.req, b.line⟩, hg, hno _, ?_⟩
    rw [if_neg (show ¬ d.ended = true from he)]
    exact ⟨rfl, fun _ => ⟨hr, ha⟩⟩

theorem fromStart {c : Call} (hc : c.runsExchange = true) {f : Frame} {n : Nat} (ih : FromEnd c f n) :
    FromStart c f (n + 1) := by
  intro s hl ho hf ha hr
  have hca : c.runsAttempt = true := by cases c <;> first | rfl | simp [Call.runsExchange] at hc
  obtain ⟨n1, t, e1, e2, b⟩ := send_events c f (setAttempt (s.ex.attempt + 1) s) hca hl hf
  have b' : Base s t ⟨[], s.lastCause, [.flush, .write f, .sleep s.ex.req.interCommandDelay], s.link.oracle, true, 0⟩ :=
    ⟨b.cfg, b.fd, b.dev, b.agenda, b.draws, b.history, b.sent, b.oracle, b.buffered, b.cause, b.req, b.line⟩
  obtain ⟨m, v, b2, e3, e4⟩ := collect_events c s.link.oracle t hca ho b.line b.buffered b.oracle
  have e5 : collectSpec t.ex.req s.link.oracle t.ex.collected t.lastCause = collectSpec s.ex.req s.link.oracle [] s.lastCause := by
    rw [b'.req, b'.cause, e2]
  rw [e5] at b2 e3 e4
  have hrest : ∀ (o : List (List Byte)) (got : List Payload) (k : Cause), (∀ r ∈ o, r.length ≤ 13) →
      ∀ r ∈ (collectSpec s.ex.req o got k).rest, r.length ≤ 13 := by
    intro o
    induction o with
    | nil => intro got k _ r hr; simp [collectSpec] at hr
    | cons a o ih2 =>
      intro got k h
      have h' : ∀ r ∈ o, r.length ≤ 13 := fun r hr => h r (by simp [hr])
      unfold collectSpec
      split
      · split
        · exact h'
        · split <;> exact ih2 _ _ h'
      · exact h
  have key := ih s v ((collectSpec s.ex.req s.link.oracle [] s.lastCause).after
      [.flush, .write f, .sleep s.ex.req.interCommandDelay]) (b'.trans b2) (hrest _ _ _ ho) hf
    (by rw [e3, e2]; simp only [setAttempt_ex]; omega) (by rw [e3, e2]; exact hr) (by rw [e3]; rfl)
  obtain ⟨k, u, e6, e7⟩ := key
  refine ⟨n1 + (m + k), u, ?_, e7⟩
  rw [show startAttempt c s = sendRequest c (setAttempt (s.ex.attempt + 1) s) by rw [startAttempt, if_pos hc],
    events_add, e1, events_add, e4, b'.req]
  exact e6

/-- An EXCHANGE from the end of an attempt with any number of attempts left (R116). -/
theorem exchange_end {c : Call} (hc : c.runsExchange = true) (f : Frame) (n : Nat) : FromEnd c f n := by
  induction n with
  | zero => exact fromEnd hc (fun h => absurd h (Nat.lt_irrefl 0))
  | succ n ih => exact fromEnd hc (fun _ => fromStart hc ih)

/-- An EXCHANGE from its first attempt (R116). -/
theorem exchange_start {c : Call} (hc : c.runsExchange = true) (f : Frame) (n : Nat) : FromStart c f (n + 1) :=
  fromStart hc (exchange_end hc f n)

end Sys2Proof.Machine
end

