-- ==== Sys2Proof/Laws/Calls.lean ====
section
/-! SUPPORT. Whole calls of the sequencer: what an interpreter's result reads and writes (44_interpreters.md R150), and that the
events of an EXCHANGE's call lead to its pseudocode's end or blocked read (42_exchange_engine.md R116). -/

namespace Sys2Proof.Machine

theorem engaged_false {s : State} : engaged s = false ↔ s.ex.state = .idle ∧ s.owner = none := by
  cases h : s.ex.state <;> cases k : s.owner <;> simp [engaged, h, k]

/-! ## An interpreter's result -/

/-- A schema that fits, decoded from two states with the same field decoder. -/
theorem decodeFieldsOp_local {p : Payload} {ds : List Byte} {vs : List FieldValue} {a : Nat}
    (h : schemaSpec p ds 0 = some (vs, a)) {s t : State} (hf : s.fd = t.fd) :
    ∃ val kind, decodeFieldsOp (some p) ds s = ({ s with fd := ⟨a, p, .loaded, val, kind⟩ }, some vs) ∧
      decodeFieldsOp (some p) ds t = ({ t with fd := ⟨a, p, .loaded, val, kind⟩ }, some vs) := by
  obtain ⟨v1, k1, e1⟩ := decodeFieldsOp_spec p ds s vs a h
  obtain ⟨v2, k2, e2⟩ := decodeFieldsOp_spec p ds t vs a h
  have c := (decodeFieldsOp_congr p ds hf).1
  rw [e1, e2] at c
  simp only [FdUnit.mk.injEq, true_and] at c
  obtain ⟨rfl, rfl⟩ := c
  exact ⟨v1, k1, e1, e2⟩

/-- Every single-frame interpreter's schema fits the payload (44 R164, 70 R214). -/
theorem interpSchema_fits (k : Interp) (p : Payload) : ∃ vs a, schemaSpec p (interpSchema k) 0 = some (vs, a) := by
  cases k <;> exact ⟨_, _, rfl⟩

/-- What an interpreter makes of decoded values reads the configuration and the Device State and writes the latter. -/
theorem interpValues_local (k : Interp) (vs : List FieldValue) {s t : State} (hd : s.dev = t.dev) (hc : s.cfg = t.cfg) :
    ∃ d m, ∀ f, interpValues k vs { s with fd := f } = ({ s with fd := f, dev := d }, m) ∧
      interpValues k vs { t with fd := f } = ({ t with fd := f, dev := d }, m) := by
  cases k with
  | status =>
    simp only [interpValues, statusCounts]
    split
    · exact ⟨_, _, fun f => ⟨rfl, rfl⟩⟩
    · exact ⟨s.dev, _, fun f => ⟨rfl, by rw [hd]⟩⟩
  | faultCodes =>
    exact ⟨s.dev, some (.faults (faultNames s.cfg.faultTable (vs.map fun v => v.toInt.toNat))),
      fun f => ⟨rfl, by simp only [interpValues, hc, hd]⟩⟩
  | _ => exact ⟨s.dev, _, fun f => ⟨rfl, by rw [hd]; rfl⟩⟩

/-- An interpreter's result raises nothing, writes the field decoder and the Device State only, and depends on these two and the
configuration only. -/
theorem interpResult_local (k : Interp) (ps : List Payload) {s t : State} (hf : s.fd = t.fd) (hd : s.dev = t.dev)
    (hc : s.cfg = t.cfg) :
    ∃ f d m, interpResult k ps s = ({ s with fd := f, dev := d }, m) ∧
      interpResult k ps t = ({ t with fd := f, dev := d }, m) := by
  cases ps with
  | nil => exact ⟨s.fd, s.dev, some emptyResult, rfl, by rw [hf, hd]; rfl⟩
  | cons p ps =>
    unfold interpResult
    dsimp only
    cases interpSeries k with
    | some r =>
      obtain ⟨f1, e1⟩ := reassembleLoop_spec r (seriesCount s.dev r) (p :: ps) 1 s
      obtain ⟨f2, e2⟩ := reassembleLoop_spec r (seriesCount t.dev r) (p :: ps) 1 t
      have c := (reassembleLoop_congr r (seriesCount s.dev r) (p :: ps) 1 hf).1
      rw [hd, e2, ← hd, e1] at c
      have c' : f1 = f2 := c
      subst c'
      exact ⟨f1, s.dev, _, by simp only [reassembleOp, e1]; rfl, by simp only [reassembleOp, e2, hd]⟩
    | none =>
      obtain ⟨vs, a, h⟩ := interpSchema_fits k p
      obtain ⟨v, x, e1, e2⟩ := decodeFieldsOp_local h hf
      obtain ⟨d, m, g⟩ := interpValues_local k vs hd hc
      exact ⟨_, d, m, by rw [e1]; exact (g _).1, by rw [e2]; exact (g _).2⟩

/-- The events of a call's return write nothing but the field decoder, the Device State, the owner and the returned value. -/
theorem returnPayloads_events (c : Call) (ps : List Payload) (s : State) :
    ∃ n f d v, events n (returnPayloads c ps s) = { s with fd := f, dev := d, owner := none, ret := v } ∧
      (c = .attempt ∨ c = .exchange → v = some (.payloads ps) ∧ f = s.fd ∧ d = s.dev) ∧
      (∀ k, c = .interp k → v = (interpResult k ps s).2.map .measurement ∧ f = (interpResult k ps s).1.fd ∧
        d = (interpResult k ps s).1.dev) := by
  cases c with
  | interp k =>
    obtain ⟨n, e⟩ := interpret_events k ps s
    obtain ⟨f, d, m, h, -⟩ := interpResult_local k ps (s := s) rfl rfl rfl
    refine ⟨n, f, d, m.map .measurement, ?_, by simp, ?_⟩
    · rw [show returnPayloads (.interp k) ps s = interpret k ps s from rfl, e, h]
      rfl
    · intro k' hk
      cases hk
      rw [h]
      exact ⟨rfl, rfl, rfl⟩
  | _ => exact ⟨0, s.fd, s.dev, _, rfl, by simp, by simp⟩

/-! ## What an episode leaves -/

/-- The read of a blocked call whose pseudocode is in a read without an answer. -/
theorem episodeBlocked_of {c : Call} {s t : State} {e : Episode} (b : Base s t e) (hg : t.ex.collected = e.got)
    (hb : e.events = [] → s.link.buffered = [])
    (hx : c.runsExchange = true → t.ex.state = .running ∧ t.ex.attempt + e.left = s.cfg.retryCount) :
    episodeBlocked c s (waitFor c .collect (armRx s.ex.req.cmd t)) s.ex.req e := by
  refine ⟨⟨b.history, b.sent, b.oracle, b.draws, ?_, b.cause, b.cfg, b.agenda⟩, rfl, rfl, rfl, rfl, rfl, rfl, rfl,
    (lineBusy_false.1 b.line).1, b.req, hg, b.fd, b.dev, hx⟩
  show t.link.buffered = _
  rw [b.buffered]
  split
  · rename_i he
    exact (hb he).symm
  · rfl

/-- The return of a call whose pseudocode has ended, and what it is. -/
theorem episodeReturned_of {c : Call} {s t : State} {e : Episode} (b : Base s t e)
    (hb : e.events = [] → s.link.buffered = []) (hx : c.runsExchange = true → t.ex.state = .idle ∧ t.ex.attempt = 0) :
    ∃ n u, events n (returnPayloads c e.got t) = u ∧ episodeReturned c s u s.ex.req e ∧ u.ex = t.ex ∧
      (c = .attempt ∨ c = .exchange → u.ret = some (.payloads e.got) ∧ u.fd = s.fd ∧ u.dev = s.dev) ∧
      (∀ k, c = .interp k → u.ret = (interpResult k e.got s).2.map .measurement ∧ u.fd = (interpResult k e.got s).1.fd ∧
        u.dev = (interpResult k e.got s).1.dev) := by
  obtain ⟨n, f, d, v, h, h1, h2⟩ := returnPayloads_events c e.got t
  refine ⟨n, _, h, ⟨⟨b.history, b.sent, b.oracle, b.draws, ?_, b.cause, b.cfg, b.agenda⟩, rfl, b.line, b.req, hx⟩, rfl, ?_, ?_⟩
  · show t.link.buffered = _
    rw [b.buffered]
    split
    · rename_i he
      exact (hb he).symm
    · rfl
  · intro hc
    obtain ⟨r1, r2, r3⟩ := h1 hc
    exact ⟨r1, r2.trans b.fd, r3.trans b.dev⟩
  · intro k hk
    obtain ⟨f', d', m, i1, i2⟩ := interpResult_local k e.got b.fd b.dev b.cfg
    rw [i2]
    obtain ⟨r1, r2, r3⟩ := h2 k hk
    rw [i1] at r1 r2 r3
    exact ⟨r1, r2, r3⟩

/-! ## The start of a call -/

/-- The frame of a request with at most eight extra bytes (41 R91, 30 R61). -/
theorem encodeFrame_request (c : Config) (q : ExReq) (h : q.extra.length ≤ 8) :
    encodeFrame c.addr q.cmd q.extra = some (requestFrame c q) := by
  rw [encodeFrame, if_neg (Nat.not_lt.2 h)]
  rfl

/-- SEND (R115 step 1): the request's frame, to be flushed for. -/
theorem sendRequest_fits {c : Call} {s : State} (h : s.ex.req.extra.length ≤ 8) :
    sendRequest c s = waitFor c (.flush (requestFrame s.cfg s.ex.req)) s := by
  rw [sendRequest, encodeFrame_request s.cfg s.ex.req h]

/-- SEND with more than eight extra bytes (60 R186): TX_BAD_LEN, before the flush. -/
theorem sendRequest_badLen {c : Call} {s : State} (h : 8 < s.ex.req.extra.length) :
    sendRequest c s = abandon c (takeCause (.txBadLen s.ex.req.extra.length) s) := by
  rw [sendRequest, encodeFrame, if_pos (show payloadLen < _ from h)]

/-- An attempt's episode begins with its flush. -/
theorem attemptSpec_events (q : ExReq) (f : Frame) (o : List (List Byte)) (k : Cause) :
    (attemptSpec q f o k).events ≠ [] := by
  simp [attemptSpec, Episode.after]

/-- An exchange's episode with an attempt left begins with a flush. -/
theorem exchangeSpec_events (b : Duration) (q : ExReq) (f : Frame) (n : Nat) (o : List (List Byte)) (k : Cause) :
    (exchangeSpec b q f (n + 1) o k).events ≠ [] := by
  have h := attemptSpec_events q f o k
  unfold exchangeSpec retrySpec
  split
  · exact h
  · split
    · exact h
    · split
      · exact h
      · simp [Episode.after]

/-- An EXCHANGE that sends (R116): its owner is about to flush for its frame, and its events lead to what the pseudocode comes to. -/
theorem startExchange_leads {c : Call} (hc : c.runsExchange = true) (q : ExReq) (s : State) (hr : Ready s)
    (hx : q.extra.length ≤ 8) (hn : s.cfg.retryCount ≠ 0) :
    (startExchange c q s).owner = some ⟨c, .flush (requestFrame s.cfg q)⟩ ∧ (startExchange c q s).ret = none ∧
    ∃ n u, events n (startExchange c q s) = u ∧
      Leads c (setAttempt 0 (latchRequest q s))
        (exchangeSpec s.cfg.backoff q (requestFrame s.cfg q) s.cfg.retryCount s.link.oracle s.lastCause) u := by
  obtain ⟨-, hl, ho⟩ := hr
  obtain ⟨n, hn'⟩ : ∃ n, s.cfg.retryCount = n + 1 := ⟨s.cfg.retryCount - 1, by omega⟩
  have e1 : startExchange c q s = startAttempt c (setAttempt 0 (latchRequest q s)) := by rw [startExchange, if_neg hn]
  have e2 : startAttempt c (setAttempt 0 (latchRequest q s)) =
      sendRequest c (setAttempt 1 (setAttempt 0 (latchRequest q s))) := by rw [startAttempt, if_pos hc]; rfl
  have e3 := sendRequest_fits (c := c) (s := setAttempt 1 (setAttempt 0 (latchRequest q s))) hx
  obtain ⟨m, u, h1, h2⟩ := exchange_start hc (requestFrame s.cfg q) n (setAttempt 0 (latchRequest q s)) hl ho
    (encodeFrame_request s.cfg q hx) (by simp [hn']) rfl
  refine ⟨by rw [e1, e2, e3]; rfl, by rw [e1, e2, e3]; rfl, m, u, by rw [e1]; exact h1, ?_⟩
  rw [hn']
  exact h2

end Sys2Proof.Machine
end

