-- ==== Sys2Proof/Laws/PerInstr.lean ====
section
/-! SUPPORT. For every operation: its word, if it has one, is as long as its port takes (30_encoding.md R60, R66, R68). -/

namespace Sys2Proof.Laws.WordShape

open Sys2Proof

/-- The number of bytes a port takes. -/
def portLength : Port → Nat
  | .fdField => 1
  | .txFrame => frameLen
  | .rxFrame => frameLen

def Statement (i : Instr) : Prop := ∀ w, encodeWord i = some w → w.bytes.length = portLength w.port

theorem of_none {i : Instr} (h : encodeWord i = none) : Statement i := fun w e => by rw [h] at e; cases e

theorem of_some {i : Instr} {v : PortWord} (h : encodeWord i = some v) (k : v.bytes.length = portLength v.port) :
    Statement i := fun w e => by rw [h] at e; cases e; exact k

theorem frameRequest (a : Byte) (c : Byte) (p : Payload) (k : Byte) :
    Statement (.frameRequest a c p k) := of_some rfl (by simp [portLength])
theorem frameResponse (t : Byte) (a : Byte) (c : Byte) (l : Byte) (p : Payload) (k : Byte) :
    Statement (.frameResponse t a c l p k) := of_some rfl (by simp [portLength])
theorem u8 : Statement .u8 := of_some rfl rfl
theorem u16 : Statement .u16 := of_some rfl rfl
theorem u32 : Statement .u32 := of_some rfl rfl
theorem i8 : Statement .i8 := of_some rfl rfl
theorem i16 : Statement .i16 := of_some rfl rfl
theorem i32 : Statement .i32 := of_some rfl rfl
theorem bool : Statement .bool := of_some rfl rfl
theorem descReserved (d : Byte) : Statement (.descReserved d) := of_some rfl rfl
theorem csum (b : List Byte) : Statement (.csum b) := of_none rfl
theorem verify (b : List Byte) : Statement (.verify b) := of_none rfl
theorem b2h (b : Byte) : Statement (.b2h b) := of_none rfl
theorem h2b (t : List Char) : Statement (.h2b t) := of_none rfl
theorem encode (a : Byte) (c : Byte) (x : List Byte) : Statement (.encode a c x) := of_none rfl
theorem validate (f : Frame) (e : Byte) : Statement (.validate f e) := of_none rfl
theorem txLoad (c : Byte) (x : List Byte) : Statement (.txLoad c x) := of_none rfl
theorem txByte : Statement .txByte := of_none rfl
theorem rxArm (e : Byte) : Statement (.rxArm e) := of_none rfl
theorem rxByte (b : Byte) : Statement (.rxByte b) := of_none rfl
theorem rxAbort : Statement .rxAbort := of_none rfl
theorem flush : Statement .flush := of_none rfl
theorem write (f : Frame) : Statement (.write f) := of_none rfl
theorem read (t : Duration) : Statement (.read t) := of_none rfl
theorem sleep (d : Duration) : Statement (.sleep d) := of_none rfl
theorem attempt : Statement .attempt := of_none rfl
theorem exchange (c : Byte) (x : Option (List Byte)) (m : Option Nat) (d : Option Duration) (t : Option Duration) :
    Statement (.exchange c x m d t) := of_none rfl
theorem fdLoad (p : PayloadSrc) (n : Nat) : Statement (.fdLoad p n) := of_none rfl
theorem decodeFields (p : PayloadSrc) (ds : List Byte) : Statement (.decodeFields p ds) := of_none rfl
theorem getSoc : Statement .getSoc := of_none rfl
theorem getCellVoltageRange : Statement .getCellVoltageRange := of_none rfl
theorem getTemperatureRange : Statement .getTemperatureRange := of_none rfl
theorem getMosfetStatus : Statement .getMosfetStatus := of_none rfl
theorem getStatus : Statement .getStatus := of_none rfl
theorem getCellVoltages : Statement .getCellVoltages := of_none rfl
theorem getTemperatures : Statement .getTemperatures := of_none rfl
theorem getBalancingStatus : Statement .getBalancingStatus := of_none rfl
theorem getFaultCodes : Statement .getFaultCodes := of_none rfl
theorem reassemble (ps : List Payload) (k : Series) : Statement (.reassemble ps k) := of_none rfl
theorem reset : Statement .reset := of_none rfl

end Sys2Proof.Laws.WordShape
end

