-- ==== Sys2Proof/Tests/Slice0.lean ====
section
/-! SUPPORT. Tests. Every expected value is a vector of spec/95_test_vectors.md, or worked by hand from the rule named;
the configuration is that file's example binding (CFG.ADDR = 0x40, command ids 0x90 to 0x98). -/

namespace Sys2Proof.Tests

open Sys2Proof Sys2Proof.Machine

/-- The example binding of 95_test_vectors.md, with three attempts. -/
def demoCfg : Config :=
  { addr := 0x40, retryCount := 3, readTimeout := 7, interCommandDelay := 5, backoff := 9,
    cmdSoc := 0x90, cmdCellVoltageRange := 0x91, cmdTemperatureRange := 0x92, cmdMosfetStatus := 0x93,
    cmdStatus := 0x94, cmdCellVoltages := 0x95, cmdTemperatures := 0x96, cmdBalancingStatus := 0x97,
    cmdFaultCodes := 0x98, faultTable := ⟨Vector.replicate 7 (Vector.replicate 8 "a"), #v["b"]⟩ }

/-- The machine after reset with that binding and these answers of the oracle to come. -/
def demo (answers : List (List Byte)) : State :=
  { State.reset with cfg := demoCfg, link := ⟨[], [], [], false, answers, 0⟩ }

/-- The machine with a payload loaded at a cursor. -/
def loaded (p : Payload) (cur : Nat) : State :=
  { demo [] with fd := ⟨cur, p, .loaded, 0, 0⟩ }

/-- A read of a frame with command id `e` in progress. -/
def armed (e : Byte) : State := armRx e (demo [])

/-- What a test looks at in the next state; nothing after a stop. -/
def look {α : Type} (f : State → α) : Host.Outcome State Fault Refusal → Option α
  | .next t => some (f t)
  | .fault _ => none
  | .refused _ => none

def refusalOf : Host.Outcome State Fault Refusal → Option Refusal
  | .refused r => some r
  | .next _ => none
  | .fault _ => none

def faultOf : Host.Outcome State Fault Refusal → Option Fault
  | .fault f => some f
  | .next _ => none
  | .refused _ => none

def socPayload : Payload := #v[0x0E, 0x74, 0x00, 0x00, 0x77, 0x24, 0x03, 0x52]
def socAnswer : List Byte := [0xA5, 0x01, 0x90, 0x08, 0x0E, 0x74, 0x00, 0x00, 0x77, 0x24, 0x03, 0x52, 0xB0]
def reqFrame : Frame := #v[0xA5, 0x40, 0x90, 0x08, 0, 0, 0, 0, 0, 0, 0, 0, 0x7D]

/-- The request of the example exchange for a command id. -/
def req (e : Byte) : ExReq := ⟨e, [], 1, 5, 7⟩

/-- The call `c` blocked in a fresh read of attempt `n`, with these payloads accepted and these answers to come. -/
def waiting (c : Call) (q : ExReq) (n : Nat) (got : List Payload) (answers : List (List Byte)) : State :=
  { armRx q.cmd (demo answers) with
    owner := some ⟨c, .collect⟩, ex := ⟨if c.runsExchange then .running else .idle, n, got, q⟩ }

/-- The same read when all but the 13th byte of the answer `r` have come; the transport holds that byte. -/
def lastByte (c : Call) (q : ExReq) (n : Nat) (got : List Payload) (r : List Byte) : State :=
  { waiting c q n got [] with
    rx := ⟨frameOf r, 12, checksum (r.take 12), q.cmd, .receiving⟩, link := ⟨[], [], [r.getD 12 0], true, [], 0⟩ }

/-- The same read when the oracle has answered with nothing. -/
def silence (c : Call) (q : ExReq) (n : Nat) (got : List Payload) : State :=
  { waiting c q n got [] with link := ⟨[], [], [], true, [], 0⟩ }

/-- The call `c` at the place `p`, in SEND with one byte left. -/
def paused (c : Call) (p : Phase) (q : ExReq) (n : Nat) : State :=
  { demo [] with
    owner := some ⟨c, p⟩, ex := ⟨if c.runsExchange then .running else .idle, n, [], q⟩
    tx := if p = .send then ⟨reqFrame, 12, .sending⟩ else ⟨reqFrame, 13, .idle⟩ }

/-! ## WellFormed and decoding (30_encoding.md R61, R63, R66, R67) -/

theorem test_wf_refuses_unreserved : Instr.wf (.descReserved 0x05) = false := by decide
theorem test_step_refuses_ill_formed :
    refusalOf (step { demo [] with agenda := [.op (.descReserved 0x05)] }) = some .illFormed := by decide
theorem test_step_refuses_undecodable :
    refusalOf (step { demo [] with agenda := [.word ⟨.rxFrame, [0xA5]⟩] }) =
      some (.undecodable (.badLength .rxFrame 1)) := by decide

theorem test_decode_u8 : decodeWord ⟨.fdField, [0b00000000]⟩ = .ok .u8 := by rfl
theorem test_decode_u16 : decodeWord ⟨.fdField, [0b00000001]⟩ = .ok .u16 := by rfl
theorem test_decode_u32 : decodeWord ⟨.fdField, [0b00000010]⟩ = .ok .u32 := by rfl
theorem test_decode_i8 : decodeWord ⟨.fdField, [0b00000100]⟩ = .ok .i8 := by rfl
theorem test_decode_i16 : decodeWord ⟨.fdField, [0b00000101]⟩ = .ok .i16 := by rfl
theorem test_decode_i32 : decodeWord ⟨.fdField, [0b00000110]⟩ = .ok .i32 := by rfl
theorem test_decode_bool : decodeWord ⟨.fdField, [0b00001000]⟩ = .ok .bool := by rfl
theorem test_decode_reserved_width : decodeWord ⟨.fdField, [0b00000011]⟩ = .ok (.descReserved 0x03) := by rfl
theorem test_decode_reserved_signed_bool : decodeWord ⟨.fdField, [0b00001100]⟩ = .ok (.descReserved 0x0C) := by rfl
theorem test_decode_request :
    decodeWord ⟨.txFrame, [0xA5, 0x40, 0x21, 0x08, 0x0A, 0x0B, 0x0C, 0, 0, 0, 0, 0, 0x2F]⟩ =
      .ok (.frameRequest 0x40 0x21 #v[0x0A, 0x0B, 0x0C, 0, 0, 0, 0, 0] 0x2F) := by rfl
theorem test_decode_response :
    decodeWord ⟨.rxFrame, [0x00, 0x01, 0x90, 0x07, 0x0E, 0x74, 0, 0, 0x77, 0x24, 0x03, 0x52, 0x0A]⟩ =
      .ok (.frameResponse 0x00 0x01 0x90 0x07 socPayload 0x0A) := by rfl
theorem test_decode_not_request :
    decodeWord ⟨.txFrame, [0xA5, 0x40, 0x21, 0x07, 0, 0, 0, 0, 0, 0, 0, 0, 0]⟩ =
      .error (.notRequest 0xA5 0x07) := by rfl
theorem test_table_word_request :
    decodeTableWord 104 0xA540900800000000000000007D = some (.frameRequest 0x40 0x90 #v[0, 0, 0, 0, 0, 0, 0, 0] 0x7D) := by
  decide
theorem test_table_word_response :
    decodeTableWord 104 0 = some (.frameResponse 0 0 0 0 #v[0, 0, 0, 0, 0, 0, 0, 0] 0) := by decide
theorem test_table_word_descriptor : decodeTableWord 8 0x06 = some .i32 := by rfl
theorem test_first_word_runs :
    look (fun t => t.lastCause) (step (State.reset.withFetchWord 8 0x00)) = some .fdNotLoaded := by rfl
theorem test_first_frame_runs :
    look (fun t => (t.link.sent, t.tx.state, t.owner)) (step (State.reset.withFetchWord 104 0xA5000008000000000000000000)) =
      some ([], .sending, some ⟨.write, .send⟩) := by rfl

/-! ## Byte Codec (95, 2.1) -/

theorem test_csum_wraps : look State.ret (exec (.csum [0xFF, 0x01]) (demo [])) = some (some (.byte 0x00)) := by decide
theorem test_csum_frame :
    checksum [0xA5, 0x01, 0x90, 0x08, 0x0E, 0x74, 0x00, 0x00, 0x77, 0x24, 0x03, 0x52] = 0xB0 := by decide
theorem test_verify_bad : look State.ret (exec (.verify [0x01]) (demo [])) = some (some (.truth false)) := by decide
theorem test_verify_swapped :
    verifyChecksum [0xA5, 0x01, 0x90, 0x08, 0x74, 0x0E, 0, 0, 0x77, 0x24, 0x03, 0x52, 0xB0] = true := by decide
theorem test_b2h : look State.ret (exec (.b2h 0xA5) (demo [])) = some (some (.text ['a', '5'])) := by decide
theorem test_b2h_leading_zero : byteToHex 0x0A = ['0', 'a'] := by decide
theorem test_h2b :
    look State.ret (exec (.h2b ['a', '5', 'f', 'f']) (demo [])) = some (some (.bytes [0xA5, 0xFF])) := by decide
theorem test_h2b_upper_case : look State.ret (exec (.h2b ['A', '5']) (demo [])) = some none := by decide

/-! ## Frame Codec (95, 2.2) -/

theorem test_encode :
    look State.ret (exec (.encode 0x40 0xDA [0x01]) (demo [])) =
      some (some (.frame #v[0xA5, 0x40, 0xDA, 0x08, 1, 0, 0, 0, 0, 0, 0, 0, 0xC8])) := by decide
theorem test_encode_nine :
    look (fun t => (t.ret, t.raised)) (exec (.encode 0x40 0x90 [1, 2, 3, 4, 5, 6, 7, 8, 9]) (demo [])) =
      some (none, [.txBadLen 9]) := by decide
theorem test_validate_both_wrong :
    look State.ret (exec (.validate #v[0xA5, 0x01, 0x91, 0x08, 0x0E, 0x74, 0, 0, 0x77, 0x24, 0x03, 0x52, 0] 0x90) (demo [])) =
      some (some (.reject .rxCmdMismatch)) := by decide
theorem test_validate_unchecked_bytes :
    look State.ret (exec (.validate #v[0x00, 0x01, 0x90, 0x07, 0x0E, 0x74, 0, 0, 0x77, 0x24, 0x03, 0x52, 0x0A] 0x90) (demo [])) =
      some (some (.accept socPayload)) := by decide
theorem test_txLoad :
    look (fun t => t.tx) (exec (.txLoad 0x94 []) (demo [])) =
      some ⟨#v[0xA5, 0x40, 0x94, 0x08, 0, 0, 0, 0, 0, 0, 0, 0, 0x81], 0, .sending⟩ := by decide
theorem test_txLoad_busy_first :
    look (fun t => t.raised) (exec (.txLoad 0x90 [1, 2, 3, 4, 5, 6, 7, 8, 9]) (loadTx reqFrame (demo []))) =
      some [.opBusy] := by decide
theorem test_txByte_last :
    look (fun t => (t.tx.state, t.link.sent, t.link.history)) (exec .txByte { demo [] with tx := ⟨reqFrame, 12, .sending⟩ }) =
      some (.idle, [0x7D], [.write reqFrame]) := by decide
theorem test_txByte_idle : faultOf (exec .txByte (demo [])) = some .txByteNotEnabled := by decide
theorem test_rxArm :
    look (fun t => (t.rx.state, t.rx.expect, t.rx.idx)) (exec (.rxArm 0x90) (demo [])) =
      some (.receiving, 0x90, 0) := by decide
theorem test_rxByte_running_sum :
    look (fun t => (t.rx.sum, t.rx.idx)) (exec (.rxByte 0x90) { armed 0x90 with rx := ⟨frameOf socAnswer, 2, 0xA6, 0x90, .receiving⟩ }) =
      some (0x36, 3) := by decide
theorem test_rxByte_thirteenth :
    look (fun t => (t.rx.state, t.lastCause)) (exec (.rxByte 0xB1)
      { armed 0x90 with rx := ⟨frameOf socAnswer, 12, checksum (socAnswer.take 12), 0x90, .receiving⟩ }) =
      some (.rejectCsum, .rxCsumFail) := by decide
/-- Bytes held are delivered first, in arrival order (41 R96, 20 R51 d). -/
theorem test_rxByte_behind_held :
    look (fun t => (t.rx.buf[0], t.rx.idx, t.link.buffered)) (exec (.rxByte 0x22) (bufferBytes [0x11] (armed 0x90))) =
      some (0x11, 1, [0x22]) := by decide
theorem test_rxAbort :
    look (fun t => (t.rx.state, t.rx.idx, t.rx.sum, t.lastCause))
      (exec .rxAbort { armed 0x90 with rx := ⟨frameOf socAnswer, 3, 0x36, 0x90, .receiving⟩ }) =
      some (.noData, 3, 0x36, .rxNoData) := by decide
theorem test_rxAbort_idle : faultOf (exec .rxAbort (demo [])) = some .rxAbortNotEnabled := by decide
/-- The frame is held behind what the transport has; the read takes it byte by byte. -/
theorem test_frameResponse_held :
    look (fun t => (t.link.buffered.length, t.rx.idx)) (exec (.frameResponse 0xA5 0x01 0x90 0x08 socPayload 0xB0) (armed 0x90)) =
      some (13, 0) := by decide
theorem test_frameRequest_loaded :
    look (fun t => (t.tx.buf, t.tx.idx, t.link.sent)) (exec (.frameRequest 0x40 0x90 #v[0, 0, 0, 0, 0, 0, 0, 0] 0x7D) (demo [])) =
      some (reqFrame, 0, []) := by decide

/-! ## Exchange Engine (95, 2.3), one event at a time -/

theorem test_flush :
    look (fun t => (t.link.history, t.link.buffered)) (exec .flush (bufferBytes [0xFF] (demo []))) = some ([.flush], []) := by
  decide
theorem test_write :
    look (fun t => (t.tx, t.owner)) (exec (.write reqFrame) (demo [])) =
      some (⟨reqFrame, 0, .sending⟩, some ⟨.write, .send⟩) := by decide
theorem test_write_ends :
    look (fun t => (t.owner, t.link.history, t.link.sent)) (step (paused .write .send (req 0x90) 0)) =
      some (none, [.write reqFrame], [0x7D]) := by decide
theorem test_sleep :
    look (fun t => (t.link.history, t.owner)) (exec (.sleep 4) (demo [])) = some ([], some ⟨.sleep 4, .pace⟩) := by decide
theorem test_sleep_returns :
    look (fun t => (t.owner, t.link.history)) (step (paused (.sleep 4) .pace (req 0x90) 0)) = some (none, [.sleep 4]) := by decide
/-- A return of SLEEP where none is pending changes nothing (log entry 17). -/
theorem test_wake_without_sleep :
    look (fun t => (t.owner, t.tx.state)) (step { paused .write .send (req 0x90) 0 with agenda := [.wake] }) =
      some (some ⟨.write, .send⟩, .sending) := by decide
theorem test_read_arms :
    look (fun t => (t.rx.state, t.rx.expect, t.owner)) (exec (.read 2) { demo [] with ex := ⟨.idle, 0, [], req 0x90⟩ }) =
      some (.receiving, 0x90, some ⟨.read 2, .collect⟩) := by decide
/-- A read that got two bytes and no more returns them. -/
theorem test_read_short :
    look (fun t => (t.ret, t.rx.state, t.link.history, t.owner))
      (step { silence (.read 2) (req 0x90) 0 [] with rx := ⟨frameOf [0xFF, 0xFF], 2, 0xFE, 0x90, .receiving⟩ }) =
      some (some (.bytes [0xFF, 0xFF]), .noData, [.read 2 [0xFF, 0xFF]], none) := by decide
theorem test_attempt_starts :
    look (fun t => (t.tx.state, t.link.history, t.owner)) (exec .attempt { demo [] with ex := ⟨.idle, 0, [], req 0x90⟩ }) =
      some (.idle, [], some ⟨.attempt, .flush reqFrame⟩) := by decide
/-- Silence ends an attempt with what it has (95 X2). -/
theorem test_attempt_ends :
    look (fun t => (t.ret, t.lastCause)) (step (silence .attempt ⟨0x90, [], 3, 5, 7⟩ 0 [socPayload])) =
      some (some (.payloads [socPayload]), .rxNoData) := by decide
theorem test_exchange_starts :
    look (fun t => (t.owner, t.ex.attempt, t.link.history)) (exec (.exchange 0x90 none none none none) (demo [])) =
      some (some ⟨.exchange, .flush reqFrame⟩, 1, []) := by decide
theorem test_exchange_no_attempts :
    look (fun t => (t.ret, t.lastCause, t.link.history))
      (exec (.exchange 0x90 none none none none) { demo [] with cfg := { demoCfg with retryCount := 0 } }) =
      some (some (.payloads []), .exRetriesExhausted, []) := by decide
/-- R115 step 1: the flush is an event of its own, and so is TX_LOAD. -/
theorem test_sequencer_flush :
    look (fun t => (t.owner, t.tx.state, t.link.history, t.link.buffered))
      (step (bufferBytes [0xFF] (paused .exchange (.flush reqFrame) (req 0x90) 1))) =
      some (some ⟨.exchange, .load reqFrame⟩, .idle, [.flush], []) := by decide
theorem test_sequencer_load :
    look (fun t => (t.owner, t.tx)) (step (paused .exchange (.load reqFrame) (req 0x90) 1)) =
      some (some ⟨.exchange, .send⟩, ⟨reqFrame, 0, .sending⟩) := by decide
/-- R120: SEND to PACE, with the write in the history. -/
theorem test_sequencer_send :
    look (fun t => (t.owner, t.tx.state, t.link.history)) (step (paused .exchange .send (req 0x90) 1)) =
      some (some ⟨.exchange, .pace⟩, .idle, [.write reqFrame]) := by decide
/-- R120: PACE to COLLECT, with the delay in the history; RX_ARM is the next event. -/
theorem test_sequencer_pace :
    look (fun t => (t.owner, t.rx.state, t.link.history)) (step (paused .exchange .pace (req 0x90) 1)) =
      some (some ⟨.exchange, .arm⟩, .idle, [.sleep 5]) := by decide
theorem test_sequencer_arm :
    look (fun t => (t.owner, t.rx.state, t.rx.expect)) (step (paused .exchange .arm (req 0x90) 1)) =
      some (some ⟨.exchange, .collect⟩, .receiving, 0x90) := by decide
/-- X6: no response asked for; the attempt ends without a read. -/
theorem test_sequencer_pace_no_read :
    look (fun t => (t.owner, t.rx.state, t.link.history)) (step (paused .exchange .pace ⟨0x90, [], 0, 5, 7⟩ 1)) =
      some (some ⟨.exchange, .backoff⟩, .idle, [.sleep 5]) := by decide
/-- R120: a frame with a bad checksum is discarded; its reject state stands until the next read is armed (41 R97). -/
theorem test_sequencer_discards :
    look (fun t => (t.owner, t.rx.state, t.lastCause, t.ex.collected))
      (step (lastByte .exchange (req 0x90) 1 [] (socAnswer.dropLast ++ [0xB1]))) =
      some (some ⟨.exchange, .arm⟩, .rejectCsum, .rxCsumFail, []) := by decide
theorem test_sequencer_returns :
    look (fun t => (t.ret, t.owner, t.ex.state, t.link.history)) (step (lastByte .exchange (req 0x90) 1 [] socAnswer)) =
      some (some (.payloads [socPayload]), none, .idle, [.read 7 socAnswer]) := by decide
/-- X7: silence backs off, and after the last attempt gives up. -/
theorem test_sequencer_backs_off :
    look (fun t => (t.owner, t.ex.attempt, t.lastCause, t.link.history)) (step (silence .exchange (req 0x90) 1 [])) =
      some (some ⟨.exchange, .backoff⟩, 1, .rxNoData, [.read 7 []]) := by decide
theorem test_sequencer_gives_up :
    look (fun t => (t.ret, t.owner, t.lastCause, t.ex.state)) (step (silence .exchange (req 0x90) 3 [])) =
      some (some (.payloads []), none, .exRetriesExhausted, .idle) := by decide
theorem test_sequencer_next_attempt :
    look (fun t => (t.owner, t.ex.attempt, t.link.history)) (step (paused .exchange .backoff (req 0x90) 1)) =
      some (some ⟨.exchange, .flush reqFrame⟩, 2, [.sleep 9]) := by decide
/-- Time passes only by the clock's event: an RX_BYTE out of turn stays with the transport and the pause goes on. -/
theorem test_sequencer_pause_holds :
    look (fun t => (t.owner, t.link.buffered)) (step { paused .exchange .pace (req 0x90) 1 with agenda := [.op (.rxByte 0xA5)] }) =
      some (some ⟨.exchange, .pace⟩, [0xA5]) := by decide

/-! ## Field Decoder (95, 2.4) -/

/-- What a field operation returns, its FVAL and FCUR. -/
def look3 (o : Host.Outcome State Fault Refusal) : Option (Option Value × Word32 × Nat) :=
  look (fun t => (t.ret, t.fd.val, t.fd.cur)) o

theorem test_u8_top : look3 (exec .u8 (loaded #v[0, 0, 0, 0, 0, 0, 0, 0xFF] 7)) =
    some (some (.field (.num 255)), 0xFF, 8) := by decide
theorem test_i8 : look3 (exec .i8 (loaded #v[0x80, 0, 0, 0, 0, 0, 0, 0] 0)) =
    some (some (.field (.num (-128))), 0xFFFFFF80, 1) := by decide
theorem test_bool : look3 (exec .bool (loaded #v[0x02, 0, 0, 0, 0, 0, 0, 0] 0)) =
    some (some (.field (.truth true)), 1, 1) := by decide
theorem test_u16 : look3 (exec .u16 (loaded socPayload 0)) =
    some (some (.field (.num 3700)), 0x0E74, 2) := by decide
theorem test_i16_odd : look3 (exec .i16 (loaded #v[0, 0, 0, 0x80, 0x00, 0, 0, 0] 3)) =
    some (some (.field (.num (-32768))), 0xFFFF8000, 5) := by decide
theorem test_u32 : look3 (exec .u32 (loaded #v[0xDE, 0xAD, 0xBE, 0xEF, 0, 0, 0, 0] 0)) =
    some (some (.field (.num 3735928559)), 0xDEADBEEF, 4) := by decide
theorem test_i32 : look3 (exec .i32 (loaded #v[0, 0, 0, 0, 0xFF, 0xFF, 0xFC, 0x18] 4)) =
    some (some (.field (.num (-1000))), 0xFFFFFC18, 8) := by decide
theorem test_u16_range :
    look (fun t => (t.ret, t.fd.cur, t.fd.state, t.raised)) (exec .u16 (loaded socPayload 7)) =
      some (none, 7, .faulted, [.fdFieldRange 7 2]) := by decide
theorem test_descReserved_before_range :
    look (fun t => (t.ret, t.fd.state, t.raised)) (exec (.descReserved 0x03) (loaded socPayload 8)) =
      some (none, .faulted, [.fdBadDesc 0x03]) := by decide
theorem test_fdLoad_start_nine :
    look (fun t => (t.fd.state, t.raised)) (exec (.fdLoad (.bytes socPayload) 9) (demo [])) =
      some (.empty, [.fdLoadRange 9]) := by decide
theorem test_fdLoad_no_value :
    look (fun t => t.lastCause) (exec (.fdLoad .rxPayload 0) (demo [])) = some .fdNotLoaded := by decide
theorem test_decodeFields_loads :
    look (fun t => (t.fd.state, t.fd.cur, t.owner)) (exec (.decodeFields (.bytes socPayload) [1, 2]) (demo [])) =
      some (.loaded, 0, some ⟨.decodeFields, .decode 1 [2] []⟩) := by decide
theorem test_decodeFields_empty :
    look (fun t => (t.ret, t.owner)) (exec (.decodeFields (.bytes socPayload) []) (demo [])) = some (some (.tuple []), none) := by
  decide
/-- The last field of the schema [4, 8, 8, 0, 6]. -/
theorem test_decodeFields_last :
    look (fun t => (t.ret, t.owner)) (step { loaded #v[0xFF, 0, 2, 0xFF, 0xFF, 0xFF, 0xFC, 0x18] 4 with
      owner := some ⟨.decodeFields, .decode 6 [] [.num (-1), .truth false, .truth true, .num 255]⟩ }) =
      some (some (.tuple [.num (-1), .truth false, .truth true, .num 255, .num (-1000)]), none) := by decide
theorem test_decodeFields_too_long :
    look (fun t => (t.ret, t.fd.cur, t.raised, t.owner))
      (step { loaded socPayload 8 with owner := some ⟨.decodeFields, .decode 0 [1] [.num 3700]⟩ }) =
      some (none, 8, [.fdFieldRange 8 1], none) := by decide

/-! ## Interpreters (95, 2.5): the request each makes, and what the last field of its payload makes it return -/

/-- What the interpreter `k` returns when the field `d` at `cur` is the last of its payload `p`, after the values `got`. -/
def lastField (k : Interp) (p : Payload) (cur : Nat) (d : Byte) (got : List FieldValue) : Option (Option Value) :=
  look State.ret (step { loaded p cur with owner := some ⟨.interp k, .decode d [] got⟩ })

theorem test_interpreters_ask :
    [Interp.soc, .cellVoltageRange, .temperatureRange, .mosfetStatus, .status, .cellVoltages, .temperatures, .balancingStatus,
      .faultCodes].map (fun k => look (fun t => (t.ex.req.cmd, t.ex.req.maxResponses, t.owner.map Wait.call == some (.interp k)))
        (exec (interpInstr k) { demo [] with dev := ⟨4, 8⟩ })) =
      [some (0x90, 1, true), some (0x91, 1, true), some (0x92, 1, true), some (0x93, 1, true), some (0x94, 1, true),
       some (0x95, 2, true), some (0x96, 2, true), some (0x97, 1, true), some (0x98, 1, true)] := by decide
/-- The exchange has ended (EX_IDLE) when its payload is decoded. -/
theorem test_interp_binds :
    look (fun t => (t.owner, t.ex.state, t.ret)) (step (lastByte (.interp .soc) (req 0x90) 1 [] socAnswer)) =
      some (some ⟨.interp .soc, .bind socPayload [1, 1, 1, 1]⟩, .idle, none) := by decide
theorem test_interp_decodes :
    look (fun t => (t.owner, t.fd.state, t.fd.cur)) (step (paused (.interp .soc) (.bind socPayload [1, 1]) (req 0x90) 0)) =
      some (some ⟨.interp .soc, .decode 1 [1] []⟩, .loaded, 0) := by decide
theorem test_getSoc : lastField .soc socPayload 6 0x01 [.num 3700, .num 0, .num 30500] =
    some (some (.measurement (.map [(.totalVoltage, .num 3700), (.current, .num 500), (.socPercent, .num 850)]))) := by
  decide
theorem test_getSoc_silent : look State.ret (step (silence (.interp .soc) (req 0x90) 3 [])) =
    some (some (.measurement emptyResult)) := by decide
theorem test_getCellVoltageRange :
    lastField .cellVoltageRange #v[0x0D, 0x54, 5, 0x0C, 0xE2, 0x0C, 0, 0] 5 0x00 [.num 3412, .num 5, .num 3298] =
      some (some (.measurement (.map [(.highestVoltage, .quot 3412 1000), (.highestCell, .num 5),
        (.lowestVoltage, .quot 3298 1000), (.lowestCell, .num 12)]))) := by decide
theorem test_getTemperatureRange :
    lastField .temperatureRange #v[0x41, 1, 0x3E, 3, 0, 0, 0, 0] 3 0x04 [.num 65, .num 1, .num 62] =
      some (some (.measurement (.map [(.highestTemperature, .num 25), (.highestSensor, .num 1),
        (.lowestTemperature, .num 22), (.lowestSensor, .num 3)]))) := by decide
theorem test_getMosfetStatus :
    lastField .mosfetStatus #v[0xFF, 0, 2, 0xFF, 0xFF, 0xFF, 0xFC, 0x18] 4 0x06
        [.num (-1), .truth false, .truth true, .num 255] =
      some (some (.measurement (.map [(.bmsState, .num (-1)), (.chargingMosfet, .truth false),
        (.dischargingMosfet, .truth true), (.bmsLife, .num 255), (.capacityAh, .quot (-1000) 1000)]))) := by decide
theorem test_getStatus :
    look (fun t => (t.ret, t.dev)) (step { loaded #v[0x10, 4, 1, 0, 0, 0, 0, 0] 3 with
      owner := some ⟨.interp .status, .decode 0x00 [] [.num 16, .num 4, .num 1]⟩ }) =
      some (some (.measurement (.map [(.cells, .num 16), (.temperatureSensors, .num 4), (.chargerRunning, .num 1),
        (.loadRunning, .num 0)])), ⟨16, 4⟩) := by decide
/-- The fourth of four cells, in the second frame. -/
theorem test_getCellVoltages :
    look (fun t => (t.ret, t.owner)) (step { loaded #v[2, 0x0C, 0xE8, 0x0C, 0xE9, 0x0C, 0xEA, 0] 1 with
      dev := ⟨4, 0⟩
      owner := some ⟨.interp .cellVoltages,
        .items .voltages 2 [] 4 [(.item 1, .num 3301), (.item 2, .num 3302), (.item 3, .num 3303)]⟩ }) =
      some (some (.measurement (.map [(.item 1, .num 3301), (.item 2, .num 3302), (.item 3, .num 3303),
        (.item 4, .num 3304)])), none) := by decide
theorem test_getTemperatures :
    look (fun t => (t.ret, t.owner)) (step { loaded #v[1, 0x3F, 0x40, 0x41, 0x42, 0, 0, 0] 1 with
      dev := ⟨0, 4⟩, owner := some ⟨.interp .temperatures, .items .temperatures 6 [] 1 []⟩ }) =
      some (none, some ⟨.interp .temperatures, .items .temperatures 5 [] 2 [(.item 1, .num 23)]⟩) := by decide
/-- Cells 1, 3, 9 and 48 (R159's example). -/
theorem test_getBalancingStatus :
    (match lastField .balancingStatus #v[0x80, 0, 0, 0, 1, 5, 0, 0] 5 0x00 [.num 0x80, .num 0, .num 0, .num 0, .num 1] with
      | some (some (.measurement (.map m))) => (m.length, (m.filter fun e => e.2 == .truth true).map Prod.fst)
      | _ => (0, [])) =
      (48, [.item 1, .item 3, .item 9, .item 48]) := by decide
/-- FAULT_TABLE[0][0], [2][7] and [7][0]; bit 1 of byte 7 is ignored (R160's example). -/
theorem test_getFaultCodes :
    lastField .faultCodes #v[1, 0, 0x80, 0, 0, 0, 0, 3] 7 0x00 [.num 1, .num 0, .num 0x80, .num 0, .num 0, .num 0, .num 0] =
      some (some (.measurement (.faults ["a", "a", "b"]))) := by decide
/-- A padding frame is skipped (R156), and the next one loaded by an event of its own. -/
theorem test_reassemble_skips_padding :
    look (fun t => (t.ret, t.owner))
      (exec (.reassemble [#v[0xFF, 1, 2, 3, 4, 5, 6, 7], #v[1, 0x3F, 0x40, 0, 0, 0, 0, 0]] .temperatures)
        { demo [] with dev := ⟨0, 2⟩ }) =
      some (none, some ⟨.reassemble, .bindItems .temperatures #v[1, 0x3F, 0x40, 0, 0, 0, 0, 0] [] 1 []⟩) := by decide
theorem test_reassemble_loads :
    look (fun t => (t.owner, t.fd.cur, t.fd.state)) (step { demo [] with
      dev := ⟨0, 2⟩, owner := some ⟨.reassemble, .bindItems .temperatures #v[1, 0x3F, 0x40, 0, 0, 0, 0, 0] [] 1 []⟩ }) =
      some (some ⟨.reassemble, .items .temperatures 6 [] 1 []⟩, 1, .loaded) := by decide

/-! ## RESET and the step (95, 2.6) -/

theorem test_reset :
    look (fun t => (t.rx.state, t.dev, t.lastCause)) (exec .reset { armed 0x90 with dev := ⟨16, 4⟩, lastCause := .opBusy }) =
      some (.idle, ⟨0, 0⟩, .none) := by decide
/-- R202, 92 D33: RESET cuts a frame of an EXCHANGE, and lands in its backoff; what was recorded stays. -/
theorem test_reset_mid_frame :
    look (fun t => (t.tx.state, t.owner, t.ex.state, t.link.history))
      (step { paused .exchange .send (req 0x90) 1 with agenda := [.op .reset], link := ⟨[.flush], [0xA5], [], false, [], 0⟩ }) =
      some (.idle, none, .idle, [.flush]) := by decide
theorem test_reset_in_backoff :
    look (fun t => (t.owner, t.ex.state, t.ex.attempt)) (step { paused .exchange .backoff (req 0x90) 2 with agenda := [.op .reset] }) =
      some (none, .idle, 0) := by decide
theorem test_idle_waits : look (fun t => t == demo []) (step (demo [])) = some true := by decide

/-! ## Witnesses: for each obligation with hypotheses, states and operands that meet them, clause by clause -/

/-- The machine with these requests to come. -/
def asked (rs : List Request) : State := { demo [socAnswer] with agenda := rs }

/-- A call of EXCHANGE blocked in its first read, its answer to come. -/
def blocked : State := waiting .exchange (req 0x90) 1 [] [socAnswer]

/-- The same frame with a wrong checksum, and for another command. -/
def badSum : List Byte := socAnswer.dropLast ++ [0xB1]
def otherCmd : List Byte := [0xA5, 0x01, 0x91, 0x08, 0x0E, 0x74, 0x00, 0x00, 0x77, 0x24, 0x03, 0x52, 0xB1]

/-- An answer frame with this command id and payload. -/
def answer (cmd : Byte) (p : Payload) : List Byte := (sealFrame startByte 0x01 cmd lenByte p).toList

/-- A payload of negative fields. -/
def lowPayload : Payload := #v[0x80, 0x00, 0x00, 0x00, 0x80, 0x00, 0x80, 0x7F]

/-- A byte list of thirteen bytes and one of none, at both ends of what a word of 104 bits holds. -/
theorem witness_DecodeOfEncodeIsIdentity :
    ((Instr.descReserved 0xFF).wf = true ∧ encodeWord (.descReserved 0xFF) = some ⟨.fdField, [0xFF]⟩) ∧
    (Instr.wf (.frameRequest 0x40 0x90 #v[0, 0, 0, 0, 0, 0, 0, 0] 0x7D) = true ∧
      (encodeWord (.frameRequest 0x40 0x90 #v[0, 0, 0, 0, 0, 0, 0, 0] 0x7D)).isSome = true) := by decide
theorem witness_EncodeOfDecodeIsIdentity : decodeWord ⟨.fdField, [0x08]⟩ = .ok .bool := by rfl
theorem witness_StepRunsFetchedOperation :
    ((asked [.op .flush]).agenda = [.op .flush] ∧ Instr.wf .flush = true ∧ (asked [.op .flush]).owner = none) ∧
    (decodeWord ⟨.fdField, [0x08]⟩ = .ok .bool ∧ Instr.wf .bool = true ∧
      (asked [.word ⟨.fdField, [0x08]⟩]).agenda = [.word ⟨.fdField, [0x08]⟩]) ∧
    ({ blocked with agenda := [.op .rxAbort] }.agenda = [.op .rxAbort] ∧ isEventOp .rxAbort = true) :=
  ⟨⟨rfl, rfl, rfl⟩, ⟨rfl, rfl, rfl⟩, rfl, rfl⟩
theorem witness_StepTakesOneEvent :
    (demo []).agenda = [] ∧ (asked [.event]).agenda = [.event] ∧ (asked [.wake]).agenda = [.wake] ∧
    { blocked with agenda := [.op .flush] }.agenda = [.op .flush] ∧ blocked.owner.isSome = true ∧
    isEvent (.op .flush) = false ∧ isEvent (.word ⟨.fdField, [0x08]⟩) = false := by decide
theorem witness_PlacedWordRunsNext :
    decodeTableWord 8 0 = some .u8 ∧
    decodeTableWord 104 0xA540900800000000000000007D = some (.frameRequest 0x40 0x90 #v[0, 0, 0, 0, 0, 0, 0, 0] 0x7D) := by
  decide
/-- The owner at each of its strobes. -/
theorem witness_EnvironmentTakesNextEvent_strobes :
    ((paused .exchange (.flush reqFrame) (req 0x90) 1).owner = some ⟨.exchange, .flush reqFrame⟩) ∧
    (lineBusy (paused .exchange (.load reqFrame) (req 0x90) 1) = false ∧
      (paused .exchange (.load reqFrame) (req 0x90) 1).owner = some ⟨.exchange, .load reqFrame⟩ ∧
      encodeFrame (paused .exchange (.load reqFrame) (req 0x90) 1).cfg.addr 0x90 [] = some reqFrame) ∧
    (lineBusy (paused .exchange .arm (req 0x90) 1) = false ∧
      (paused .exchange .arm (req 0x90) 1).owner = some ⟨.exchange, .arm⟩) ∧
    (paused (.interp .soc) (.bind socPayload [1, 1]) (req 0x90) 0).owner = some ⟨.interp .soc, .bind socPayload (1 :: [1])⟩ ∧
    ({ loaded socPayload 0 with owner := some ⟨.decodeFields, .decode 1 [3] []⟩ }.owner =
      some ⟨.decodeFields, .decode 1 [3] []⟩) ∧
    (paused .reassemble (.bindItems .voltages socPayload [] 1 []) (req 0x90) 0).owner =
      some ⟨.reassemble, .bindItems .voltages socPayload [] 1 []⟩ ∧
    ({ loaded socPayload 1 with owner := some ⟨.reassemble, .items .temperatures 6 [] 1 []⟩ }.owner =
      some ⟨.reassemble, .items .temperatures 6 [] 1 []⟩) := by
  decide
/-- An owner that waits, or none: sending; a byte held; the answer's end; a listed answer and a free one; nothing enabled; each
wait, and a place that is none. -/
theorem witness_EnvironmentTakesNextEvent :
    (ownerWaits (paused .exchange .send (req 0x90) 1) = true ∧ (paused .exchange .send (req 0x90) 1).tx.state = .sending) ∧
    (ownerWaits (lastByte .exchange (req 0x90) 1 [] socAnswer) = true ∧
      (lastByte .exchange (req 0x90) 1 [] socAnswer).tx.state = .idle ∧
      (lastByte .exchange (req 0x90) 1 [] socAnswer).rx.state = .receiving ∧
      (lastByte .exchange (req 0x90) 1 [] socAnswer).link.buffered = [0xB0]) ∧
    ((silence .exchange (req 0x90) 1 []).rx.state = .receiving ∧ (silence .exchange (req 0x90) 1 []).link.buffered = [] ∧
      (silence .exchange (req 0x90) 1 []).link.answered = true) ∧
    (blocked.tx.state = .idle ∧ blocked.rx.state = .receiving ∧ blocked.link.buffered = [] ∧ blocked.link.answered = false ∧
      blocked.link.oracle = [socAnswer]) ∧
    (ownerWaits (armed 0x90) = true ∧ (armed 0x90).link.answered = false ∧ (armed 0x90).link.oracle = []) ∧
    (lineBusy (demo []) = false ∧ (demo []).owner = none) ∧
    (paused .exchange .send (req 0x90) 1).owner = some ⟨.exchange, .send⟩ ∧ blocked.owner = some ⟨.exchange, .collect⟩ ∧
    (paused .exchange .pace (req 0x90) 1).owner = some ⟨.exchange, .pace⟩ ∧
    (paused .exchange .backoff (req 0x90) 1).owner = some ⟨.exchange, .backoff⟩ ∧ Phase.waits .arm = false := by
  refine ⟨⟨rfl, rfl⟩, ⟨rfl, rfl, rfl, rfl⟩, ⟨rfl, rfl, rfl⟩, ⟨rfl, rfl, rfl, rfl, rfl⟩, ⟨rfl, rfl, rfl⟩, ⟨rfl, rfl⟩, rfl, rfl,
    rfl, rfl, rfl⟩
theorem witness_ResetOperationAppliesAll :
    { paused .exchange .pace (req 0x90) 1 with agenda := [.op .reset] }.agenda = [.op .reset] := rfl
/-- States that meet the invariant and have a step: the idle machine asked to send, and a call in each of its waits. -/
theorem witness_StepKeepsInvariant_idle :
    (asked [.op .getSoc]).Inv ∧ ∃ t, step (asked [.op .getSoc]) = .next t := by
  refine ⟨⟨?_, ?_, ?_, ?_, ?_, ?_⟩, ⟨_, rfl⟩⟩ <;>
    simp [asked, demo, State.reset, TxUnit.reset, RxUnit.reset, FdUnit.reset, ExUnit.reset, TxUnit.Inv, RxUnit.Inv,
      FdUnit.Inv, ExUnit.Inv, OwnerInv]
theorem witness_StepKeepsInvariant_collect : blocked.Inv ∧ ∃ t, step blocked = .next t := by
  refine ⟨⟨?_, ?_, ?_, ?_, ?_, ?_⟩, ⟨_, rfl⟩⟩ <;>
    simp [blocked, waiting, req, armRx, demo, State.reset, TxUnit.reset, RxUnit.reset, FdUnit.reset, ExUnit.reset, TxUnit.Inv,
      RxUnit.Inv, FdUnit.Inv, ExUnit.Inv, OwnerInv, demoCfg, Call.runsExchange, Call.runsAttempt, Phase.inAttempt, frameLen, offCsum, checksum]
theorem witness_StepKeepsInvariant_paused :
    (paused .exchange .send (req 0x90) 1).Inv ∧ (paused .exchange .pace (req 0x90) 1).Inv ∧
    (paused .exchange .backoff (req 0x90) 1).Inv := by
  refine ⟨⟨?_, ?_, ?_, ?_, ?_, ?_⟩, ⟨?_, ?_, ?_, ?_, ?_, ?_⟩, ⟨?_, ?_, ?_, ?_, ?_, ?_⟩⟩ <;>
    simp [paused, req, demo, State.reset, TxUnit.reset, RxUnit.reset, FdUnit.reset, ExUnit.reset, TxUnit.Inv,
      RxUnit.Inv, FdUnit.Inv, ExUnit.Inv, OwnerInv, demoCfg, Call.runsExchange, Call.runsAttempt, Phase.inAttempt, lineBusy,
      txBusy, rxBusy, frameLen]
/-- The owner at its strobes: before the flush, before a read, and in a decode. -/
theorem witness_StepKeepsInvariant_strobes :
    (paused .exchange (.flush reqFrame) (req 0x90) 1).Inv ∧ (paused .exchange .arm (req 0x90) 1).Inv ∧
    State.Inv { loaded socPayload 1 with owner := some ⟨.interp .cellVoltages, .items .voltages 2 [] 1 []⟩ } := by
  refine ⟨⟨?_, ?_, ?_, ?_, ?_, ?_⟩, ⟨?_, ?_, ?_, ?_, ?_, ?_⟩, ⟨?_, ?_, ?_, ?_, ?_, ?_⟩⟩ <;>
    first
    | exact ⟨by decide, ⟨rfl, rfl⟩⟩
    | simp [paused, loaded, req, demo, State.reset, TxUnit.reset, RxUnit.reset, FdUnit.reset, ExUnit.reset, TxUnit.Inv,
        RxUnit.Inv, FdUnit.Inv, ExUnit.Inv, OwnerInv, demoCfg, Call.runsExchange, Call.runsAttempt, Call.isInterp,
        Phase.inAttempt, lineBusy, txBusy, rxBusy, frameLen, payloadLen, seriesWidth, voltWidth]
theorem witness_StepKeepsConfigurationAndRecord :
    ∃ t, step (paused .exchange .send (req 0x90) 1) = .next t ∧ t.link.sent = [0x7D] := ⟨_, rfl, by decide⟩
theorem witness_OnlyResetClearsLastCause :
    ∃ t, step { asked [.op .reset] with lastCause := .opBusy } = .next t ∧ t.lastCause = .none := ⟨_, rfl, rfl⟩
theorem witness_CountsWrittenOnlyByStatus :
    ∃ t, step { loaded #v[0x10, 4, 1, 0, 0, 0, 0, 0] 3 with
      owner := some ⟨.interp .status, .decode 0x00 [] [.num 16, .num 4, .num 1]⟩ } = .next t ∧
      t.dev = ⟨16, 4⟩ := ⟨_, rfl, by decide⟩
/-- (b) at bit 7 of the checksum byte, (c) at a carry out of a byte, and a reordering. -/
theorem witness_ChecksumLaws :
    (7 < 8 ∧ [0x01] ++ [checksum [0x01]] = [0x01] ++ (0x01 : Byte) :: []) ∧ (0xFF + 0x01 = (0x00 : Byte) + 0x00) ∧
    List.Perm [(1 : Byte), 2] [2, 1] := by
  refine ⟨by decide, by decide, List.Perm.swap _ _ _⟩
theorem witness_HexRoundTrip : hexToBytes ['0', 'f'] = some [0x0F] := by decide
theorem witness_MalformedHexReturnsNothing :
    (['0', 'f'].length % 2 = 0 ∧ ∀ c ∈ ['0', 'f'], c ∈ "0123456789abcdef".toList) ∧
    ¬(['0'].length % 2 = 0) ∧ ¬('F' ∈ "0123456789abcdef".toList) ∧ ¬('g' ∈ "0123456789abcdef".toList) := by
  refine ⟨⟨by decide, by simp⟩, by decide, by simp, by simp⟩
theorem witness_EncodeReturnsFrame :
    ([1, 2, 3, 4, 5, 6, 7, 8] : List Byte).length ≤ 8 ∧ 8 < ([1, 2, 3, 4, 5, 6, 7, 8, 9] : List Byte).length := by decide
theorem witness_ValidateReturnsJudgement :
    (frameOf otherCmd)[2] ≠ 0x90 ∧
    ((frameOf badSum)[2] = 0x90 ∧ checksum ((frameOf badSum).toList.take 12) ≠ (frameOf badSum)[12]) ∧
    ((frameOf socAnswer)[2] = 0x90 ∧ checksum ((frameOf socAnswer).toList.take 12) = (frameOf socAnswer)[12]) := by decide
/-- (d): another START byte and another LEN byte with the same sum. -/
theorem witness_ValidateEncodeLaws :
    ([1, 2, 3, 4, 5, 6, 7, 8] : List Byte).length ≤ 8 ∧ (0x91 : Byte) ≠ 0x90 ∧
    (∃ f, encodeFrame 0x40 0x90 [1, 2, 3, 4, 5, 6, 7, 8] = some f) ∧
    (#v[0xA4, 0x40, 0x90, 0x09, 0, 0, 0, 0, 0, 0, 0, 0, 0x7D] : Frame)[2] = reqFrame[2] ∧
    (#v[0xA4, 0x40, 0x90, 0x09, 0, 0, 0, 0, 0, 0, 0, 0, 0x7D] : Frame).toList.drop 4 = reqFrame.toList.drop 4 ∧
    checksum ((#v[0xA4, 0x40, 0x90, 0x09, 0, 0, 0, 0, 0, 0, 0, 0, 0x7D] : Frame).toList.take 12) =
      checksum (reqFrame.toList.take 12) := by
  refine ⟨by decide, by decide, ⟨_, rfl⟩, by decide, by decide, by decide⟩
theorem witness_TxLoadBuildsFrame :
    lineBusy (demo []) = false ∧ ([1, 2, 3, 4, 5, 6, 7, 8] : List Byte).length ≤ 8 ∧
    8 < ([1, 2, 3, 4, 5, 6, 7, 8, 9] : List Byte).length ∧ lineBusy (armed 0x90) = true ∧
    lineBusy (loadTx reqFrame (demo [])) = true := by decide
theorem witness_TxByteSendsNext :
    ((loadTx reqFrame (demo [])).tx.idx < 13 ∧ (loadTx reqFrame (demo [])).tx.state = .sending) ∧
    ((paused .write .send (req 0x90) 0).tx.idx = 12 ∧ (paused .write .send (req 0x90) 0).tx.state = .sending) ∧
    (demo []).tx.state ≠ .sending := by decide
theorem witness_TransmitEquivalence :
    lineBusy (demo []) = false ∧ ([1, 2, 3, 4, 5, 6, 7, 8] : List Byte).length ≤ 8 ∧ engaged (demo []) = false := by decide
theorem witness_RxArmStartsRead : lineBusy (demo []) = false ∧ lineBusy (armed 0x90) = true := by decide

/-- A host's read for the command id `e` with 11, or with 12, bytes of the answer taken. -/
def reading (e : Byte) (n : Nat) : State :=
  { armed e with rx := ⟨frameOf socAnswer, n, checksum (socAnswer.take n), e, .receiving⟩ }

/-- With nothing held, and behind a byte held. -/
theorem witness_RxByteStoresUntilTwelfth :
    ((reading 0x90 11).link.buffered ++ [0x52] = 0x52 :: [] ∧ (reading 0x90 11).rx.idx < 12 ∧
      (reading 0x90 11).rx.state = .receiving) ∧
    ((bufferBytes [0x11] (armed 0x90)).link.buffered ++ [0x22] = 0x11 :: [0x22] ∧ (armed 0x90).rx.idx < 12 ∧
      (armed 0x90).rx.state = .receiving) ∧ (demo []).rx.state ≠ .receiving := by decide
theorem witness_RxByteJudgesThirteenth :
    (reading 0x90 12).rx.state = .receiving ∧ (reading 0x90 12).rx.idx = 12 ∧
    (reading 0x90 12).link.buffered ++ [0xB0] = 0xB0 :: [] ∧
    (bufferBytes [0xB1] (reading 0x90 12)).link.buffered ++ [0xA5] = 0xB1 :: [0xA5] ∧
    (reading 0x91 12).rx.buf[2] ≠ (reading 0x91 12).rx.expect ∧ (reading 0x90 12).rx.buf[2] = (reading 0x90 12).rx.expect ∧
    0xB1 ≠ (reading 0x90 12).rx.sum ∧ 0xB0 = (reading 0x90 12).rx.sum := by decide
theorem witness_RxAbortEndsRead : (armed 0x90).rx.state = .receiving ∧ (demo []).rx.state ≠ .receiving := by decide
/-- Nothing held, and the first byte of the answer held with as many bytes to come as the answer has. -/
theorem witness_ReceiveEquivalence :
    lineBusy (demo []) = false ∧ (socAnswer.take 12).length < 13 ∧ socAnswer.length ≤ 13 ∧
    socAnswer = ((demo []).link.buffered ++ socAnswer).take socAnswer.length ∧
    socAnswer = ((bufferBytes [0xA5] (demo [])).link.buffered ++ (socAnswer.tail ++ [0xFF])).take
      (socAnswer.tail ++ [0xFF]).length ∧
    validateFrame (frameOf socAnswer) 0x90 = .ok socPayload ∧ validateFrame (frameOf otherCmd) 0x90 = .error .rxCmdMismatch ∧
    validateFrame (frameOf badSum) 0x90 = .error .rxCsumFail := by
  refine ⟨by decide, by decide, by decide, by decide, by decide, rfl, rfl, rfl⟩
/-- Its conclusion on the second of these states. -/
theorem test_receive_held :
    look (fun t => (t.rx.state, t.rx.buf, t.link.buffered))
      (execAll (.rxArm 0x90 :: (socAnswer.tail ++ [0xFF]).map .rxByte) (bufferBytes [0xA5] (demo []))) =
      some (.accept, frameOf socAnswer, [0xFF]) := by decide
theorem witness_FlagsAndViewsFollowStates :
    { demo [] with rx := ⟨frameOf socAnswer, 13, 0xB0, 0x90, .accept⟩ }.rx.state = .accept ∧ (demo []).rx.state ≠ .accept := by
  decide
theorem witness_WriteSendsFrame :
    (lineBusy (demo []) = false ∧ engaged (demo []) = false ∧ 12 ≤ 12) ∧ lineBusy (armed 0x90) = true ∧
    reqFrame = frameOf (wireBytes 0xA5 0x40 0x90 0x08 #v[0, 0, 0, 0, 0, 0, 0, 0] 0x7D) := by decide
theorem witness_ReceivedFrameIsDelivered :
    (armed 0x90).owner = none ∧ (armed 0x90).tx.state = .idle ∧ (armed 0x90).rx.state = .receiving ∧ (armed 0x90).rx.idx = 0 ∧
    (armed 0x90).rx.sum = 0 ∧ (armed 0x90).link.buffered = [] := by decide
theorem witness_FlushAndSleepOnlyRecord :
    engaged (demo []) = false ∧ lineBusy (demo []) = false ∧
    (∀ c, blocked.owner ≠ some ⟨c, .pace⟩ ∧ blocked.owner ≠ some ⟨c, .backoff⟩) := by
  refine ⟨by decide, by decide, fun c => ⟨?_, ?_⟩⟩ <;> (intro h; cases h)
/-- Reads with a whole, a short and a free answer; a busy line. -/
theorem witness_ReadReturnsAnswer :
    (lineBusy (demo []) = false ∧ engaged (demo []) = false) ∧
    (∀ r ∈ [socAnswer, [0xA5], []], (waiting (.read 2) (req 0x90) 0 [] [r]).owner = some ⟨.read 2, .collect⟩ ∧
      (waiting (.read 2) (req 0x90) 0 [] [r]).tx.state = .idle ∧ (waiting (.read 2) (req 0x90) 0 [] [r]).rx.state = .receiving ∧
      (waiting (.read 2) (req 0x90) 0 [] [r]).rx.idx = 0 ∧ (waiting (.read 2) (req 0x90) 0 [] [r]).rx.sum = 0 ∧
      (waiting (.read 2) (req 0x90) 0 [] [r]).link.buffered = [] ∧ (waiting (.read 2) (req 0x90) 0 [] [r]).link.answered = false ∧
      r.length ≤ 13 ∧ (waiting (.read 2) (req 0x90) 0 [] [r]).link.oracle = [r]) ∧
    ((waiting (.read 2) (req 0x90) 0 [] []).link.oracle = [] ∧
      ((Config.linkAnswer (waiting (.read 2) (req 0x90) 0 [] []).link.draws).take 13).length ≤ 13) ∧
    lineBusy (armed 0x90) = true := by
  refine ⟨by decide, by decide, ⟨rfl, List.length_take_le _ _⟩, by decide⟩

/-- The machine with a request latched. -/
def latched (q : ExReq) (answers : List (List Byte)) : State := { demo answers with ex := ⟨.idle, 0, [], q⟩ }

/-- A frame is discarded and the next accepted; then with two asked for the attempt waits for more. -/
theorem witness_AttemptFollowsPseudocode :
    Ready (latched (req 0x90) [badSum, socAnswer]) ∧ (latched (req 0x90) [badSum, socAnswer]).ex.req.extra.length ≤ 8 ∧
    (attemptSpec (req 0x90) (requestFrame demoCfg (req 0x90)) [badSum, socAnswer] .none).ended = true ∧
    Ready (latched ⟨0x90, [], 2, 5, 7⟩ [badSum, socAnswer]) ∧
    (attemptSpec ⟨0x90, [], 2, 5, 7⟩ (requestFrame demoCfg (req 0x90)) [badSum, socAnswer] .none).ended = false := by
  refine ⟨⟨rfl, rfl, by decide⟩, by decide, rfl, ⟨rfl, rfl, by decide⟩, rfl⟩
/-- Silence, then the answer in the second attempt; a discarded frame, and nothing more listed; no attempts at all. -/
theorem witness_ExchangeFollowsPseudocode :
    Ready (demo [[], socAnswer]) ∧ (req 0x90).extra.length ≤ 8 ∧
    (exchangeSpec 9 (req 0x90) (requestFrame demoCfg (req 0x90)) 3 [[], socAnswer] .none).ended = true ∧
    (exchangeSpec 9 (req 0x90) (requestFrame demoCfg (req 0x90)) 3 [[], socAnswer] .none).got = [socPayload] ∧
    Ready (demo [badSum]) ∧
    (exchangeSpec 9 (req 0x90) (requestFrame demoCfg (req 0x90)) 3 [badSum] .none).ended = false ∧
    Ready { demo [] with cfg := { demoCfg with retryCount := 0 } } := by
  refine ⟨⟨rfl, rfl, by decide⟩, by decide, rfl, rfl, ⟨rfl, rfl, by decide⟩, rfl, ⟨rfl, rfl, by decide⟩⟩
/-- Every row: EXCHANGE called, with attempts and with none; flush, load and the last byte of the frame; the pause, with and without
a read to follow; the read's arming; silence, a reject and an accept, with more to collect and with none; the backoff. -/
theorem witness_SequencerFollowsTable :
    Call.exchange.runsExchange = true ∧ (Call.interp .soc).runsExchange = true ∧
    (engaged (demo []) = false ∧ (demo []).cfg.retryCount ≠ 0 ∧ (req 0x90).extra.length ≤ 8 ∧
      engaged { demo [] with cfg := { demoCfg with retryCount := 0 } } = false) ∧
    ((paused .exchange (.flush reqFrame) (req 0x90) 1).owner = some ⟨.exchange, .flush reqFrame⟩ ∧
      (paused .exchange (.load reqFrame) (req 0x90) 1).owner = some ⟨.exchange, .load reqFrame⟩ ∧
      lineBusy (paused .exchange (.load reqFrame) (req 0x90) 1) = false) ∧
    ((paused .exchange .send (req 0x90) 1).owner = some ⟨.exchange, .send⟩ ∧ (paused .exchange .send (req 0x90) 1).tx.state = .sending ∧
      (paused .exchange .send (req 0x90) 1).tx.idx = 12) ∧
    ((paused .exchange .pace (req 0x90) 1).owner = some ⟨.exchange, .pace⟩ ∧ lineBusy (paused .exchange .pace (req 0x90) 1) = false ∧
      0 < (paused .exchange .pace (req 0x90) 1).ex.req.maxResponses ∧
      (paused .exchange .pace ⟨0x90, [], 0, 5, 7⟩ 1).ex.req.maxResponses = 0) ∧
    ((paused .exchange .arm (req 0x90) 1).owner = some ⟨.exchange, .arm⟩ ∧ lineBusy (paused .exchange .arm (req 0x90) 1) = false) ∧
    (∀ x ∈ [RxState.noData, .rejectCmd, .rejectCsum],
      { blocked with rx := { blocked.rx with state := x } }.owner = some ⟨.exchange, .collect⟩ ∧
      { blocked with rx := { blocked.rx with state := x } }.rx.state = x ∧
      { blocked with rx := { blocked.rx with state := x } }.ex.collected.length < blocked.ex.req.maxResponses) ∧
    (rxPayload { blocked with rx := ⟨frameOf socAnswer, 13, 0xB0, 0x90, .accept⟩ } = some socPayload ∧
      blocked.ex.collected.length + 1 = blocked.ex.req.maxResponses ∧
      (waiting .exchange ⟨0x90, [], 2, 5, 7⟩ 1 [] []).ex.collected.length + 1 <
        (waiting .exchange ⟨0x90, [], 2, 5, 7⟩ 1 [] []).ex.req.maxResponses) ∧
    ((paused .exchange .backoff (req 0x90) 1).owner = some ⟨.exchange, .backoff⟩ ∧
      lineBusy (paused .exchange .backoff (req 0x90) 1) = false ∧ (paused .exchange .backoff (req 0x90) 1).ex.req.extra.length ≤ 8) := by
  decide
/-- The three ends of an attempt: payloads, for EXCHANGE and for an interpreter of one schema; none and attempts left; none and no
attempt left. -/
theorem witness_attemptEnds :
    [socPayload] ≠ [] ∧ interpSeries .soc = none ∧
    (silence .exchange (req 0x90) 1 []).ex.attempt < (silence .exchange (req 0x90) 1 []).cfg.retryCount ∧
    (silence .exchange (req 0x90) 3 []).ex.attempt = (silence .exchange (req 0x90) 3 []).cfg.retryCount := by decide
theorem witness_RejectedAnswersNeverEndAttempt :
    Ready (demo [badSum, otherCmd]) ∧ 1 ≤ (demo [badSum, otherCmd]).cfg.retryCount ∧
    ∀ r ∈ (demo [badSum, otherCmd]).link.oracle, r.length = 13 ∧ ∃ x, validateFrame (frameOf r) 0x90 = .error x := by
  refine ⟨⟨rfl, rfl, by decide⟩, by decide, ?_⟩
  intro r hr
  have hm : r = badSum ∨ r = otherCmd := by simpa [demo] using hr
  rcases hm with rfl | rfl
  · exact ⟨by decide, _, rfl⟩
  · exact ⟨by decide, _, rfl⟩
theorem witness_SilentExchangeReturnsEmpty :
    Ready (demo [[], [], [], socAnswer]) ∧ (demo [[], [], [], socAnswer]).cfg.retryCount = 2 + 1 ∧
    (demo [[], [], [], socAnswer]).link.oracle = List.replicate (2 + 1) [] ++ [socAnswer] := by
  refine ⟨⟨rfl, rfl, by decide⟩, rfl, rfl⟩
theorem witness_ExchangeThatSendsNothing :
    engaged (demo []) = false ∧ 8 < ([1, 2, 3, 4, 5, 6, 7, 8, 9] : List Byte).length ∧
    engaged { demo [] with cfg := { demoCfg with retryCount := 0 } } = false ∧
    { demo [] with cfg := { demoCfg with retryCount := 0 } }.cfg.retryCount = 0 ∧
    engaged (latched ⟨0x90, [1, 2, 3, 4, 5, 6, 7, 8, 9], 1, 5, 7⟩ []) = false := by decide
theorem witness_BusyLineEndsAttempt :
    engaged (armed 0x90) = false ∧ lineBusy (armed 0x90) = true ∧ (armed 0x90).ex.req.extra.length ≤ 8 ∧
    1 ≤ (armed 0x90).cfg.retryCount ∧ (req 0x90).extra.length ≤ 8 ∧
    engaged (loadTx reqFrame (demo [])) = false ∧ lineBusy (loadTx reqFrame (demo [])) = true ∧
    (lineBusy { loadTx reqFrame (demo []) with owner := some ⟨.exchange, .arm⟩ } = true) := by decide
theorem witness_SecondOwnerStops :
    engaged blocked = true ∧ engaged (paused (.sleep 4) .pace (req 0x90) 0) = true ∧
    lineBusy (paused (.sleep 4) .pace (req 0x90) 0) = false := by decide

/-- What BlockedCallGoesOn asks of the state it starts from. -/
def Fresh (c : Call) (s : State) : Prop :=
  c.runsAttempt = true ∧ s.owner = some ⟨c, .collect⟩ ∧ s.ret = none ∧ s.tx.state = .idle ∧ s.rx.state = .receiving ∧ s.rx.idx = 0 ∧
  s.rx.sum = 0 ∧ s.rx.expect = s.ex.req.cmd ∧ s.link.buffered = [] ∧ s.link.answered = false ∧
  (∀ r ∈ s.link.oracle, r.length ≤ 13) ∧ s.ex.req.extra.length ≤ 8 ∧ s.ex.collected.length < s.ex.req.maxResponses ∧
  (c.runsExchange = true → s.ex.state = .running ∧ s.ex.attempt ≤ s.cfg.retryCount)

/-- An ATTEMPT with more to collect; an EXCHANGE after a reject and a short answer in its last attempt but one; one whose last
attempt stays silent; an interpreter's. -/
theorem witness_BlockedCallGoesOn :
    (Fresh .attempt (waiting .attempt ⟨0x90, [], 3, 5, 7⟩ 0 [socPayload] [socAnswer]) ∧
      (collectSpec ⟨0x90, [], 3, 5, 7⟩ [socAnswer] [socPayload] .none).ended = false) ∧
    (Fresh .exchange (waiting .exchange (req 0x90) 2 [] [otherCmd, [0xA5], socAnswer]) ∧
      (resumeSpec 9 (req 0x90) (requestFrame demoCfg (req 0x90)) (3 - 2) [otherCmd, [0xA5], socAnswer] [] .none).got = [socPayload]) ∧
    (Fresh .exchange (waiting .exchange (req 0x90) 3 [] [[]]) ∧
      (resumeSpec 9 (req 0x90) (requestFrame demoCfg (req 0x90)) (3 - 3) [[]] [] .none).cause = .exRetriesExhausted) ∧
    (Fresh (.interp .soc) (waiting (.interp .soc) (req 0x90) 1 [] [socAnswer]) ∧
      (resumeSpec 9 (req 0x90) (requestFrame demoCfg (req 0x90)) (3 - 1) [socAnswer] [] .none).ended = true) := by
  refine ⟨⟨⟨rfl, rfl, rfl, rfl, rfl, rfl, rfl, rfl, rfl, rfl, by decide, by decide, by decide, by decide⟩, rfl⟩,
    ⟨⟨rfl, rfl, rfl, rfl, rfl, rfl, rfl, rfl, rfl, rfl, by decide, by decide, by decide, by decide⟩, rfl⟩,
    ⟨⟨rfl, rfl, rfl, rfl, rfl, rfl, rfl, rfl, rfl, rfl, by decide, by decide, by decide, by decide⟩, rfl⟩,
    ⟨⟨rfl, rfl, rfl, rfl, rfl, rfl, rfl, rfl, rfl, rfl, by decide, by decide, by decide, by decide⟩, rfl⟩⟩

/-- The machine after a frame has been accepted and collected. -/
def accepted : State :=
  { demo [] with rx := ⟨frameOf socAnswer, 13, 0xB0, 0x90, .accept⟩, ex := ⟨.idle, 0, [socPayload], req 0x90⟩ }

theorem witness_FdLoadBindsPayload :
    8 ≤ 8 ∧ accepted.rx.state = .accept ∧ accepted.ex.collected[0]? = some socPayload ∧ (demo []).rx.state ≠ .accept ∧
    accepted.ex.collected.length ≤ 1 ∧ payloadOperand accepted .rxPayload = some socPayload ∧ 8 < 9 := by decide
/-- At the last cursor with room for each width. -/
theorem witness_UnsignedFieldValues :
    (loaded socPayload 7).fd.state = .loaded ∧ (7 + 1 ≤ 8 ∧ (0x52 : Int) = byteNum socPayload 7) ∧
    (6 + 2 ≤ 8 ∧ (850 : Int) = 256 * byteNum socPayload 6 + byteNum socPayload (6 + 1)) ∧
    (4 + 4 ≤ 8 ∧ (0x77240352 : Int) = 2 ^ 24 * byteNum socPayload 4 + 2 ^ 16 * byteNum socPayload (4 + 1) +
      2 ^ 8 * byteNum socPayload (4 + 2) + byteNum socPayload (4 + 3)) := by decide
theorem witness_SignedFieldValues :
    (loaded lowPayload 0).fd.state = .loaded ∧ (0 + 1 ≤ 8 ∧ (-128 : Int) = signedNum 8 (byteNum lowPayload 0)) ∧
    (7 + 1 ≤ 8 ∧ (127 : Int) = signedNum 8 (byteNum lowPayload 7)) ∧
    (4 + 2 ≤ 8 ∧ (-32768 : Int) = signedNum 16 (256 * byteNum lowPayload 4 + byteNum lowPayload (4 + 1))) ∧
    (0 + 4 ≤ 8 ∧ (-2147483648 : Int) = signedNum 32 (2 ^ 24 * byteNum lowPayload 0 + 2 ^ 16 * byteNum lowPayload (0 + 1) +
      2 ^ 8 * byteNum lowPayload (0 + 2) + byteNum lowPayload (0 + 3))) := by decide
theorem witness_BoolFieldValue :
    (loaded lowPayload 7).fd.state = .loaded ∧ (loaded lowPayload 7).fd.cur + 1 ≤ 8 ∧
    (true = true ↔ byteNum (loaded lowPayload 7).fd.buf (loaded lowPayload 7).fd.cur ≠ 0) ∧
    (false = true ↔ byteNum (loaded lowPayload 1).fd.buf (loaded lowPayload 1).fd.cur ≠ 0) := by decide
theorem witness_FieldFaultsTaken :
    (demo []).fd.state ≠ .loaded ∧ (loaded socPayload 8).fd.state = .loaded ∧ 8 < (loaded socPayload 8).fd.cur + 1 ∧
    8 < (loaded socPayload 7).fd.cur + 2 ∧ 8 < (loaded socPayload 5).fd.cur + 4 ∧ listedReserved 0x03 = true ∧
    listedReserved 0x09 = true ∧ listedReserved 0xFF = true := by decide
/-- A tuple; a field past the end; a reserved descriptor, which comes first also where a field would not fit. -/
theorem witness_DecodeFieldsReturnsTuple :
    engaged (demo []) = false ∧ payloadOperand (demo []) (.bytes socPayload) = some socPayload ∧
    schemaSpec socPayload [1, 1, 1, 1] 0 = some ([.num 3700, .num 0, .num 30500, .num 850], 8) ∧
    (schemaSpec socPayload [1, 1, 1, 1, 0] 0 = none ∧
      schemaRaise socPayload [1, 1, 1, 1, 0] 0 = some (.fdFieldRange 8 1, 8)) ∧
    (schemaSpec socPayload [2, 2, 3] 0 = none ∧ schemaRaise socPayload [2, 2, 3] 0 = some (.fdBadDesc 3, 8)) ∧
    payloadOperand (demo []) .rxPayload = none := by decide
theorem witness_ReassembleNumbersInOrder : engaged (demo []) = false := by decide
theorem witness_FieldDecoderLaws :
    (fields [0x01, 0x00] (loadFd socPayload 5 (demo []))).2 = some [.num 0x2403, .num 0x52] ∧
    ((loaded socPayload 6).fd.state = .loaded ∧ (loaded #v[9, 9, 9, 9, 9, 9, 0x03, 0x52] 6).fd.cur = (loaded socPayload 6).fd.cur ∧
      ∀ k, k < 1 <<< ((0x01 : Byte).toNat % 4) → byteNum socPayload (6 + k) =
        byteNum #v[9, 9, 9, 9, 9, 9, 0x03, 0x52] (6 + k)) ∧
    4 + 4 ≤ 8 ∧ (field 0x05 (loaded lowPayload 4)).2 = some (.num (-32768)) ∧
    (field 0x08 (loaded lowPayload 7)).2 = some (.truth true) := by decide

/-- A machine whose peer answers a request with a spoiled frame, then too few bytes, and the second attempt with the payload. -/
def trouble (cmd : Byte) (p : Payload) : State :=
  demo [(answer cmd p).dropLast ++ [checksum (answer cmd p)], [0xA5], answer cmd p]

/-- The exchange of an interpreter of one response, as its pseudocode. -/
def episode (cmd : Byte) (p : Payload) : Episode :=
  exchangeSpec 9 (req cmd) (requestFrame demoCfg (req cmd)) 3 (trouble cmd p).link.oracle .none

theorem witness_SingleFrameResults :
    firstReply .soc (trouble 0x90 socPayload) (episode 0x90 socPayload) socPayload ∧
    firstReply .cellVoltageRange (trouble 0x91 lowPayload) (episode 0x91 lowPayload) lowPayload ∧
    firstReply .temperatureRange (trouble 0x92 lowPayload) (episode 0x92 lowPayload) lowPayload ∧
    firstReply .mosfetStatus (trouble 0x93 lowPayload) (episode 0x93 lowPayload) lowPayload := by
  refine ⟨⟨⟨rfl, rfl, by decide⟩, ⟨_, rfl, rfl⟩, rfl, [], rfl⟩, ⟨⟨rfl, rfl, by decide⟩, ⟨_, rfl, rfl⟩, rfl, [], rfl⟩,
    ⟨⟨rfl, rfl, by decide⟩, ⟨_, rfl, rfl⟩, rfl, [], rfl⟩, ⟨⟨rfl, rfl, by decide⟩, ⟨_, rfl, rfl⟩, rfl, [], rfl⟩⟩
theorem witness_StatusResultSetsCounts :
    firstReply .status (trouble 0x94 lowPayload) (episode 0x94 lowPayload) lowPayload :=
  ⟨⟨rfl, rfl, by decide⟩, ⟨_, rfl, rfl⟩, rfl, [], rfl⟩

/-- Four cells and eight sensors, with two frames for each interpreter. -/
def counted (cmd : Byte) : State := { demo [answer cmd socPayload, answer cmd lowPayload] with dev := ⟨4, 8⟩ }

theorem witness_MultiFrameResults :
    (Ready (counted 0x95) ∧ ((counted 0x95).dev.cells.toNat + 2) / 3 = 2 ∧
      (exchangeSpec 9 ⟨0x95, [], 2, 5, 7⟩ (requestFrame demoCfg (req 0x95)) 3 (counted 0x95).link.oracle .none).ended = true ∧
      (exchangeSpec 9 ⟨0x95, [], 2, 5, 7⟩ (requestFrame demoCfg (req 0x95)) 3 (counted 0x95).link.oracle .none).got =
        [socPayload, lowPayload]) ∧
    (Ready (counted 0x96) ∧ ((counted 0x96).dev.sensors.toNat + 6) / 7 = 2 ∧
      (exchangeSpec 9 ⟨0x96, [], 2, 5, 7⟩ (requestFrame demoCfg (req 0x96)) 3 (counted 0x96).link.oracle .none).ended = true ∧
      (exchangeSpec 9 ⟨0x96, [], 2, 5, 7⟩ (requestFrame demoCfg (req 0x96)) 3 (counted 0x96).link.oracle .none).got =
        [socPayload, lowPayload]) := by
  refine ⟨⟨⟨rfl, rfl, by decide⟩, rfl, rfl, rfl⟩, ⟨rfl, rfl, by decide⟩, rfl, rfl, rfl⟩
theorem witness_BitmapResults :
    firstReply .balancingStatus (trouble 0x97 lowPayload) (episode 0x97 lowPayload) lowPayload ∧
    firstReply .faultCodes (trouble 0x98 lowPayload) (episode 0x98 lowPayload) lowPayload := by
  refine ⟨⟨⟨rfl, rfl, by decide⟩, ⟨_, rfl, rfl⟩, rfl, [], rfl⟩, ⟨rfl, rfl, by decide⟩, ⟨_, rfl, rfl⟩, rfl, [], rfl⟩
theorem witness_EmptyExchangeIsEmptyResult :
    Ready (demo [[], [], []]) ∧
    (exchangeSpec 9 (req 0x90) (requestFrame demoCfg (req 0x90)) 3 (demo [[], [], []]).link.oracle .none).ended = true ∧
    (exchangeSpec 9 (req 0x90) (requestFrame demoCfg (req 0x90)) 3 (demo [[], [], []]).link.oracle .none).got = [] := by
  refine ⟨⟨rfl, rfl, by decide⟩, rfl, rfl⟩
theorem witness_ZeroCountsSendAndReturnEmpty :
    Ready (demo []) ∧ (demo []).dev.cells = 0 ∧ (demo []).dev.sensors = 0 := by
  refine ⟨⟨rfl, rfl, by decide⟩, rfl, rfl⟩

end Sys2Proof.Tests
end

section
/-! ## What an operation and a step can do -/

namespace Sys2Proof.Machine

/-- The states the operations that are events of the link can answer (60 R190), RESET apart. -/
inductive LinkNext (s : State) : State → Prop where
  | txByte (h : txBusy s = true) : LinkNext s (setRet none (sendByte s))
  | rxByte (b : Byte) : LinkNext s (setRet none (rxByteEvent b s))
  | rxAbort (h : rxBusy s = true) : LinkNext s (setRet none (abortRx s))
  | arrives (bs : List Byte) : LinkNext s (setRet none (bufferBytes bs s))

/-- The states the host's strobes and calls can answer. The two causes are those raised without a change of any other register. -/
inductive HostNext (s : State) : State → Prop where
  | gives (v : Option Value) : HostNext s (setRet v s)
  | busy : HostNext s (setRet none (takeCause .opBusy s))
  | badLen (n : Nat) : HostNext s (setRet none (takeCause (.txBadLen n) s))
  | field (v : Option Value) (d : Byte) : HostNext s (setRet v (field d s).1)
  | fdLoad (x : Option Payload) (n : Nat) : HostNext s (setRet none (fdLoadOp x n s).1)
  | txLoad (f : Frame) (h : lineBusy s = false) : HostNext s (setRet none (loadTx f s))
  | rxArm (e : Byte) (h : lineBusy s = false) : HostNext s (setRet none (armRx e s))
  | flush : HostNext s (setRet none (flushLink s))
  | write (f : Frame) (h : lineBusy s = false) (k : engaged s = false) : HostNext s (waitFor .write .send (loadTx f s))
  | read (t : Duration) (h : lineBusy s = false) (k : engaged s = false) :
      HostNext s (waitFor (.read t) .collect (armRx s.ex.req.cmd s))
  | sleep (d : Duration) (k : engaged s = false) : HostNext s (waitFor (.sleep d) .pace s)
  | attempt (k : engaged s = false) : HostNext s (startAttempt .attempt s)
  | exchange (c : Call) (q : ExReq) (hc : c.runsExchange = true) (k : engaged s = false) : HostNext s (startExchange c q s)
  | decodeFields (x : Option Payload) (ds : List Byte) (k : engaged s = false) :
      HostNext s (bindSchema .decodeFields x ds s)
  | reassemble (ps : List Payload) (r : Series) (k : engaged s = false) : HostNext s (nextFrame .reassemble r ps 1 [] s)

/-- The calls of a second owner stop the machine (70 R210). -/
theorem hostNext_of_free {s t u : State}
    (h : (if engaged s then Host.Outcome.fault .secondOwner else .next u : Host.Outcome State Fault Refusal) = .next t)
    (k : engaged s = false → HostNext s u) : HostNext s t := by
  split at h <;> cases h
  exact k (Bool.eq_false_iff.2 ‹_›)

/-- What loads a frame or arms a read raises OP_BUSY on a busy line (41 R94, R96). -/
theorem hostNext_of_quiet {s t : State} {o : Host.Outcome State Fault Refusal}
    (h : (if lineBusy s then done (takeCause .opBusy s) else o) = .next t)
    (k : lineBusy s = false → o = .next t → HostNext s t) : HostNext s t := by
  split at h
  · cases h; exact .busy
  · exact k (Bool.eq_false_iff.2 ‹_›) h

theorem startWrite_next {f : Frame} {s t : State} (h : startWrite f s = .next t) : HostNext s t :=
  hostNext_of_quiet h fun hl h => hostNext_of_free h (.write f hl)

theorem execRead_next {d : Duration} {s t : State} (h : execRead d s = .next t) : HostNext s t :=
  hostNext_of_quiet h fun hl h => hostNext_of_free h (.read d hl)

theorem execRxArm_next {e : Byte} {s t : State} (h : execRxArm e s = .next t) : HostNext s t :=
  hostNext_of_quiet h fun hl h => by cases h; exact .rxArm e hl

theorem execTxLoad_next {c : Byte} {x : List Byte} {s t : State} (h : execTxLoad c x s = .next t) : HostNext s t :=
  hostNext_of_quiet h fun hl h => by
    split at h <;> cases h
    · exact .txLoad _ hl
    · exact .badLen _

theorem execEncode_next {a c : Byte} {x : List Byte} {s t : State} (h : execEncode a c x s = .next t) : HostNext s t := by
  unfold execEncode at h
  split at h <;> cases h
  · exact .gives _
  · exact .badLen _

theorem execTxByte_next {s t : State} (h : execTxByte s = .next t) : LinkNext s t := by
  unfold execTxByte at h
  split at h <;> cases h
  exact .txByte ‹_›

theorem execRxAbort_next {s t : State} (h : execRxAbort s = .next t) : LinkNext s t := by
  unfold execRxAbort at h
  split at h <;> cases h
  exact .rxAbort ‹_›

/-- What an operation can answer: RESET's state, an event's of the link, or that of a strobe or call of the host. -/
theorem exec_next {i : Instr} {s t : State} (h : exec i s = .next t) :
    (i = .reset ∧ t = setRet none (resetOp s)) ∨ (isEventOp i = true ∧ LinkNext s t) ∨
      (isEventOp i = false ∧ HostNext s t) := by
  cases i with
  | reset => cases h; exact .inl ⟨rfl, rfl⟩
  | txByte => exact .inr (.inl ⟨rfl, execTxByte_next h⟩)
  | rxByte b => cases h; exact .inr (.inl ⟨rfl, .rxByte b⟩)
  | rxAbort => exact .inr (.inl ⟨rfl, execRxAbort_next h⟩)
  | frameResponse => cases h; exact .inr (.inl ⟨rfl, .arrives _⟩)
  | frameRequest => exact .inr (.inr ⟨rfl, startWrite_next h⟩)
  | write => exact .inr (.inr ⟨rfl, startWrite_next h⟩)
  | encode => exact .inr (.inr ⟨rfl, execEncode_next h⟩)
  | txLoad => exact .inr (.inr ⟨rfl, execTxLoad_next h⟩)
  | rxArm => exact .inr (.inr ⟨rfl, execRxArm_next h⟩)
  | read => exact .inr (.inr ⟨rfl, execRead_next h⟩)
  | sleep d => exact .inr (.inr ⟨rfl, hostNext_of_free h (.sleep d)⟩)
  | attempt => exact .inr (.inr ⟨rfl, hostNext_of_free h .attempt⟩)
  | exchange => exact .inr (.inr ⟨rfl, hostNext_of_free h (.exchange _ _ rfl)⟩)
  | decodeFields p ds => exact .inr (.inr ⟨rfl, hostNext_of_free h (.decodeFields _ ds)⟩)
  | reassemble ps k => exact .inr (.inr ⟨rfl, hostNext_of_free h (.reassemble ps k)⟩)
  | getSoc | getCellVoltageRange | getTemperatureRange | getMosfetStatus | getStatus | getCellVoltages | getTemperatures
  | getBalancingStatus | getFaultCodes => exact .inr (.inr ⟨rfl, hostNext_of_free h (.exchange _ _ rfl)⟩)
  | u8 | u16 | u32 | i8 | i16 | i32 | bool | descReserved => cases h; exact .inr (.inr ⟨rfl, .field _ _⟩)
  | csum | verify | b2h | h2b | validate => cases h; exact .inr (.inr ⟨rfl, .gives _⟩)
  | fdLoad => cases h; exact .inr (.inr ⟨rfl, .fdLoad _ _⟩)
  | flush => cases h; exact .inr (.inr ⟨rfl, .flush⟩)

/-- RESET has no word (30 R68): it reaches the machine as its own strobe only. -/
theorem decodeWord_ne_reset {w : PortWord} {i : Instr} (h : decodeWord w = .ok i) : i ≠ .reset := by
  have hd : ∀ d : Byte, decodeDescriptor d ≠ .reset := by decide
  unfold decodeWord at h
  split at h
  · cases h; exact hd _
  · split at h
    · unfold decodeFrame at h
      split at h
      · cases h
      · split at h <;> cases h; simp
      · cases h; simp
    · cases h

/-- What a step makes of the request it takes: the next event, the return of SLEEP, or an operation with what settles after
it. -/
inductive TakesRequest (r : Request) (s : State) : State → Prop where
  | event : TakesRequest r s (environment s)
  | wake : TakesRequest r s (wake s)
  | runs {i : Instr} {t : State} (h : exec i s = .next t) (hi : isEvent r = isEventOp i) (hr : i = .reset → r = .op .reset) :
      TakesRequest r s (settle t)

theorem runInstr_next {i : Instr} {s t : State} (h : runInstr i s = .next t) : ∃ u, exec i s = .next u ∧ t = settle u := by
  unfold runInstr at h
  split at h
  · split at h <;> cases h
    exact ⟨_, ‹_›, rfl⟩
  · cases h

theorem runRequest_next {r : Request} {s t : State} (h : runRequest r s = .next t) : TakesRequest r s t := by
  cases r with
  | op i =>
    obtain ⟨u, hu, rfl⟩ := runInstr_next h
    exact .runs hu rfl (fun e => by rw [e])
  | word w =>
    unfold runRequest at h
    cases hw : decodeWord w with
    | error e => simp [hw] at h
    | ok i =>
      simp only [hw] at h
      obtain ⟨u, hu, rfl⟩ := runInstr_next h
      exact .runs hu (by simp [isEvent, hw]) (fun e => absurd e (decodeWord_ne_reset hw))
  | event => cases h; exact .event
  | wake => cases h; exact .wake

/-- What a step can do: the next event, or the agenda's next request, which reaches a machine in a call only as an event. -/
theorem step_next {s t : State} (h : step s = .next t) :
    t = environment s ∨
      ∃ r rest, s.agenda = r :: rest ∧ (s.owner = none ∨ isEvent r = true) ∧ TakesRequest r { s with agenda := rest } t := by
  unfold step at h
  split at h
  · cases h; exact .inl rfl
  · rename_i r rest ha
    split at h
    · cases h; exact .inl rfl
    · rename_i hn
      refine .inr ⟨r, rest, ha, ?_, runRequest_next h⟩
      simpa only [Bool.and_eq_true, Option.isSome_iff_ne_none, Bool.not_eq_true', not_and_or, not_not, Bool.not_eq_false,
        ne_eq] using hn

/-! ## What every step keeps (10 R11, R25, R28, 20 R52) -/

theorem LinkNext.keeps {s t : State} (h : LinkNext s t) : Keeps s t := by
  cases h with
  | txByte => exact (sendByte_keeps s).trans (setRet_keeps _ _)
  | rxByte b => exact (rxByteEvent_keeps b s).trans (setRet_keeps _ _)
  | rxAbort => exact (takeCause_keeps _ s).trans (setRet_keeps _ _)
  | arrives bs => exact (bufferBytes_keeps bs s).trans (setRet_keeps _ _)

/-- No operation of the host writes the Device State: a GET_STATUS does so only in its decode, which is of later events. -/
theorem HostNext.keeps {s t : State} (h : HostNext s t) : Keeps s t := by
  cases h with
  | gives v => exact setRet_keeps v s
  | busy => exact (takeCause_keeps _ s).trans (setRet_keeps _ _)
  | badLen n => exact (takeCause_keeps _ s).trans (setRet_keeps _ _)
  | field v d => exact (field_fdOnly d s).keeps.trans (setRet_keeps _ _)
  | fdLoad x n => exact (fdLoadOp_fdOnly x n s).keeps.trans (setRet_keeps _ _)
  | txLoad f => exact (loadTx_keeps f s).trans (setRet_keeps _ _)
  | rxArm e => exact (armRx_keeps e s).trans (setRet_keeps _ _)
  | flush => exact (flushLink_keeps s).trans (setRet_keeps _ _)
  | write f => exact (loadTx_keeps f s).trans (waitFor_keeps _ _ _)
  | read d => exact (armRx_keeps _ s).trans (waitFor_keeps _ _ _)
  | sleep d => exact waitFor_keeps _ _ s
  | attempt => exact startAttempt_keeps _ s
  | exchange c q => exact startExchange_keeps c q s
  | decodeFields x ds =>
    have h := bindSchema_moves .decodeFields x ds s
    exact ⟨h.toGrows, h.dev (by simp)⟩
  | reassemble ps r => exact nextFrame_keeps _ r ps 1 [] s

/-- A step is RESET, asked for by its own strobe, or does what an event can do. -/
theorem step_resets_or_moves {s t : State} (h : step s = .next t) :
    ∃ rest, (s.agenda = .op .reset :: rest ∧ t = setRet none (resetOp { s with agenda := rest })) ∨
      EventMoves { s with agenda := rest } t := by
  rcases step_next h with rfl | ⟨r, rest, ha, -, hr⟩
  · exact ⟨s.agenda, .inr (environment_moves s)⟩
  · refine ⟨rest, ?_⟩
    cases hr with
    | event => exact .inr (environment_moves _)
    | wake => exact .inr (wake_keeps _).event
    | runs he _ hreset =>
      rcases exec_next he with ⟨rfl, rfl⟩ | ⟨-, hl⟩ | ⟨-, hh⟩
      · exact .inl ⟨by rw [ha, hreset rfl], rfl⟩
      · exact .inr (hl.keeps.trans (settle_keeps _)).event
      · exact .inr (hh.keeps.trans (settle_keeps _)).event

end Sys2Proof.Machine

/-! ## The machine's invariant, split into the three L0 units, the sequencer, and the owner's place -/

namespace Sys2Proof.Machine

/-- The part of the invariant that is about the three L0 units and the half-duplex line. -/
def UnitsInv (s : State) : Prop :=
  s.tx.Inv ∧ s.rx.Inv ∧ s.fd.Inv ∧ ¬(s.tx.state = .sending ∧ s.rx.state = .receiving)

/-- The sequencer runs no EXCHANGE (10 R26). -/
def ExIdle (s : State) : Prop := s.ex.state = .idle ∧ s.ex.attempt = 0

/-- The sequencer while the call `c` is in an attempt: EX_RUNNING exactly where the call runs an EXCHANGE (42 R120). -/
def ExFor (c : Call) (s : State) : Prop :=
  (s.ex.state = .running ↔ c.runsExchange = true) ∧ s.ex.Inv s.cfg

theorem ExState.ne_running_iff {x : ExState} : x ≠ .running ↔ x = .idle := by cases x <;> simp

theorem exIdle_iff {s : State} : ExIdle s ↔ s.ex.state = .idle ∧ s.ex.Inv s.cfg :=
  and_congr_right fun h => by simp [ExUnit.Inv, h]

theorem ExIdle.inv {s : State} (h : ExIdle s) : s.ex.Inv s.cfg := (exIdle_iff.1 h).2

/-- A call that runs no EXCHANGE leaves the sequencer idle. -/
theorem ExFor.idle {c : Call} {s : State} (h : ExFor c s) (hc : c.runsExchange = false) : ExIdle s :=
  exIdle_iff.2 ⟨ExState.ne_running_iff.1 fun e => by simpa [hc] using h.1.1 e, h.2⟩

theorem ExIdle.exFor {c : Call} {s : State} (h : ExIdle s) (hc : c.runsExchange = false) : ExFor c s :=
  ⟨by simp [h.1, hc], h.inv⟩

theorem ExFor.place {c : Call} {p : Phase} {s : State} (h : ExFor c s) (hp : p.inAttempt = true) :
    s.ex.state = .running ↔ (c.runsExchange && p.inAttempt) = true := by
  simpa [hp] using h.1

theorem ExIdle.place {c : Call} {p : Phase} {s : State} (h : ExIdle s) (hp : p.inAttempt = false) :
    s.ex.state = .running ↔ (c.runsExchange && p.inAttempt) = true := by
  simp [hp, h.1]

theorem State.Inv.units {s : State} (h : s.Inv) : UnitsInv s := by
  obtain ⟨htx, hrx, hfd, -, hline, -⟩ := h
  exact ⟨htx, hrx, hfd, hline⟩

theorem State.Inv.exInv {s : State} (h : s.Inv) : s.ex.Inv s.cfg := by
  obtain ⟨-, -, -, hex, -, -⟩ := h
  exact hex

theorem State.Inv.ownerInv {s : State} (h : s.Inv) : OwnerInv s := by
  obtain ⟨-, -, -, -, -, ho⟩ := h
  exact ho

theorem UnitsInv.rx {s : State} (h : UnitsInv s) : s.rx.Inv := by
  obtain ⟨-, hrx, -, -⟩ := h
  exact hrx

theorem UnitsInv.fd {s : State} (h : UnitsInv s) : s.fd.Inv := by
  obtain ⟨-, -, hfd, -⟩ := h
  exact hfd

theorem UnitsInv.inv {s : State} (h : UnitsInv s) (hx : s.ex.Inv s.cfg) (ho : OwnerInv s) : s.Inv := by
  obtain ⟨htx, hrx, hfd, hline⟩ := h
  exact ⟨htx, hrx, hfd, hx, hline, ho⟩

/-- With no call in progress the sequencer is idle. -/
theorem State.Inv.exIdle {s : State} (h : s.Inv) (ho : s.owner = none) : ExIdle s := by
  have k := h.ownerInv
  simp only [OwnerInv, ho] at k
  exact exIdle_iff.2 ⟨k, h.exInv⟩

/-- The sequencer at a place of an attempt. -/
theorem State.Inv.exFor {s : State} (h : s.Inv) {w : Wait} (ho : s.owner = some w) (hp : w.phase.inAttempt = true) :
    ExFor w.call s := by
  have k := h.ownerInv
  simp only [OwnerInv, ho, hp, Bool.and_true] at k
  exact ⟨k.1, h.exInv⟩

/-- The sequencer at a place of a field decoder's call. -/
theorem State.Inv.exIdle_decoding {s : State} (h : s.Inv) {w : Wait} (ho : s.owner = some w)
    (hp : w.phase.inAttempt = false) : ExIdle s := by
  have k := h.ownerInv
  simp only [OwnerInv, ho, hp, Bool.and_false, Bool.false_eq_true, iff_false] at k
  exact exIdle_iff.2 ⟨ExState.ne_running_iff.1 k.1, h.exInv⟩

/-! ### The two ways in which an event of a call ends: the call returns, or its owner stands at its next place -/

theorem returnCall_inv {s : State} (v : Option Value) (hu : UnitsInv s) (hx : ExIdle s) : (returnCall v s).Inv :=
  UnitsInv.inv (s := returnCall v s) hu hx.inv hx.1

theorem waitFor_inv {c : Call} {p : Phase} {s : State} (hu : UnitsInv s) (hx : s.ex.Inv s.cfg)
    (ho : OwnerInv (waitFor c p s)) : (waitFor c p s).Inv :=
  UnitsInv.inv (s := waitFor c p s) hu hx ho

/-! ### The field decoder's calls (43 R138, 44 R150, R156) -/

/-- A call that decodes a schema: DECODE_FIELDS or an interpreter. -/
abbrev Call.decodes (c : Call) : Prop := c = .decodeFields ∨ c.isInterp = true

/-- A call that reassembles: REASSEMBLE or an interpreter. -/
abbrev Call.reassembles (c : Call) : Prop := c = .reassemble ∨ c.isInterp = true

theorem FdOnly.same {s t : State} (h : FdOnly s t) :
    t.cfg = s.cfg ∧ t.tx = s.tx ∧ t.rx = s.rx ∧ t.ex = s.ex ∧ t.owner = s.owner := by
  rw [h.eq]
  exact ⟨rfl, rfl, rfl, rfl, rfl⟩

theorem FdOnly.units {s t : State} (h : FdOnly s t) (hf : t.fd.Inv) (hu : UnitsInv s) : UnitsInv t := by
  obtain ⟨htx, hrx, -, hline⟩ := hu
  obtain ⟨-, etx, erx, -, -⟩ := h.same
  exact ⟨etx ▸ htx, erx ▸ hrx, hf, by rwa [etx, erx]⟩

theorem FdOnly.exIdle {s t : State} (h : FdOnly s t) (hx : ExIdle s) : ExIdle t := by
  obtain ⟨-, -, -, ex, -⟩ := h.same
  rwa [ExIdle, ex]

/-- FD_LOAD keeps FCUR within the payload (43 R130). -/
theorem fdLoadOp_fdInv (x : Option Payload) (n : Nat) {s : State} (h : s.fd.Inv) : (fdLoadOp x n s).1.fd.Inv := by
  cases x with
  | none => exact h
  | some p =>
    simp only [fdLoadOp]
    split
    · exact h
    · exact Nat.not_lt.1 ‹_›

theorem fdLoadOp_loaded {x : Option Payload} {n : Nat} {s t : State} (h : fdLoadOp x n s = (t, true)) :
    t.fd.state = .loaded := by
  cases x with
  | none => cases h
  | some p =>
    simp only [fdLoadOp] at h
    split at h <;> cases h
    rfl

/-- FIELD keeps FCUR within the payload (43 R139). -/
theorem field_fdInv (d : Byte) {s : State} (h : s.fd.Inv) : (field d s).1.fd.Inv := by
  unfold field
  split
  · exact h
  · split
    · exact h
    · split
      · exact h
      · exact Nat.not_lt.1 ‹_›

theorem field_loaded {d : Byte} {v : FieldValue} {s t : State} (h : field d s = (t, some v)) : t.fd.state = .loaded := by
  unfold field at h
  split at h
  · cases h
  · rename_i hl
    split at h
    · cases h
    · split at h <;> cases h
      simpa using hl

theorem returnFields_inv (c : Call) (vs : List FieldValue) {s : State} (hu : UnitsInv s) (hx : ExIdle s) :
    (returnFields c vs s).Inv := by
  cases c with
  | interp k =>
    cases k with
    | status =>
      simp only [returnFields, interpValues, statusCounts]
      split
      · exact returnCall_inv (s := setCounts _ _ s) _ hu hx
      · exact returnCall_inv _ hu hx
    | _ => exact returnCall_inv _ hu hx
  | _ => exact returnCall_inv _ hu hx

theorem nextField_inv {c : Call} (hc : c.decodes) (ds : List Byte) (got : List FieldValue) {s : State} (hu : UnitsInv s)
    (hx : ExIdle s) (hl : s.fd.state = .loaded) : (nextField c ds got s).Inv := by
  cases ds with
  | nil => exact returnFields_inv c got hu hx
  | cons d ds => exact waitFor_inv hu hx.inv ⟨hx.place rfl, hc, hl⟩

theorem bindSchema_inv {c : Call} (hc : c.decodes) (x : Option Payload) (ds : List Byte) {s : State} (hu : UnitsInv s)
    (hx : ExIdle s) : (bindSchema c x ds s).Inv := by
  have hf := fdLoadOp_fdOnly x 0 s
  have hu' := hf.units (fdLoadOp_fdInv x 0 hu.fd) hu
  have hx' := hf.exIdle hx
  unfold bindSchema
  split <;> rename_i e <;> rw [e] at hu' hx'
  · exact returnCall_inv _ hu' hx'
  · exact nextField_inv hc ds [] hu' hx' (fdLoadOp_loaded e)

theorem fieldStrobe_inv {c : Call} (hc : c.decodes) (d : Byte) (ds : List Byte) (got : List FieldValue) {s : State}
    (hu : UnitsInv s) (hx : ExIdle s) : (fieldStrobe c d ds got s).Inv := by
  have hf := field_fdOnly d s
  have hu' := hf.units (field_fdInv d hu.fd) hu
  have hx' := hf.exIdle hx
  unfold fieldStrobe
  split <;> rename_i e <;> rw [e] at hu' hx'
  · exact returnCall_inv _ hu' hx'
  · exact nextField_inv hc ds _ hu' hx' (field_loaded e)

theorem nextFrame_inv {c : Call} (hc : c.reassembles) (k : Series) (ps : List Payload) (item : Nat)
    (got : List (MKey × MVal)) {s : State} (hu : UnitsInv s) (hx : ExIdle s) : (nextFrame c k ps item got s).Inv := by
  induction ps with
  | nil => exact returnCall_inv _ hu hx
  | cons p ps ih =>
    unfold nextFrame
    split
    · exact ih
    · exact waitFor_inv hu hx.inv ⟨hx.place rfl, hc⟩

theorem nextItem_inv {c : Call} (hc : c.reassembles) (k : Series) (n : Nat) (ps : List Payload) (item : Nat)
    (got : List (MKey × MVal)) {s : State} (hu : UnitsInv s) (hx : ExIdle s) (hl : s.fd.state = .loaded) :
    (nextItem c k n ps item got s).Inv := by
  have next := nextFrame_inv hc k ps item got hu hx
  cases n with
  | zero => exact next
  | succ n =>
    simp only [nextItem]
    split
    · exact next
    · rename_i hroom
      split
      · exact next
      · exact waitFor_inv hu hx.inv ⟨hx.place rfl, hc, hl, Nat.not_lt.1 hroom⟩

theorem bindItems_inv {c : Call} (hc : c.reassembles) (k : Series) (p : Payload) (ps : List Payload) (item : Nat)
    (got : List (MKey × MVal)) {s : State} (hu : UnitsInv s) (hx : ExIdle s) : (bindItems c k p ps item got s).Inv := by
  have hf := fdLoadOp_fdOnly (some p) 1 s
  exact nextItem_inv hc k _ ps item got (hf.units (fdLoadOp_fdInv _ 1 hu.fd) hu) (hf.exIdle hx) rfl

theorem itemStrobe_inv {c : Call} (hc : c.reassembles) (k : Series) (n : Nat) (ps : List Payload) (item : Nat)
    (got : List (MKey × MVal)) {s : State} (hu : UnitsInv s) (hx : ExIdle s) : (itemStrobe c k n ps item got s).Inv := by
  have hf := field_fdOnly (seriesDescriptor k) s
  have hu' := hf.units (field_fdInv _ hu.fd) hu
  have hx' := hf.exIdle hx
  unfold itemStrobe
  split <;> rename_i e <;> rw [e] at hu' hx'
  · exact returnCall_inv _ hu' hx'
  · exact nextItem_inv hc k n ps _ _ hu' hx' (field_loaded e)

theorem interpret_inv (k : Interp) (ps : List Payload) {s : State} (hu : UnitsInv s) (hx : ExIdle s) :
    (interpret k ps s).Inv := by
  unfold interpret
  split
  · exact returnCall_inv _ hu hx
  · split
    · exact nextFrame_inv (.inr rfl) _ _ 1 [] hu hx
    · exact waitFor_inv hu hx.inv ⟨hx.place rfl, rfl⟩

/-! ### The sequencer (42 R115, R116, R120) -/

theorem Call.runsAttempt_of_runsExchange {c : Call} (h : c.runsExchange = true) : c.runsAttempt = true := by
  cases c with
  | attempt | exchange | interp => rfl
  | _ => cases h

theorem returnPayloads_inv (c : Call) (ps : List Payload) {s : State} (hu : UnitsInv s) (hx : ExIdle s) :
    (returnPayloads c ps s).Inv := by
  cases c with
  | interp k => exact interpret_inv k ps hu hx
  | _ => exact returnCall_inv _ hu hx

/-- An exception ends the exchange: EX_IDLE, EX_ATTEMPT 0 (60 R186). -/
theorem abandon_inv {c : Call} {s : State} (hu : UnitsInv s) (hx : ExFor c s) : (abandon c s).Inv := by
  unfold abandon
  split
  · exact returnPayloads_inv (s := closeExchange s) c [] hu ⟨rfl, rfl⟩
  · exact returnPayloads_inv c [] hu (hx.idle (Bool.eq_false_iff.2 ‹_›))

theorem sendRequest_inv {c : Call} (hc : c.runsAttempt = true) {s : State} (hu : UnitsInv s) (hx : ExFor c s) :
    (sendRequest c s).Inv := by
  unfold sendRequest
  split
  · exact abandon_inv (s := takeCause (.txBadLen _) s) hu hx
  · exact waitFor_inv hu hx.2 ⟨hx.place rfl, hc, ‹_›⟩

/-- EX_ATTEMPT counts an attempt that RETRY_COUNT allows (10 R26). -/
theorem startAttempt_inv {c : Call} (hc : c.runsExchange = true) {s : State} (hu : UnitsInv s)
    (hx : s.ex.state = .running) (hn : s.ex.attempt < s.cfg.retryCount) : (startAttempt c s).Inv := by
  rw [startAttempt, if_pos hc]
  refine sendRequest_inv (s := setAttempt (s.ex.attempt + 1) s) (Call.runsAttempt_of_runsExchange hc) hu ⟨?_, ?_⟩
  · simp [hx, hc]
  · simpa [ExUnit.Inv, hx] using hn

theorem startExchange_inv {c : Call} (hc : c.runsExchange = true) (q : ExReq) {s : State} (hu : UnitsInv s) :
    (startExchange c q s).Inv := by
  unfold startExchange
  split
  · exact returnPayloads_inv (s := takeCause .exRetriesExhausted (setAttempt 0 (latchRequest q s))) c [] hu ⟨rfl, rfl⟩
  · exact startAttempt_inv (s := setAttempt 0 (latchRequest q s)) hc hu rfl (Nat.pos_of_ne_zero ‹_›)

/-- A frame can be loaded onto an idle line (41 R94). -/
theorem loadTx_units {f : Frame} {s : State} (hu : UnitsInv s) (hl : lineBusy s = false) : UnitsInv (loadTx f s) := by
  obtain ⟨-, hrx, hfd, -⟩ := hu
  exact ⟨⟨Nat.zero_le _, fun _ => Nat.zero_lt_succ _⟩, hrx, hfd, fun h => (lineBusy_false.1 hl).2 h.2⟩

/-- A read can be armed on an idle line; no byte of it is summed yet (41 R96). -/
theorem armRx_units {e : Byte} {s : State} (hu : UnitsInv s) (hl : lineBusy s = false) : UnitsInv (armRx e s) := by
  obtain ⟨htx, -, hfd, -⟩ := hu
  refine ⟨htx, ⟨Nat.zero_le _, Nat.zero_lt_succ _, ?_⟩, hfd, fun h => ?_⟩
  · simp [checksum_nil]
  · simpa [(lineBusy_false.1 hl).1] using h.1

theorem flushStrobe_inv {c : Call} {f : Frame} {s : State} (hu : UnitsInv s) (hx : ExFor c s) (hc : c.runsAttempt = true)
    (hf : encodeFrame s.cfg.addr s.ex.req.cmd s.ex.req.extra = some f) : (flushStrobe c f s).Inv :=
  waitFor_inv (s := flushLink s) hu hx.2 ⟨hx.place rfl, hc, hf⟩

theorem loadStrobe_inv {c : Call} (f : Frame) {s : State} (hu : UnitsInv s) (hx : ExFor c s) (hc : c.runsAttempt = true) :
    (loadStrobe c f s).Inv := by
  unfold loadStrobe
  split
  · exact abandon_inv (s := takeCause .opBusy s) hu hx
  · exact waitFor_inv (loadTx_units hu (Bool.eq_false_iff.2 ‹_›)) hx.2 ⟨hx.place rfl, rfl, .inr hc⟩

theorem armStrobe_inv {c : Call} {s : State} (hu : UnitsInv s) (hx : ExFor c s) (hc : c.runsAttempt = true)
    (hm : s.ex.collected.length < s.ex.req.maxResponses) : (armStrobe c s).Inv := by
  unfold armStrobe
  split
  · exact abandon_inv (s := takeCause .opBusy s) hu hx
  · exact waitFor_inv (armRx_units hu (Bool.eq_false_iff.2 ‹_›)) hx.2 ⟨hx.place rfl, rfl, .inr ⟨hc, hm⟩⟩

/-- ENDATT: an EXCHANGE that ends closes the sequencer; BACKOFF is left for an attempt that RETRY_COUNT allows (R120). -/
theorem endAttempt_inv {c : Call} {s : State} (hu : UnitsInv s) (hx : ExFor c s) (hl : lineBusy s = false) :
    (endAttempt c s).Inv := by
  unfold endAttempt
  split
  · rename_i hc
    split
    · exact returnPayloads_inv (s := closeExchange s) c _ hu ⟨rfl, rfl⟩
    · split
      · exact waitFor_inv hu hx.2 ⟨hx.place rfl, hc, hl, ‹_›⟩
      · exact returnPayloads_inv (s := takeCause .exRetriesExhausted s) c [] hu ⟨rfl, rfl⟩
  · exact returnPayloads_inv c _ hu (hx.idle (Bool.eq_false_iff.2 ‹_›))

theorem nextRead_inv {c : Call} {s : State} (hu : UnitsInv s) (hx : ExFor c s) (hc : c.runsAttempt = true)
    (hl : lineBusy s = false) : (nextRead c s).Inv := by
  unfold nextRead
  split
  · exact waitFor_inv hu hx.2 ⟨hx.place rfl, hc, hl, ‹_›⟩
  · exact endAttempt_inv hu hx hl

theorem judgeRead_inv {c : Call} {s : State} (hu : UnitsInv s) (hx : ExFor c s) (hc : c.runsAttempt = true)
    (hl : lineBusy s = false) : (judgeRead c s).Inv := by
  have reads : ∀ d, (nextRead c (endRead d s)).Inv := fun d => nextRead_inv (s := endRead d s) hu hx hc hl
  have ends : ∀ d, (endAttempt c (endRead d s)).Inv := fun d => endAttempt_inv (s := endRead d s) hu hx hl
  unfold judgeRead
  split
  · exact nextRead_inv (s := setCollected _ (endRead _ s)) hu hx hc hl
  · exact reads _
  · exact reads _
  all_goals exact ends _

theorem afterSend_inv {c : Call} {s : State} (hu : UnitsInv s) (hx : ExFor c s) (hc : c = .write ∨ c.runsAttempt = true)
    (hl : lineBusy s = false) : (afterSend c s).Inv := by
  rcases hc with rfl | hc
  · exact returnCall_inv none hu (hx.idle rfl)
  · rw [afterSend, if_pos hc]
    exact waitFor_inv hu hx.2 ⟨hx.place rfl, .inr ⟨hc, hl⟩⟩

theorem afterDelay_inv {c : Call} {s : State} (hu : UnitsInv s) (hx : ExFor c s) (hc : c.runsAttempt = true)
    (hl : lineBusy s = false) : (afterDelay c s).Inv :=
  nextRead_inv (s := setCollected [] (record _ s)) hu hx hc hl

theorem afterPace_attempt {c : Call} (h : c.runsAttempt = true) (s : State) : afterPace c s = afterDelay c s := by
  cases c with
  | attempt | exchange | interp => rfl
  | _ => cases h

theorem afterPace_inv {c : Call} {s : State} (hu : UnitsInv s) (hx : ExFor c s)
    (hc : (∃ d, c = .sleep d) ∨ (c.runsAttempt = true ∧ lineBusy s = false)) : (afterPace c s).Inv := by
  rcases hc with ⟨d, rfl⟩ | ⟨hc, hl⟩
  · exact returnCall_inv (s := record (.sleep d) s) none hu (hx.idle rfl)
  · rw [afterPace_attempt hc]
    exact afterDelay_inv hu hx hc hl

theorem afterRead_inv {c : Call} {s : State} (hu : UnitsInv s) (hx : ExFor c s)
    (hc : (∃ t, c = .read t) ∨ c.runsAttempt = true) (hl : lineBusy s = false) : (afterRead c s).Inv := by
  rcases hc with ⟨t, rfl⟩ | hc
  · exact returnCall_inv (s := endRead t s) _ hu (hx.idle rfl)
  · rw [afterRead_attempt hc]
    exact judgeRead_inv hu hx hc hl

theorem afterBackoff_inv {c : Call} {s : State} (hu : UnitsInv s) (hx : ExFor c s) (hc : c.runsExchange = true)
    (hn : s.ex.attempt < s.cfg.retryCount) : (afterBackoff c s).Inv :=
  startAttempt_inv (s := record (.sleep s.cfg.backoff) s) hc hu (hx.1.2 hc) hn

/-! ### Events of the line (41 R95, R97, R98) -/

/-- What no event of the line touches: the configuration, the field decoder, the sequencer and the owner. -/
structure SameCall (s t : State) : Prop where
  cfg : t.cfg = s.cfg
  fd : t.fd = s.fd
  ex : t.ex = s.ex
  owner : t.owner = s.owner

theorem SameCall.trans {s t u : State} (h : SameCall s t) (k : SameCall t u) : SameCall s u :=
  ⟨k.cfg.trans h.cfg, k.fd.trans h.fd, k.ex.trans h.ex, k.owner.trans h.owner⟩

theorem SameCall.exFor {c : Call} {s t : State} (h : SameCall s t) (hx : ExFor c s) : ExFor c t := by
  rwa [ExFor, h.ex, h.cfg]

/-- The owner's place says the same while the line's two units keep their states. -/
theorem SameCall.ownerInv {s t : State} (h : SameCall s t) (htx : t.tx.state = s.tx.state) (hrx : t.rx.state = s.rx.state)
    (ho : OwnerInv s) : OwnerInv t := by
  simp only [OwnerInv, lineBusy, txBusy, rxBusy, h.cfg, h.fd, h.ex, h.owner, htx, hrx]
  exact ho

/-- The owner is in no wait that an event of the line can end. -/
def awaitsNoLine (s : State) : Prop := ∀ w, s.owner = some w → w.phase ≠ .send ∧ w.phase ≠ .collect

/-- On a busy line, an owner that waits for no event of it is at a place that says nothing of the line. -/
theorem SameCall.ownerInv_of_busy {s t : State} (h : SameCall s t) (ho : OwnerInv s) (hb : lineBusy s = true)
    (hw : awaitsNoLine s) : OwnerInv t := by
  unfold OwnerInv at ho ⊢
  rw [h.owner, h.ex]
  cases e : s.owner with
  | none => simpa [e] using ho
  | some w =>
    obtain ⟨c, p⟩ := w
    obtain ⟨hsend, hcollect⟩ := hw _ e
    simp only [e] at ho ⊢
    obtain ⟨hrun, hp⟩ := ho
    refine ⟨hrun, ?_⟩
    cases p with
    | send => exact absurd rfl hsend
    | collect => exact absurd rfl hcollect
    | flush | load => simpa only [h.cfg] using hp
    | pace => exact .inl (hp.resolve_right (by simp [hb]))
    | arm | backoff => simp [hb] at hp
    | bind | bindItems => exact hp
    | decode | items => simpa only [h.fd] using hp

theorem settle_of_awaitsNoLine {s : State} (h : awaitsNoLine s) : settle s = s := by
  unfold settle
  split
  · rfl
  · rename_i w hw
    obtain ⟨hsend, hcollect⟩ := h w hw
    obtain ⟨c, p⟩ := w
    cases p with
    | send => exact absurd rfl hsend
    | collect => exact absurd rfl hcollect
    | _ => rfl

/-- Where the invariant holds no wait of the owner is over, so nothing settles. -/
theorem settle_of_ownerInv {s : State} (h : OwnerInv s) : settle s = s := by
  unfold OwnerInv at h
  unfold settle
  split
  · rfl
  · rename_i w hw
    obtain ⟨c, p⟩ := w
    simp only [hw] at h
    obtain ⟨-, hp⟩ := h
    cases p with
    | send => simp [txBusy, hp]
    | collect => simp [rxDone, hp, RxState.isDone]
    | _ => rfl

/-- What the invariant says of the owner's place, read at the place itself. -/
theorem State.Inv.standsAt {s : State} (h : s.Inv) {c : Call} {p : Phase} (ho : s.owner = some ⟨c, p⟩) :
    OwnerInv (waitFor c p s) := by
  have k := h.ownerInv
  simp only [OwnerInv, ho] at k
  exact k

/-- An event that ends what the line was doing: an owner that waited for it goes on, any other stays where it is. -/
theorem settle_line_inv {s t : State} (hs : s.Inv) (hb : lineBusy s = true) (h : SameCall s t) (hu : UnitsInv t)
    (hl : lineBusy t = false) (hd : s.rx.state = .receiving → rxDone t = true) : (settle t).Inv := by
  by_cases hw : awaitsNoLine s
  · rw [settle_of_awaitsNoLine (by rwa [awaitsNoLine, h.owner])]
    exact hu.inv (by rw [h.ex, h.cfg]; exact hs.exInv) (h.ownerInv_of_busy hs.ownerInv hb hw)
  · simp only [awaitsNoLine, not_forall, not_and_or, not_not] at hw
    obtain ⟨⟨c, p⟩, ho, rfl | rfl⟩ := hw
    · obtain ⟨-, -, hc⟩ := hs.standsAt ho
      have hx := h.exFor (hs.exFor ho rfl)
      have e : settle t = afterSend c t := by simp [settle, h.owner, ho, txBusy, (lineBusy_false.1 hl).1]
      rw [e]
      exact afterSend_inv hu hx hc hl
    · obtain ⟨-, hr, hc⟩ := hs.standsAt ho
      have hx := h.exFor (hs.exFor ho rfl)
      have e : settle t = afterRead c t := by simp [settle, h.owner, ho, hd hr]
      rw [e]
      exact afterRead_inv hu hx (hc.imp id And.left) hl

/-- An event in which no wait of the owner ends. -/
theorem settle_inv_of_same {s t : State} (hs : s.Inv) (h : SameCall s t) (hu : UnitsInv t)
    (htx : t.tx.state = s.tx.state) (hrx : t.rx.state = s.rx.state) : (settle t).Inv := by
  have ho := h.ownerInv htx hrx hs.ownerInv
  rw [settle_of_ownerInv ho]
  exact hu.inv (by rw [h.ex, h.cfg]; exact hs.exInv) ho

/-- TX_BYTE: TXIDX stays within the frame, and the last byte ends SEND (41 R95). -/
theorem settle_sent_inv {s t : State} (hs : s.Inv) (h : SameCall s t) (hb : s.tx.state = .sending)
    (htx : t.tx = (sendByte s).tx) (hrx : t.rx = s.rx) : (settle t).Inv := by
  obtain ⟨⟨-, hidx⟩, hr, hfd, hline⟩ := hs.units
  have hq : s.rx.state ≠ .receiving := fun k => hline ⟨hb, k⟩
  have hlt : s.tx.idx < frameLen := hidx hb
  have hu : UnitsInv t := by
    refine ⟨?_, hrx ▸ hr, h.fd ▸ hfd, fun k => hq (hrx ▸ k.2)⟩
    rw [htx]
    refine ⟨hlt, fun k => ?_⟩
    by_contra hge
    have hlast : s.tx.idx + 1 = frameLen := Nat.le_antisymm hlt (Nat.not_lt.1 hge)
    simp [sendByte, hlast] at k
  by_cases hlast : s.tx.idx + 1 = frameLen
  · refine settle_line_inv hs (by simp [lineBusy, txBusy, hb]) h hu (lineBusy_false.2 ⟨?_, hrx ▸ hq⟩)
      fun k => absurd k hq
    rw [htx]
    simp [sendByte, hlast]
  · refine settle_inv_of_same hs h hu ?_ (by rw [hrx])
    rw [htx]
    simp [sendByte, hlast]

/-- One event of a read: the validator's registers meet their invariant, and the read goes on or is done. -/
structure ReadEvent (s t : State) : Prop extends SameCall s t where
  tx : t.tx = s.tx
  rx : t.rx.Inv
  ends : t.rx.state = .receiving ∨ rxDone t = true

/-- The event is the same whatever the link holds before it. -/
theorem ReadEvent.of_link {s t : State} {l : Link} (h : ReadEvent { s with link := l } t) : ReadEvent s t :=
  ⟨⟨h.cfg, h.fd, h.ex, h.owner⟩, h.tx, h.rx, h.ends⟩

theorem ReadEvent.setRet {s t : State} (h : ReadEvent s t) (v : Option Value) : ReadEvent s (setRet v t) :=
  ⟨⟨h.cfg, h.fd, h.ex, h.owner⟩, h.tx, h.rx, h.ends⟩

theorem RxOnly.sameCall {s t : State} (h : RxOnly s t) : SameCall s t := by
  unfold RxOnly at h
  rw [h]
  exact ⟨rfl, rfl, rfl, rfl⟩

theorem RxOnly.tx_eq {s t : State} (h : RxOnly s t) : t.tx = s.tx := by
  unfold RxOnly at h
  rw [h]

theorem RxUnit.Inv.receiving {u : RxUnit} (h : u.Inv) (k : u.state = .receiving) :
    u.idx < frameLen ∧ u.sum = checksum (u.buf.toList.take (min u.idx offCsum)) := by
  obtain ⟨-, h⟩ := h
  simpa only [k] using h

/-- The done value the judgement comes to says what its two checks found (41 R97, 10 R19). -/
theorem judgeFrame_rxInv {s : State} (hi : s.rx.idx = frameLen) (hs : s.rx.sum = checksum (s.rx.buf.toList.take 12)) :
    (judgeFrame s).rx.Inv := by
  obtain ⟨hstate, -, hrx⟩ := judgeFrame_spec s hs
  rw [hrx, hstate]
  by_cases hcmd : s.rx.buf[2] = s.rx.expect
  · cases hv : verifyChecksum s.rx.buf.toList <;> simp [RxUnit.Inv, validateFrame, judgedState, hi, hcmd, hv]
  · simp [RxUnit.Inv, validateFrame, judgedState, hi, hcmd]

/-- The bytes up to the one just stored. -/
theorem take_setIfInBounds_succ (f : Frame) (b : Byte) {i : Nat} (h : i < 12) :
    (f.setIfInBounds i b).toList.take (i + 1) = f.toList.take i ++ [b] := by
  have hlen : i < f.toList.length := by rw [Vector.length_toList]; exact h.trans (by decide)
  rw [Vector.toList_setIfInBounds, List.take_add_one, List.getElem?_set_self hlen]
  simp [List.take_set_of_le]

/-- RXSUM is the running checksum of the bytes before the last, which is not summed (10 R17, 41 R97). -/
theorem takeByte_reads (b : Byte) {s : State} (h : s.rx.Inv) (hr : s.rx.state = .receiving) :
    ReadEvent s (takeByte b s) := by
  obtain ⟨hlt, hsum⟩ := h.receiving hr
  have only := takeByte_rxOnly b s
  suffices k : (takeByte b s).rx.Inv ∧ ((takeByte b s).rx.state = .receiving ∨ rxDone (takeByte b s) = true) from
    ⟨only.sameCall, only.tx_eq, k.1, k.2⟩
  by_cases hi : s.rx.idx < 12
  · rw [takeByte_short b s hi]
    have hmin : min (s.rx.idx + 1) offCsum = s.rx.idx + 1 := Nat.min_eq_left hi
    have hmin' : min s.rx.idx offCsum = s.rx.idx := Nat.min_eq_left hi.le
    have hsum' : s.rx.sum + b = checksum ((s.rx.buf.setIfInBounds s.rx.idx b).toList.take (min (s.rx.idx + 1) offCsum)) := by
      rw [hmin, take_setIfInBounds_succ _ _ hi, checksum_append, hsum, hmin']
      simp [checksum_cons, checksum_nil]
    refine ⟨⟨hlt, ?_⟩, .inl hr⟩
    simp only [hr]
    exact ⟨Nat.succ_lt_succ hi, hsum'⟩
  · have hi : s.rx.idx = 12 := Nat.le_antisymm (Nat.le_of_lt_succ hlt) (Nat.not_lt.1 hi)
    rw [takeByte_last b s hi]
    refine ⟨judgeFrame_rxInv (by rfl) ?_, .inr (judgeFrame_isDone _)⟩
    simp [hsum, hi, Vector.toList_set, List.take_set_of_le]

/-- The time-out of a read comes before its thirteenth byte (41 R98). -/
theorem abortRx_reads {s : State} (h : s.rx.Inv) (hr : s.rx.state = .receiving) : ReadEvent s (abortRx s) :=
  ⟨⟨rfl, rfl, rfl, rfl⟩, rfl, ⟨h.1, (h.receiving hr).1⟩, .inr rfl⟩

theorem feed_reads (bs : List Byte) {s : State} (h : s.rx.Inv) (hr : s.rx.state = .receiving) : ReadEvent s (feed bs s) := by
  cases bs with
  | nil => exact abortRx_reads h hr
  | cons b rest => exact (takeByte_reads b (s := setBuffered rest s) h hr).of_link

/-- The oracle's answer changes the link only (42 R112). -/
theorem drawAnswer_link (s : State) : ∃ l, (drawAnswer s).2 = { s with link := l } := by
  unfold drawAnswer
  split <;> exact ⟨_, rfl⟩

theorem receiveNext_reads {s : State} (h : s.rx.Inv) (hr : s.rx.state = .receiving) : ReadEvent s (receiveNext s) := by
  unfold receiveNext
  split
  · exact feed_reads _ h hr
  · split
    · exact feed_reads [] h hr
    · obtain ⟨l, e⟩ := drawAnswer_link s
      rw [e]
      exact (feed_reads _ (s := { s with link := l }) h hr).of_link

/-- RX_BYTE, RX_ABORT or the answer of the oracle: an event that ends the read ends COLLECT (41 R97, R98). -/
theorem ReadEvent.settle_inv {s t : State} (h : ReadEvent s t) (hs : s.Inv) (hr : s.rx.state = .receiving) :
    (settle t).Inv := by
  obtain ⟨htx, -, hfd, hline⟩ := hs.units
  have hq : s.tx.state ≠ .sending := fun k => hline ⟨k, hr⟩
  have hu : UnitsInv t := ⟨h.tx ▸ htx, h.rx, h.fd ▸ hfd, fun k => hq (h.tx ▸ k.1)⟩
  rcases h.ends with hgo | hdone
  · exact settle_inv_of_same hs h.toSameCall hu (by rw [h.tx]) (hgo.trans hr.symm)
  · refine settle_line_inv hs (by simp [lineBusy, rxBusy, hr]) h.toSameCall hu ?_ fun _ => hdone
    have hi : t.tx.state = .idle := by
      rw [h.tx]
      cases k : s.tx.state
      · rfl
      · exact absurd k hq
    refine lineBusy_false.2 ⟨hi, fun k => ?_⟩
    simp [rxDone, k, RxState.isDone] at hdone

/-! ### Events keep the invariant (60 R190) -/

theorem wake_inv {s : State} (h : s.Inv) : (wake s).Inv := by
  unfold wake
  split
  · exact h
  · rename_i w hw
    obtain ⟨c, p⟩ := w
    cases p with
    | pace =>
      obtain ⟨-, hc⟩ := h.standsAt hw
      exact afterPace_inv h.units (h.exFor hw rfl) hc
    | backoff =>
      obtain ⟨-, hc, -, hn⟩ := h.standsAt hw
      exact afterBackoff_inv h.units (h.exFor hw rfl) hc hn
    | _ => exact h

theorem lineEvent_inv {s : State} (h : s.Inv) : (lineEvent s).Inv := by
  unfold lineEvent
  split
  · rename_i hb
    exact settle_sent_inv h ⟨rfl, rfl, rfl, rfl⟩ (by simpa [txBusy] using hb) rfl rfl
  · split
    · rename_i hr
      have hr : s.rx.state = .receiving := by simpa [rxBusy] using hr
      exact (receiveNext_reads h.units.rx hr).settle_inv h hr
    · exact wake_inv h

/-- The owner's own next strobe, or an event of the link or the clock. -/
theorem environment_inv {s : State} (h : s.Inv) : (environment s).Inv := by
  unfold environment
  split
  · exact lineEvent_inv h
  · rename_i w hw
    obtain ⟨c, p⟩ := w
    cases p with
    | flush f =>
      obtain ⟨-, hc, hf⟩ := h.standsAt hw
      exact flushStrobe_inv h.units (h.exFor hw rfl) hc hf
    | load f =>
      obtain ⟨-, hc, -⟩ := h.standsAt hw
      exact loadStrobe_inv f h.units (h.exFor hw rfl) hc
    | arm =>
      obtain ⟨-, hc, -, hm⟩ := h.standsAt hw
      exact armStrobe_inv h.units (h.exFor hw rfl) hc hm
    | bind p schema =>
      obtain ⟨-, hc⟩ := h.standsAt hw
      exact bindSchema_inv (.inr hc) _ schema h.units (h.exIdle_decoding hw rfl)
    | decode d schema got =>
      obtain ⟨-, hc, -⟩ := h.standsAt hw
      exact fieldStrobe_inv hc d schema got h.units (h.exIdle_decoding hw rfl)
    | bindItems k p ps item got =>
      obtain ⟨-, hc⟩ := h.standsAt hw
      exact bindItems_inv hc k p ps item got h.units (h.exIdle_decoding hw rfl)
    | items k n ps item got =>
      obtain ⟨-, hc, -⟩ := h.standsAt hw
      exact itemStrobe_inv hc k n ps item got h.units (h.exIdle_decoding hw rfl)
    | send | pace | collect | backoff => exact lineEvent_inv h

/-! ### Operations and steps keep the invariant -/

theorem State.reset_inv : State.reset.Inv := by
  refine ⟨?tx, ?rx, ?fd, rfl, ?line, rfl⟩
  case tx => exact ⟨Nat.zero_le _, nofun⟩
  case rx => exact ⟨Nat.zero_le _, trivial⟩
  case fd => exact Nat.zero_le _
  case line => rintro ⟨h, -⟩; cases h

/-- RESET leaves the units as they are at reset; no clause of the invariant asks more of the configuration then. -/
theorem resetOp_inv (s : State) : (setRet none (resetOp s)).Inv := State.reset_inv

theorem LinkNext.settle_inv {s t : State} (h : LinkNext s t) (hs : s.Inv) : (settle t).Inv := by
  have arrives : ∀ bs, (settle (setRet none (bufferBytes bs s))).Inv := fun bs =>
    settle_inv_of_same (t := setRet none (bufferBytes bs s)) hs ⟨rfl, rfl, rfl, rfl⟩ hs.units rfl rfl
  cases h with
  | txByte hb => exact settle_sent_inv hs ⟨rfl, rfl, rfl, rfl⟩ (by simpa [txBusy] using hb) rfl rfl
  | rxByte b =>
    unfold rxByteEvent
    split
    · rename_i hr
      have hr : s.rx.state = .receiving := by simpa [rxBusy] using hr
      exact ((feed_reads _ hs.units.rx hr).setRet none).settle_inv hs hr
    · exact arrives [b]
  | rxAbort hr =>
    have hr : s.rx.state = .receiving := by simpa [rxBusy] using hr
    exact ((abortRx_reads hs.units.rx hr).setRet none).settle_inv hs hr
  | arrives bs => exact arrives bs

theorem FdOnly.inv {s t : State} (h : FdOnly s t) (hf : t.fd.Inv) (hs : s.Inv) (ho : s.owner = none) : t.Inv := by
  obtain ⟨-, -, -, -, eo⟩ := h.same
  have hx := h.exIdle (hs.exIdle ho)
  refine (h.units hf hs.units).inv hx.inv ?_
  rw [OwnerInv, eo, ho]
  exact hx.1

/-- A strobe or call of the host, which finds no call in progress. -/
theorem HostNext.inv {s t : State} (h : HostNext s t) (hs : s.Inv) (ho : s.owner = none) : t.Inv := by
  have hu := hs.units
  have hx := hs.exIdle ho
  have free : ∀ t : State, t.owner = s.owner → t.ex = s.ex → OwnerInv t := by
    intro t eo ex
    rw [OwnerInv, eo, ho, ex]
    exact hx.1
  cases h with
  | gives v => exact hs
  | busy => exact hs
  | badLen n => exact hs
  | field v d => exact (field_fdOnly d s).inv (field_fdInv d hu.fd) hs ho
  | fdLoad x n => exact (fdLoadOp_fdOnly x n s).inv (fdLoadOp_fdInv x n hu.fd) hs ho
  | txLoad f hl => exact (loadTx_units hu hl).inv hx.inv (free _ rfl rfl)
  | rxArm e hl => exact (armRx_units hu hl).inv hx.inv (free _ rfl rfl)
  | flush => exact hs
  | write f hl => exact waitFor_inv (loadTx_units hu hl) hx.inv ⟨(hx.exFor rfl).place rfl, rfl, .inl rfl⟩
  | read d hl => exact waitFor_inv (armRx_units hu hl) hx.inv ⟨(hx.exFor rfl).place rfl, rfl, .inl ⟨d, rfl⟩⟩
  | sleep d => exact waitFor_inv hu hx.inv ⟨(hx.exFor rfl).place rfl, .inl ⟨d, rfl⟩⟩
  | attempt => exact sendRequest_inv rfl hu (hx.exFor rfl)
  | exchange c q hc => exact startExchange_inv hc q hu
  | decodeFields x ds => exact bindSchema_inv (.inl rfl) x ds hu hx
  | reassemble ps r => exact nextFrame_inv (.inl rfl) r ps 1 [] hu hx

theorem TakesRequest.inv {r : Request} {s t : State} (h : TakesRequest r s t) (hs : s.Inv)
    (ho : s.owner = none ∨ isEvent r = true) : t.Inv := by
  cases h with
  | event => exact environment_inv hs
  | wake => exact wake_inv hs
  | runs he hi _ =>
    rcases exec_next he with ⟨-, rfl⟩ | ⟨-, hl⟩ | ⟨hn, hh⟩
    · rw [settle_of_ownerInv (resetOp_inv s).ownerInv]
      exact resetOp_inv s
    · exact hl.settle_inv hs
    · have ho : s.owner = none := ho.resolve_right (by simp [hi, hn])
      have ht := hh.inv hs ho
      rwa [settle_of_ownerInv ht.ownerInv]

end Sys2Proof.Machine

open Sys2Proof Sys2Proof.Machine

/-- Settles O13: RESET copies the configuration and the link, and every other step `Grows`. -/
theorem stepKeepsConfigurationAndRecord : Obligations.StepKeepsConfigurationAndRecord := by
  intro s t h
  obtain ⟨rest, ⟨-, rfl⟩ | m⟩ := step_resets_or_moves h
  · exact ⟨rfl, List.prefix_rfl, List.prefix_rfl⟩
  · exact ⟨m.cfg, m.history, m.sent⟩

/-- Settles O14: a step that is no RESET takes causes only, and no raise has the cause CAUSE_NONE. -/
theorem onlyResetClearsLastCause : Obligations.OnlyResetClearsLastCause := by
  intro s t h hc
  obtain ⟨rest, ⟨ha, -⟩ | m⟩ := step_resets_or_moves h
  · exact .inr ⟨rest, ha⟩
  · exact .inl (m.cause hc)

/-- Settles O15: only an event of a GET_STATUS in progress writes the Device State. -/
theorem countsWrittenOnlyByStatus : Obligations.CountsWrittenOnlyByStatus := by
  intro s t h
  obtain ⟨rest, ⟨ha, -⟩ | m⟩ := step_resets_or_moves h
  · exact .inr (.inr ⟨rest, ha⟩)
  · exact m.dev.imp id .inl

/-- Settles O10. -/
theorem resetStateMeetsInvariant : Obligations.ResetStateMeetsInvariant := State.reset_inv

/-- Settles O33: each flag is a test of one state register, and the views are guarded by RX_ACCEPT. -/
theorem flagsAndViewsFollowStates : Obligations.FlagsAndViewsFollowStates := by
  intro s
  have done_iff : rxDone s = true ↔ s.rx.state ∈ [.accept, .rejectCmd, .rejectCsum, .noData] := by
    unfold rxDone
    cases s.rx.state <;> simp [RxState.isDone]
  have accepted (h : s.rx.state = .accept) : rxSeq s = some s.rx.buf[4] ∧ rxCmd s = some s.rx.buf[2] ∧
      rxPayload s = some #v[s.rx.buf[4], s.rx.buf[5], s.rx.buf[6], s.rx.buf[7], s.rx.buf[8], s.rx.buf[9], s.rx.buf[10],
        s.rx.buf[11]] := by
    simp [rxSeq, rxCmd, rxPayload, h, framePayload_eq]
  have elsewhere (h : s.rx.state ≠ .accept) : rxSeq s = none ∧ rxCmd s = none ∧ rxPayload s = none := by
    simp [rxSeq, rxCmd, rxPayload, h]
  exact ⟨by simp [txBusy], by simp [rxBusy], done_iff, by simp [rxOk], by simp [rxErrCmd], by simp [rxErrCsum],
    by simp [rxEmpty], by simp [fdOk], by simp [fdErr], by simp [fdEnd], accepted, elsewhere⟩

/-- Settles O12: the step is an event, or takes a request that is one or finds no call in progress; each keeps the three units'
invariants and leaves the owner where they agree with its place. -/
theorem stepKeepsInvariant : Obligations.StepKeepsInvariant := by
  intro s t hs h
  rcases step_next h with rfl | ⟨r, rest, -, ho, hr⟩
  · exact environment_inv hs
  · exact hr.inv (s := { s with agenda := rest }) hs ho

end

section
/-! ## The two encodings, and the step that runs a word (30_encoding.md) -/

namespace Sys2Proof.Machine

/-- A sequence of bytes is a frame exactly where it is that frame's bytes in offset order (30 R70). -/
theorem frameOfBytes_eq_some {bs : List Byte} {f : Frame} : frameOfBytes bs = some f ↔ f.toList = bs := by
  unfold frameOfBytes
  split
  · rw [Option.some_inj, ← Vector.toList_inj]
    exact eq_comm
  · rename_i hlen
    refine ⟨nofun, ?_⟩
    rintro rfl
    exact absurd f.length_toList hlen

theorem decodeWord_descriptor (d : Byte) : decodeWord ⟨.fdField, [d]⟩ = .ok (decodeDescriptor d) := rfl

/-- A word of FRAME_LEN bytes is read as a frame, which the descriptor port refuses for its length (30 R66, R70). -/
theorem decodeWord_frame (port : Port) (f : Frame) : decodeWord ⟨port, f.toList⟩ = decodeFrame port f := by
  unfold decodeWord
  split
  · rename_i d _ hbytes
    exact absurd (congrArg List.length hbytes) (by simp)
  · simp [frameOfBytes_eq_some.2 rfl]

/-- A word that decodes is a descriptor byte or a frame. -/
theorem decodeWord_ok {w : PortWord} {i : Instr} (h : decodeWord w = .ok i) :
    (∃ d, w = ⟨.fdField, [d]⟩ ∧ i = decodeDescriptor d) ∨
      ∃ port f, w = ⟨port, f.toList⟩ ∧ decodeFrame port f = .ok i := by
  obtain ⟨port, bs⟩ := w
  unfold decodeWord at h
  split at h
  · rename_i d hport hbytes
    cases hport
    cases hbytes
    cases h
    exact .inl ⟨d, rfl, rfl⟩
  · split at h
    · rename_i f hf
      exact .inr ⟨port, f, by rw [frameOfBytes_eq_some.1 hf], h⟩
    · cases h

/-! ### The descriptor byte (30 R66, R67) -/

/-- R66's table and R67's list share no code and leave none out. -/
theorem decodeDescriptor_eq_reserved_iff : ∀ d : Byte, decodeDescriptor d = .descReserved d ↔ listedReserved d = true := by
  decide

/-- Each descriptor byte names a well-formed operation, whose descriptor it is. -/
theorem decodeDescriptor_names : ∀ d : Byte,
    (decodeDescriptor d).wf = true ∧ encodeWord (decodeDescriptor d) = some ⟨.fdField, [d]⟩ := by
  decide

/-! ### The frame (30 R60, R61, R63) -/

theorem framePayload_wireFrame (t a c l : Byte) (p : Payload) (k : Byte) : framePayload (wireFrame t a c l p k) = p := by
  rw [wireFrame_eq, framePayload_eq]
  exact (payload_eta p).symm

/-- A frame is made of its six fields. -/
theorem wireFrame_fields (f : Frame) :
    wireFrame f[offStart] f[offAddr] f[offCmd] f[offLen] (framePayload f) f[offCsum] = f := by
  rw [wireFrame_eq, framePayload_eq]
  exact (frame_eta f).symm

theorem decodeFrame_request (a c : Byte) (p : Payload) (k : Byte) :
    decodeFrame .txFrame (wireFrame startByte a c lenByte p k) = .ok (.frameRequest a c p k) := by
  rw [decodeFrame, framePayload_wireFrame, wireFrame_eq]
  rfl

theorem decodeFrame_response (t a c l : Byte) (p : Payload) (k : Byte) :
    decodeFrame .rxFrame (wireFrame t a c l p k) = .ok (.frameResponse t a c l p k) := by
  rw [decodeFrame, framePayload_wireFrame, wireFrame_eq]
  rfl

/-- A frame that decodes is a request with its two constants on the transmit side, or any frame on the receive side. -/
theorem encodeWord_of_decodeFrame {port : Port} {f : Frame} {i : Instr} (h : decodeFrame port f = .ok i) :
    i.wf = true ∧ encodeWord i = some ⟨port, f.toList⟩ := by
  cases port with
  | fdField => cases h
  | txFrame =>
    simp only [decodeFrame] at h
    split at h <;> cases h
    rename_i hconst
    obtain ⟨hstart, hlen⟩ := hconst
    have hf := wireFrame_fields f
    rw [hstart, hlen] at hf
    exact ⟨rfl, by rw [encodeWord, hf]⟩
  | rxFrame =>
    cases h
    exact ⟨rfl, by rw [encodeWord, wireFrame_fields]⟩

/-! ### The step that runs a word (30 R68) -/

/-- The step takes the next request, unless a call is in progress that the request does not reach (70 R221). -/
theorem step_of_request {s : State} {r : Request} {rest : List Request} (ha : s.agenda = r :: rest)
    (h : s.owner = none ∨ isEvent r = true) : step s = runRequest r { s with agenda := rest } := by
  have hn : ¬ (s.owner.isSome && !isEvent r) = true := by rcases h with h | h <;> simp [h]
  rw [step, ha]
  exact if_neg hn

theorem runRequest_word {w : PortWord} {i : Instr} (h : decodeWord w = .ok i) (s : State) :
    runRequest (.word w) s = runInstr i s := by
  simp only [runRequest, h]

/-! ### A frame the transport holds, delivered (41 R97, 92 D28) -/

/-- The validator has the frame's thirteen bytes and the sum of the first twelve, and the transport holds none. -/
def withFrame (f : Frame) (s : State) : State :=
  { s with
    rx := { s.rx with buf := f, idx := 13, sum := checksum (f.toList.take 12) }
    link := { s.link with buffered := [] } }

/-- A fresh read takes the frame the transport holds by thirteen events, the last of which judges it. -/
theorem events_frame {f : Frame} {s : State} (ht : s.tx.state = .idle) (h : s.rx.state = .receiving)
    (hi : s.rx.idx = 0) (hs : s.rx.sum = 0) (hb : s.link.buffered = f.toList)
    (ho : ∀ w, s.owner = some w → w.phase = .collect) : events 13 s = settle (judgeFrame (withFrame f s)) := by
  have hsplit : f.toList = f.toList.take 12 ++ [f[12]] := by rw [frame_toList]; rfl
  have hlen : (f.toList.take 12).length = 12 := by rw [frame_toList]; rfl
  obtain ⟨buf, e, k⟩ := events_bytes (f.toList.take 12) [f[12]] s ht h (hb.trans hsplit) (by rw [hi, hlen]) ho
  rw [hlen, hi] at e k
  have hbuf : buf.set 12 f[12] = f := by rw [set_last buf _ _ (by simpa using k), ← hsplit, frameOf_toList]
  generalize hu : events 12 s = u at e
  have hread : environment u = settle (receiveNext u) :=
    environment_read (ownerWaits_of rfl (by rw [e]; exact ho)) (by rw [e]; exact ht) (by rw [e]; exact h)
  have hlast : receiveNext u = takeByte f[12] (setBuffered [] u) := by rw [e]; rfl
  have hjudge : takeByte f[12] (setBuffered [] u) = judgeFrame (withFrame f s) := by
    rw [takeByte_last _ _ (by rw [e]; rfl), e]
    simp [setBuffered, hbuf, hs, withFrame]
  calc events 13 s
    _ = environment (events 12 s) := events_add 12 1 s
    _ = settle (judgeFrame (withFrame f s)) := by rw [hu, hread, hlast, hjudge]

/-- What VALIDATE makes of a frame's fields: the command id first, then the checksum (41 R92). -/
theorem judgedState_validateFrame (t a c l : Byte) (p : Payload) (k e : Byte) :
    judgedState (validateFrame (wireFrame t a c l p k) e) =
      if c ≠ e then .rejectCmd
      else if checksum (t :: a :: c :: l :: p.toList) ≠ k then .rejectCsum else .accept := by
  have hcmd : (wireFrame t a c l p k)[offCmd] = c := by rw [wireFrame_eq]; rfl
  have hsum : verifyChecksum (wireFrame t a c l p k).toList = (checksum (t :: a :: c :: l :: p.toList) == k) :=
    (congrArg verifyChecksum (wireFrame_toList t a c l p k)).trans
      (verifyChecksum_append_singleton (t :: a :: c :: l :: p.toList) k)
  unfold validateFrame
  rw [hcmd, hsum]
  by_cases hc : c = e
  · subst hc
    by_cases hk : checksum (t :: a :: c :: l :: p.toList) = k <;> simp [hk, judgedState]
  · simp [hc, judgedState]

end Sys2Proof.Machine

open Sys2Proof Sys2Proof.Machine

/-- Settles O1: each frame is made of its fields, and R66's table and R67's list share no code. -/
theorem decodeOfEncodeIsIdentity : Obligations.DecodeOfEncodeIsIdentity := by
  intro i w hwf hw
  cases i with
  | frameRequest a c p k => cases hw; exact (decodeWord_frame _ _).trans (decodeFrame_request a c p k)
  | frameResponse t a c l p k => cases hw; exact (decodeWord_frame _ _).trans (decodeFrame_response t a c l p k)
  | u8 | u16 | u32 | i8 | i16 | i32 | bool => cases hw; rfl
  | descReserved d => cases hw; exact (decodeWord_descriptor d).trans (congrArg _ ((decodeDescriptor_eq_reserved_iff d).2 hwf))
  | _ => cases hw

/-- Settles O2: a word that decodes is a descriptor byte or a frame, and each is the word of what it decodes to. -/
theorem encodeOfDecodeIsIdentity : Obligations.EncodeOfDecodeIsIdentity := by
  intro w i h
  obtain ⟨d, rfl, rfl⟩ | ⟨port, f, rfl, hf⟩ := decodeWord_ok h
  · exact decodeDescriptor_names d
  · exact encodeWord_of_decodeFrame hf

/-- Settles O35: the frame's bytes go behind those the transport holds; a fresh read takes them as `events_frame` says, and the
judgement writes only the validator, LAST_CAUSE and the raises. -/
theorem receivedFrameIsDelivered : Obligations.ReceivedFrameIsDelivered := by
  intro t a c l p k s
  rw [← wireFrame_toList]
  generalize hf : wireFrame t a c l p k = f
  refine ⟨setRet none (bufferBytes f.toList s), rfl, by rw [← hf]; rfl, fun ho ht hr hi hs hb => ?_⟩
  have hevents := events_frame (s := setRet none (bufferBytes f.toList s)) (f := f) ht hr hi hs
    (congrArg (· ++ f.toList) hb) (by simp [ho])
  generalize hv : withFrame f (setRet none (bufferBytes f.toList s)) = v at hevents
  obtain ⟨hstate, -, hrx⟩ := judgeFrame_spec v (by rw [← hv]; rfl)
  have honly : RxOnly v (judgeFrame v) := judgeFrame_rxOnly v
  have hown : (judgeFrame v).owner = none := by rw [honly.sameCall.owner, ← hv]; exact ho
  have hlink : { s.link with buffered := [] } = s.link := by rw [← hb]
  rw [settle_of_awaitsNoLine (fun w hw => by simp [hown] at hw)] at hevents
  refine ⟨_, hevents, ?state, ?buf, ?idx, ?link, ?frame⟩
  case state => rw [hstate, ← hv, ← hf]; exact judgedState_validateFrame t a c l p k s.rx.expect
  case buf => rw [hrx, ← hv]; rfl
  case idx => rw [hrx, ← hv]; rfl
  case link => rw [honly, ← hv]; exact hlink
  case frame =>
    rw [honly, ← hv]
    show { s with link := { s.link with buffered := [] } } = s
    rw [hlink]

/-- Settles O3. -/
theorem reservedDescriptorCodesAgree : Obligations.ReservedDescriptorCodesAgree := by
  have hfields : ∀ d : Byte, descReserved d = listedReserved d ∧ (fieldType d).isSome = !listedReserved d := by decide
  exact fun d => ⟨decodeDescriptor_eq_reserved_iff d, hfields d⟩

/-- Settles O4. -/
theorem specWordsDecode : Obligations.SpecWordsDecode := by
  unfold Obligations.SpecWordsDecode
  decide

/-- Settles O7: with no call in progress the step takes the placed word, whose operation is well-formed because it decodes. -/
theorem placedWordRunsNext : Obligations.PlacedWordRunsNext := by
  intro s n w i h
  have hw : decodeWord (tableWord n w) = .ok i := by
    unfold decodeTableWord at h
    split at h <;> cases h
    assumption
  have hwf : i.wf = true := (encodeOfDecodeIsIdentity _ i hw).1
  calc step (s.withFetchWord n w)
    _ = runRequest (.word (tableWord n w)) { s with owner := none } := step_of_request rfl (.inl rfl)
    _ = runInstr i { s with owner := none } := runRequest_word hw _
    _ = _ := if_pos hwf
end

section
/-! ## The checksum (40_byte_codec.md R80 to R83) -/

namespace Sys2Proof.Machine

/-- The order of the bytes does not matter to their sum (R83). -/
theorem checksum_perm {x y : List Byte} (h : x.Perm y) : checksum x = checksum y := by
  induction h with
  | nil => rfl
  | cons c _ ih => rw [checksum_cons, checksum_cons, ih]
  | swap c d x => rw [checksum_cons, checksum_cons, checksum_cons, checksum_cons, add_left_comm]
  | trans _ _ ih₁ ih₂ => exact ih₁.trans ih₂

/-- One byte of a sequence is determined by the checksum and the other bytes. -/
theorem checksum_replace_inj (x y : List Byte) (c d : Byte) : checksum (x ++ c :: y) = checksum (x ++ d :: y) ↔ c = d := by
  rw [checksum_append, checksum_append, checksum_cons, checksum_cons, BitVec.add_right_inj, BitVec.add_left_inj]

/-- A sequence that verifies does not verify with any one byte changed, the checksum byte included. -/
theorem verifyChecksum_replace {x y : List Byte} {c d : Byte} (h : verifyChecksum (x ++ c :: y) = true) (hd : d ≠ c) :
    verifyChecksum (x ++ d :: y) = false := by
  rcases y.eq_nil_or_concat with rfl | ⟨y, k, rfl⟩
  · rw [verifyChecksum_append_singleton, beq_iff_eq] at h
    rw [verifyChecksum_append_singleton, h]
    exact beq_eq_false_iff_ne.2 hd.symm
  · have last (e : Byte) : verifyChecksum (x ++ e :: y.concat k) = (checksum (x ++ e :: y) == k) := by
      rw [← verifyChecksum_append_singleton]; simp
    rw [last, beq_iff_eq] at h
    rw [last, ← h]
    exact beq_eq_false_iff_ne.2 (mt (checksum_replace_inj x y d c).1 hd)

/-- Flipping a bit of a byte changes it. -/
theorem flipBit_ne (c : Byte) {k : Nat} (h : k < 8) : c ^^^ BitVec.twoPow 8 k ≠ c := by
  intro e
  have hbit := congrArg (BitVec.getLsbD · k) e
  simp [h] at hbit

end Sys2Proof.Machine

/-! ## Hex text (40_byte_codec.md R84 to R86) -/

namespace Sys2Proof.Machine

theorem hexDigits_eq : "0123456789abcdef".toList = (List.range 16).map hexDigit := by decide

/-- H2B's digit values invert B2H's digits, and only on those sixteen characters. -/
theorem hexValue_eq_some {c : Char} {n : Nat} : hexValue c = some n ↔ n < 16 ∧ hexDigit n = c := by
  constructor
  · intro h
    unfold hexValue at h
    split at h
    · cases h
      have hn : c.toNat - 48 < 10 := by omega
      have hc : 48 + (c.toNat - 48) = c.toNat := by omega
      exact ⟨by omega, by rw [hexDigit, if_pos hn, hc, Char.ofNat_toNat]⟩
    · split at h
      · cases h
        have hn : ¬ c.toNat - 87 < 10 := by omega
        have hc : 87 + (c.toNat - 87) = c.toNat := by omega
        exact ⟨by omega, by rw [hexDigit, if_neg hn, hc, Char.ofNat_toNat]⟩
      · cases h
  · rintro ⟨hn, rfl⟩
    have values : ∀ n < 16, hexValue (hexDigit n) = some n := by decide
    exact values n hn

theorem mem_hexDigits_iff {c : Char} : c ∈ "0123456789abcdef".toList ↔ ∃ n, hexValue c = some n := by
  simp [hexDigits_eq, hexValue_eq_some]

/-- A nibble's digit is read off the list of digits. -/
theorem hexDigits_getD {n : Nat} (h : n < 16) : "0123456789abcdef".toList.getD n ' ' = hexDigit n := by
  rw [hexDigits_eq]
  simp [h]

/-- Two characters are the digits of a byte exactly where they have the values of its nibbles. -/
theorem byteToHex_eq {x : Byte} {c d : Char} :
    byteToHex x = [c, d] ↔ ∃ h l, hexValue c = some h ∧ hexValue d = some l ∧ BitVec.ofNat 8 (16 * h + l) = x := by
  have hx : x.toNat < 256 := x.isLt
  simp only [byteToHex, List.cons.injEq, and_true, hexValue_eq_some]
  constructor
  · rintro ⟨hc, hd⟩
    refine ⟨_, _, ⟨by omega, hc⟩, ⟨by omega, hd⟩, ?_⟩
    rw [Nat.div_add_mod, BitVec.ofNat_toNat, BitVec.setWidth_eq]
  · rintro ⟨h, l, ⟨hh, rfl⟩, ⟨hl, rfl⟩, rfl⟩
    have hn : (BitVec.ofNat 8 (16 * h + l)).toNat = 16 * h + l := Nat.mod_eq_of_lt (by omega)
    rw [hn]
    exact ⟨congrArg hexDigit (by omega), congrArg hexDigit (by omega)⟩

/-- H2B reads the first byte off the first two characters (R85). -/
theorem hexToBytes_cons_cons_eq_some {c d : Char} {t : List Char} {b : List Byte} :
    hexToBytes (c :: d :: t) = some b ↔ ∃ x bs, byteToHex x = [c, d] ∧ hexToBytes t = some bs ∧ b = x :: bs := by
  simp only [byteToHex_eq]
  constructor
  · intro e
    unfold hexToBytes at e
    split at e <;> cases e
    exact ⟨_, _, ⟨_, _, ‹_›, ‹_›, rfl⟩, ‹_›, rfl⟩
  · rintro ⟨-, bs, ⟨h, l, hc, hd, rfl⟩, ht, rfl⟩
    simp [hexToBytes, hc, hd, ht]

/-- H2B accepts the text of B2H's digits and no other, and answers the bytes it is made of. -/
theorem hexToBytes_eq_some : ∀ {t : List Char} {b : List Byte}, hexToBytes t = some b ↔ bytesToHex b = t
  | [], b => by cases b <;> simp [hexToBytes, bytesToHex, byteToHex]
  | [_], b => by cases b <;> simp [hexToBytes, bytesToHex, byteToHex]
  | c :: d :: t, [] => by simp [hexToBytes_cons_cons_eq_some, bytesToHex]
  | c :: d :: t, x :: bs => by
    have ih := hexToBytes_eq_some (t := t) (b := bs)
    have parts : byteToHex x ++ bytesToHex bs = c :: d :: t ↔ byteToHex x = [c, d] ∧ bytesToHex bs = t := by
      simp [byteToHex, and_assoc]
    simp [hexToBytes_cons_cons_eq_some, bytesToHex, parts, ih]

/-- Well-formed text is what H2B accepts: an even number of lower-case hex digits. -/
theorem hexToBytes_accepts_iff : ∀ {t : List Char},
    (∃ b, hexToBytes t = some b) ↔ t.length % 2 = 0 ∧ ∀ c ∈ t, c ∈ "0123456789abcdef".toList
  | [] => by simp [hexToBytes]
  | [_] => by simp [hexToBytes]
  | c :: d :: t => by
    have ih := hexToBytes_accepts_iff (t := t)
    calc (∃ b, hexToBytes (c :: d :: t) = some b)
      _ ↔ (∃ h, hexValue c = some h) ∧ (∃ l, hexValue d = some l) ∧ ∃ bs, hexToBytes t = some bs := by
        simp [hexToBytes_cons_cons_eq_some, byteToHex_eq]
      _ ↔ (c :: d :: t).length % 2 = 0 ∧ ∀ e ∈ c :: d :: t, e ∈ "0123456789abcdef".toList := by
        have hlen : (c :: d :: t).length % 2 = t.length % 2 := Nat.add_mod_right t.length 2
        rw [← mem_hexDigits_iff, ← mem_hexDigits_iff, ih, List.forall_mem_cons, List.forall_mem_cons, hlen]
        tauto

theorem length_bytesToHex (b : List Byte) : (bytesToHex b).length = 2 * b.length := by
  induction b with
  | nil => rfl
  | cons x b ih => simp [bytesToHex, byteToHex, ih]; omega

/-- H2B answers one byte for two characters (R85). -/
theorem length_eq_of_hexToBytes {t : List Char} {b : List Byte} (h : hexToBytes t = some b) : b.length = t.length / 2 := by
  rw [← hexToBytes_eq_some.1 h, length_bytesToHex]
  omega

/-! ### The operations of the Byte Codec -/

theorem exec_csum (b : List Byte) (s : State) : exec (.csum b) s = .next (setRet (some (.byte (checksum b))) s) := rfl

theorem exec_verify (b : List Byte) (s : State) :
    exec (.verify b) s = .next (setRet (some (.truth (verifyChecksum b))) s) := rfl

theorem exec_b2h (b : Byte) (s : State) : exec (.b2h b) s = .next (setRet (some (.text (byteToHex b))) s) := rfl

theorem exec_h2b (t : List Char) (s : State) : exec (.h2b t) s = .next (setRet ((hexToBytes t).map .bytes) s) := rfl

end Sys2Proof.Machine

open Sys2Proof Sys2Proof.Machine

/-- Settles O16, by induction on the bytes. -/
theorem checksumIsSumModulo : Obligations.ChecksumIsSumModulo := by
  intro b
  induction b with
  | nil => rfl
  | cons x b ih => simp [checksum_cons, ih]

/-- Settles O17: the checksum of a concatenation is a sum of bytes, and a byte is the checksum of itself. -/
theorem checksumIncrementalLaw : Obligations.ChecksumIncrementalLaw := by
  have concat (x y : List Byte) : (checksum (x ++ y)).toNat = ((checksum x).toNat + (checksum y).toNat) % 256 := by
    rw [checksum_append, BitVec.toNat_add]
  refine ⟨concat, fun x c => ?_⟩
  simp [concat, checksum_cons, checksum_nil]

/-- Settles O18: the checksum is a sum, which one changed byte always changes, and two changes or a new order need not. -/
theorem checksumLaws : Obligations.ChecksumLaws := by
  have verifies (b : List Byte) : verifyChecksum (b ++ [checksum b]) = true := by
    simp [verifyChecksum_append_singleton]
  refine ⟨verifies, ?flip, ?cancel, ?reorder⟩
  case flip =>
    intro b x y c k hk hb
    exact verifyChecksum_replace (hb ▸ verifies b) (flipBit_ne c hk)
  case cancel =>
    intro x y z c d c' d' k hsum
    have moved (e f : Byte) : checksum (x ++ e :: y ++ f :: z) = (e + f) + checksum (x ++ y ++ z) := by
      simp only [checksum_append, checksum_cons]
      ring
    rw [verifyChecksum_append_singleton, verifyChecksum_append_singleton, moved, moved, hsum]
  case reorder =>
    intro x y k h
    rw [verifyChecksum_append_singleton, verifyChecksum_append_singleton, checksum_perm h]

/-- Settles O19: each direction of what H2B accepts. -/
theorem hexRoundTrip : Obligations.HexRoundTrip :=
  ⟨fun _ => hexToBytes_eq_some.2 rfl, fun _ _ => hexToBytes_eq_some.1⟩

/-- Settles O21: H2B accepts the well-formed text and no other. -/
theorem malformedHexReturnsNothing : Obligations.MalformedHexReturnsNothing := by
  intro t s
  split
  case isTrue h =>
    obtain ⟨b, hb⟩ := hexToBytes_accepts_iff.2 h
    exact ⟨b, length_eq_of_hexToBytes hb, by rw [exec_h2b, hb]; rfl⟩
  case isFalse h =>
    have hnone : hexToBytes t = none := Option.eq_none_iff_forall_ne_some.2 fun b hb => h (hexToBytes_accepts_iff.1 ⟨b, hb⟩)
    rw [exec_h2b, hnone]
    rfl

/-- Settles O20: each operation gives its function's result. -/
theorem byteCodecOperationsReturn : Obligations.ByteCodecOperationsReturn := by
  intro s
  refine ⟨fun b => exec_csum b s, fun b => exec_verify b s, exec_verify [] s, fun b k => ?verify, fun b => ?b2h,
    fun b => ?h2b⟩
  case verify => rw [exec_verify, verifyChecksum_append_singleton]; rfl
  case b2h =>
    have hb : b.toNat < 256 := b.isLt
    rw [exec_b2h, hexDigits_getD (by omega), hexDigits_getD (by omega)]
    rfl
  case h2b => rw [exec_h2b, hexToBytes_eq_some.2 rfl]; rfl
end

section
/-! ## The Frame Codec as functions (41_frame_codec.md R91 to R93) -/

namespace Sys2Proof.Machine

theorem encodeFrame_fits (a c : Byte) {x : List Byte} (h : x.length ≤ 8) :
    encodeFrame a c x = some (sealFrame startByte a c lenByte (padPayload x)) := if_neg (Nat.not_lt.2 h)

theorem encodeFrame_badLen (a c : Byte) {x : List Byte} (h : 8 < x.length) : encodeFrame a c x = none := if_pos h

theorem sealFrame_toList (t a c l : Byte) (p : Payload) : (sealFrame t a c l p).toList =
    t :: a :: c :: l :: (p.toList ++ [checksum (t :: a :: c :: l :: p.toList)]) := wireFrame_toList t a c l p _

theorem sealFrame_header (t a c l : Byte) (p : Payload) : (sealFrame t a c l p)[0] = t ∧ (sealFrame t a c l p)[1] = a ∧
    (sealFrame t a c l p)[2] = c ∧ (sealFrame t a c l p)[3] = l := by
  rw [sealFrame, wireFrame_eq]
  exact ⟨rfl, rfl, rfl, rfl⟩

/-- A frame's checksum byte, offset 12, is that of the twelve bytes before it (R91). -/
theorem sealFrame_checksum (t a c l : Byte) (p : Payload) :
    (sealFrame t a c l p)[12] = checksum ((sealFrame t a c l p).toList.take 12) := by
  rw [sealFrame_toList, payload_toList p, sealFrame, wireFrame_eq, payload_toList p]
  rfl

theorem framePayload_toList (f : Frame) : (framePayload f).toList = (f.toList.drop 4).take 8 := by
  rw [framePayload_eq, frame_toList]
  rfl

theorem framePayload_sealFrame (t a c l : Byte) (p : Payload) : framePayload (sealFrame t a c l p) = p :=
  framePayload_wireFrame t a c l p _

/-! ### VALIDATE's three judgements (R92) -/

theorem validateFrame_mismatch {f : Frame} {e : Byte} (h : f[2] ≠ e) : validateFrame f e = .error .rxCmdMismatch := if_pos h

theorem validateFrame_badSum {f : Frame} {e : Byte} (h : f[2] = e) (k : checksum (f.toList.take 12) ≠ f[12]) :
    validateFrame f e = .error .rxCsumFail := by
  simp [validateFrame, verifyChecksum_frame, h, k]

theorem validateFrame_accepts {f : Frame} {e : Byte} (h : f[2] = e) (k : checksum (f.toList.take 12) = f[12]) :
    validateFrame f e = .ok (framePayload f) := by
  simp [validateFrame, verifyChecksum_frame, h, k]

/-- A frame that is accepted carries the expected command id. -/
theorem validateFrame_cmd {f : Frame} {e : Byte} {p : Payload} (h : validateFrame f e = .ok p) : f[2] = e := by
  by_contra hne
  rw [validateFrame_mismatch hne] at h
  cases h

/-- VALIDATE reads the bytes before offset 4, other than the command id, through the checksum only (R93 (d)). -/
theorem validateFrame_congr {f g : Frame} (e : Byte) (hcmd : f[2] = g[2]) (hrest : f.toList.drop 4 = g.toList.drop 4)
    (hsum : checksum (f.toList.take 12) = checksum (g.toList.take 12)) : validateFrame f e = validateFrame g e := by
  have hpayload : framePayload f = framePayload g := by
    rw [← Vector.toList_inj, framePayload_toList, framePayload_toList, hrest]
  have hlast : f[12] = g[12] := by
    rw [frame_toList f, frame_toList g] at hrest
    exact Option.some.inj (congrArg (·[8]?) hrest)
  by_cases hc : g[2] = e
  · by_cases hk : checksum (g.toList.take 12) = g[12]
    · rw [validateFrame_accepts hc hk, validateFrame_accepts (hcmd.trans hc) (by rw [hsum, hlast, hk]), hpayload]
    · rw [validateFrame_badSum hc hk, validateFrame_badSum (hcmd.trans hc) (by rwa [hsum, hlast])]
  · rw [validateFrame_mismatch hc, validateFrame_mismatch (by rwa [hcmd])]

end Sys2Proof.Machine

/-! ## The operations of the Frame Codec (R91 to R98) -/

namespace Sys2Proof.Machine

theorem exec_encode_fits (a c : Byte) {x : List Byte} (h : x.length ≤ 8) (s : State) : exec (.encode a c x) s =
    .next (setRet (some (.frame (sealFrame startByte a c lenByte (padPayload x)))) s) := by
  show execEncode a c x s = _
  rw [execEncode, encodeFrame_fits a c h]
  rfl

theorem exec_encode_badLen (a c : Byte) {x : List Byte} (h : 8 < x.length) (s : State) :
    exec (.encode a c x) s = .next (setRet none (takeCause (.txBadLen x.length) s)) := by
  show execEncode a c x s = _
  rw [execEncode, encodeFrame_badLen a c h]
  rfl

theorem exec_validate (f : Frame) (e : Byte) (s : State) :
    exec (.validate f e) s = .next (setRet (some (validateValue (validateFrame f e))) s) := rfl

theorem exec_txLoad_fits {c : Byte} {x : List Byte} {f : Frame} {s : State} (h : lineBusy s = false)
    (hf : encodeFrame s.cfg.addr c x = some f) : exec (.txLoad c x) s = .next (setRet none (loadTx f s)) := by
  show execTxLoad c x s = _
  rw [execTxLoad, h, hf]
  rfl

theorem exec_txLoad_badLen (c : Byte) {x : List Byte} {s : State} (h : lineBusy s = false) (hx : 8 < x.length) :
    exec (.txLoad c x) s = .next (setRet none (takeCause (.txBadLen x.length) s)) := by
  show execTxLoad c x s = _
  rw [execTxLoad, h, encodeFrame_badLen _ c hx]
  rfl

theorem exec_txLoad_busy (c : Byte) (x : List Byte) {s : State} (h : lineBusy s = true) :
    exec (.txLoad c x) s = .next (setRet none (takeCause .opBusy s)) := if_pos h

theorem exec_txByte {s : State} (h : s.tx.state = .sending) : exec .txByte s = .next (setRet none (sendByte s)) :=
  if_pos (by simp [txBusy, h])

theorem exec_rxArm_idle (e : Byte) {s : State} (h : lineBusy s = false) :
    exec (.rxArm e) s = .next (setRet none (armRx e s)) := if_neg (by simp [h])

theorem exec_rxArm_busy (e : Byte) {s : State} (h : lineBusy s = true) :
    exec (.rxArm e) s = .next (setRet none (takeCause .opBusy s)) := if_pos h

/-- RX_BYTE in RX_RECEIVING takes the first byte the transport then holds, the arriving one last (R96; log entry 17). -/
theorem exec_rxByte {b c : Byte} {rest : List Byte} {s : State} (h : s.rx.state = .receiving)
    (hb : s.link.buffered ++ [b] = c :: rest) :
    exec (.rxByte b) s = .next (setRet none (takeByte c (setBuffered rest s))) := by
  show done (rxByteEvent b s) = _
  rw [rxByteEvent, if_pos (by simp [rxBusy, h]), hb]
  rfl

theorem exec_rxAbort {s : State} (h : s.rx.state = .receiving) : exec .rxAbort s = .next (setRet none (abortRx s)) :=
  if_pos (by simp [rxBusy, h])

/-- RX_BYTE before the 13th byte: stored, summed and counted, no judgement (R97). -/
theorem exec_rxByte_short {b c : Byte} {rest : List Byte} {s : State} (h : s.rx.state = .receiving) (hi : s.rx.idx < 12)
    (hb : s.link.buffered ++ [b] = c :: rest) : exec (.rxByte b) s = .next { s with
      ret := none
      rx := ⟨s.rx.buf.setIfInBounds s.rx.idx c, s.rx.idx + 1, s.rx.sum + c, s.rx.expect, .receiving⟩
      link := { s.link with buffered := rest } } := by
  rw [exec_rxByte h hb, takeByte_short c (setBuffered rest s) hi, ← h]
  rfl

/-- RX_BYTE at the 13th byte: stored, not summed, and the frame judged (R97). -/
theorem exec_rxByte_last {b c : Byte} {rest : List Byte} {s : State} (h : s.rx.state = .receiving) (hi : s.rx.idx = 12)
    (hb : s.link.buffered ++ [b] = c :: rest) : exec (.rxByte b) s = .next (setRet none (judgeFrame { s with
      rx := { s.rx with buf := s.rx.buf.set 12 c, idx := 13 }
      link := { s.link with buffered := rest } })) := by
  rw [exec_rxByte h hb, takeByte_last c (setBuffered rest s) hi]
  rfl

theorem judgeFrame_mismatch {s : State} (h : s.rx.buf[2] ≠ s.rx.expect) :
    judgeFrame s = takeCause (.rxCmdMismatch s.rx.buf[2] s.rx.expect) s := if_pos h

theorem judgeFrame_badSum {s : State} (h : s.rx.buf[2] = s.rx.expect) (k : s.rx.buf[12] ≠ s.rx.sum) :
    judgeFrame s = takeCause (.rxCsumFail s.rx.buf[12] s.rx.sum) s :=
  (if_neg (not_not.2 h)).trans (if_pos k)

theorem judgeFrame_accepts {s : State} (h : s.rx.buf[2] = s.rx.expect) (k : s.rx.buf[12] = s.rx.sum) :
    judgeFrame s = setRxState .accept s := (if_neg (not_not.2 h)).trans (if_neg (not_not.2 k))

end Sys2Proof.Machine

open Sys2Proof Sys2Proof.Machine

/-- Settles O22: the frame is `sealFrame` of the padded payload, whose bytes the lemmas on `sealFrame` name. -/
theorem encodeReturnsFrame : Obligations.EncodeReturnsFrame := by
  intro a c x s
  refine ⟨fun h => ?_, fun h => exec_encode_badLen a c h s⟩
  obtain ⟨hstart, haddr, hcmd, hlen⟩ := sealFrame_header startByte a c lenByte (padPayload x)
  refine ⟨_, exec_encode_fits a c h s, hstart, haddr, hcmd, hlen, ?_, sealFrame_checksum _ _ _ _ _⟩
  rw [← framePayload_toList, framePayload_sealFrame, padPayload_toList x h]

/-- Settles O23: the clauses are VALIDATE's three judgements. -/
theorem validateReturnsJudgement : Obligations.ValidateReturnsJudgement := by
  intro f e s
  refine ⟨fun h => ?_, fun h k => ?_, fun h k => ?_⟩ <;> rw [exec_validate]
  · rw [validateFrame_mismatch h]; rfl
  · rw [validateFrame_badSum h k]; rfl
  · rw [validateFrame_accepts h k, framePayload_eq]; rfl

/-- Settles O24: a built frame carries its command id, its checksum and its payload, and (d) is `validateFrame_congr`. -/
theorem validateEncodeLaws : Obligations.ValidateEncodeLaws := by
  have cmd (a c : Byte) (x : List Byte) : (sealFrame startByte a c lenByte (padPayload x))[2] = c := by
    obtain ⟨-, -, hcmd, -⟩ := sealFrame_header startByte a c lenByte (padPayload x)
    exact hcmd
  refine ⟨fun a c x h => ?_, fun a c e x h he => ?_, fun a c x f _ => f.length_toList,
    fun f g e => validateFrame_congr e⟩
  · refine ⟨_, padPayload x, encodeFrame_fits a c h, ?_, padPayload_toList x h⟩
    rw [validateFrame_accepts (cmd a c x) (sealFrame_checksum _ _ _ _ _).symm, framePayload_sealFrame]
  · exact ⟨_, encodeFrame_fits a c h, validateFrame_mismatch (by rw [cmd]; exact he.symm)⟩

/-- Settles O25. -/
theorem txLoadBuildsFrame : Obligations.TxLoadBuildsFrame := by
  intro c x s
  refine ⟨fun h hx => ?_, exec_txLoad_busy c x, exec_txLoad_badLen c⟩
  have hf := encodeFrame_fits s.cfg.addr c hx
  exact ⟨_, hf, exec_txLoad_fits h hf⟩

/-- Settles O26. -/
theorem txByteSendsNext : Obligations.TxByteSendsNext := by
  intro s
  refine ⟨fun hi h => ?_, fun h => if_neg (by simpa [txBusy] using h)⟩
  have hlast : s.tx.idx + 1 = frameLen ↔ s.tx.idx = 12 := Nat.succ_inj
  rw [exec_txByte h, sendByte, txNext, getD_byte s.tx.buf s.tx.idx hi]
  simp only [hlast, h]
  rfl

/-- Settles O28. -/
theorem rxArmStartsRead : Obligations.RxArmStartsRead :=
  fun e _ => ⟨exec_rxArm_idle e, exec_rxArm_busy e⟩

/-- Settles O29. -/
theorem rxByteStoresUntilTwelfth : Obligations.RxByteStoresUntilTwelfth := by
  intro b c rest s
  refine ⟨fun hb hi h => ?_, fun h => ?_⟩
  · have hset : s.rx.buf.setIfInBounds s.rx.idx c = s.rx.buf.set s.rx.idx c (Nat.lt_succ_of_lt hi) := by
      apply Vector.ext
      intro i hi
      simp [Vector.getElem_setIfInBounds, Vector.getElem_set]
    rw [exec_rxByte_short h hi hb, hset]
  · show done (rxByteEvent b s) = _
    rw [rxByteEvent, if_neg (by simpa [rxBusy] using h)]
    rfl

/-- Settles O30: the judgement of the buffer with the byte stored at offset 12, which leaves byte 2 as it was. -/
theorem rxByteJudgesThirteenth : Obligations.RxByteJudgesThirteenth := by
  intro b c rest s h hi hb
  have hcmd : (s.rx.buf.set 12 c)[2] = s.rx.buf[2] := by simp
  have hlast : (s.rx.buf.set 12 c)[12] = c := by simp
  rw [exec_rxByte_last h hi hb]
  refine ⟨fun k => ?_, fun k l => ?_, fun k l => ?_⟩
  · rw [judgeFrame_mismatch (by simpa only [hcmd] using k)]
    simp only [hcmd]
    rfl
  · rw [judgeFrame_badSum (by simpa only [hcmd] using k) (by simpa only [hlast] using l)]
    simp only [hlast]
    rfl
  · rw [judgeFrame_accepts (by simpa only [hcmd] using k) (by simpa only [hlast] using l)]
    rfl

/-- Settles O31. -/
theorem rxAbortEndsRead : Obligations.RxAbortEndsRead :=
  fun _ => ⟨exec_rxAbort, fun h => if_neg (by simpa [rxBusy] using h)⟩
end

section
/-! ## A frame sent byte by byte, and an answer taken byte by byte (41_frame_codec.md R99, R100) -/

namespace Sys2Proof.Machine

theorem execAll_append {is js : List Instr} {s t : State} (h : execAll is s = .next t) :
    execAll (is ++ js) s = execAll js t := by
  induction is generalizing s with
  | nil => cases h; rfl
  | cons i is ih =>
    simp only [execAll, List.cons_append] at h ⊢
    split at h
    · exact ih h
    · cases h
    · cases h

theorem execAll_cons {i : Instr} {is : List Instr} {s t : State} (h : exec i s = .next t) :
    execAll (i :: is) s = execAll is t := by
  simp only [execAll, h]

/-- The frame `f` has been loaded and sent whole, and is entered in the history (R99, 42 R111). -/
def frameSent (f : Frame) (s : State) : State :=
  { s with
    tx := ⟨f, 13, .idle⟩
    link := { s.link with sent := s.link.sent ++ f.toList, history := s.link.history ++ [.write f] } }

/-- TX_BYTE operations send as the events of a line without an owner do (R95, R99). -/
theorem execAll_txBytes (k : Nat) (s : State) (h : s.tx.idx < 13 → s.tx.state = .sending) (hk : s.tx.idx + k ≤ 13)
    (hret : s.ret = none) :
    execAll (List.replicate k .txByte) s = .next (setOwner s.owner (events k (setOwner none s))) := by
  induction k generalizing s with
  | zero => rfl
  | succ k ih =>
    have hs : s.tx.state = .sending := h (by omega)
    have hsend : exec .txByte s = .next (sendByte s) := by rw [exec_txByte hs, setRet, ← hret]; rfl
    have hmore : (sendByte s).tx.idx < 13 → (sendByte s).tx.state = .sending := by
      intro hlt
      have hne : s.tx.idx + 1 ≠ frameLen := Nat.ne_of_lt hlt
      simp [sendByte, hne, hs]
    have henv : environment (setOwner none s) = setOwner none (sendByte s) := environment_send (s := setOwner none s) rfl hs
    rw [List.replicate_succ, execAll_cons hsend, ih (sendByte s) hmore (by simp [sendByte]; omega) hret, events, henv]
    rfl

/-- RX_BYTE operations that leave the frame incomplete take bytes as the events of a line without an owner do, once the
transport holds them all (R96, R97). -/
theorem execAll_rxBytes (x : List Byte) (s : State) (ht : s.tx.state = .idle) (h : s.rx.state = .receiving)
    (hx : s.rx.idx + x.length ≤ 12) (hret : s.ret = none) :
    execAll (x.map .rxByte) s = .next (setOwner s.owner (events x.length (setOwner none (bufferBytes x s)))) := by
  induction x generalizing s with
  | nil => simp [execAll, events, bufferBytes, setBuffered, setOwner]
  | cons b x ih =>
    rw [List.length_cons] at hx
    obtain ⟨c, rest, hb⟩ : ∃ c rest, s.link.buffered ++ [b] = c :: rest := List.exists_cons_of_ne_nil (by simp)
    have hi : s.rx.idx < 12 := by omega
    have hheld : s.link.buffered ++ b :: x = c :: (rest ++ x) := by rw [← List.cons_append, ← hb]; simp
    have henv := environment_byte (s := setOwner none (bufferBytes (b :: x) s)) ht h hheld hi nofun
    rw [List.map_cons, execAll_cons (exec_rxByte_short h hi hb), List.length_cons, events, henv]
    refine Eq.trans (ih _ ht rfl (Nat.add_right_comm _ 1 _ ▸ hx) rfl) ?_
    simp [bufferBytes, setBuffered, setOwner, hret, h]

/-- TX_LOAD and thirteen TX_BYTE operations (R99). -/
theorem execAll_transmit {c : Byte} {x : List Byte} {f : Frame} {s : State} (hl : lineBusy s = false)
    (hf : encodeFrame s.cfg.addr c x = some f) :
    execAll (.txLoad c x :: List.replicate 13 .txByte) s = .next (setRet none (frameSent f s)) := by
  have hsent := events_sent f (setOwner none (setRet none s)) nofun
  rw [execAll_cons (exec_txLoad_fits hl hf), execAll_txBytes 13 (setRet none (loadTx f s)) (fun _ => rfl) le_rfl rfl]
  exact congrArg (fun u => Host.Outcome.next (setOwner s.owner u)) hsent

/-- WRITE's thirteen events (42 R111). -/
theorem events_write (f : Frame) (s : State) :
    events 13 (waitFor .write .send (loadTx f s)) = returnCall none (frameSent f s) :=
  events_sent f (waitFor .write .send s) fun w hw => by cases hw; rfl

/-- The host's read has been armed for `e`; its bytes taken, the transport holds `more`. -/
def readArmed (e : Byte) (more : List Byte) (s : State) : State := setRet none (setBuffered more (armRx e s))

/-- RX_ARM and at most twelve RX_BYTE operations: the bytes taken, and what the validator holds of them (R96, R97). -/
theorem execAll_armed (e : Byte) {x : List Byte} {s : State} (hl : lineBusy s = false) (hx : x.length ≤ 12) :
    ∃ buf : Frame, execAll (.rxArm e :: x.map .rxByte) s = .next { readArmed e ((s.link.buffered ++ x).drop x.length) s with
        rx := ⟨buf, x.length, checksum ((s.link.buffered ++ x).take x.length), e, .receiving⟩ } ∧
      buf.toList.take x.length = (s.link.buffered ++ x).take x.length := by
  obtain ⟨hti, -⟩ := lineBusy_false.1 hl
  have hlen : ((s.link.buffered ++ x).take x.length).length = x.length := by simp
  obtain ⟨buf, htaken, hbuf⟩ := events_bytes ((s.link.buffered ++ x).take x.length)
    ((s.link.buffered ++ x).drop x.length) (setOwner none (bufferBytes x (setRet none (armRx e s)))) hti rfl
    (List.take_append_drop _ _).symm (by simpa [hlen] using hx) nofun
  rw [hlen] at htaken hbuf
  refine ⟨buf, ?_, by simpa using hbuf⟩
  rw [execAll_cons (exec_rxArm_idle e hl), execAll_rxBytes x (setRet none (armRx e s)) hti rfl (by simpa using hx) rfl,
    htaken]
  simp [readArmed, setRet, setOwner, setBuffered, bufferBytes, armRx]

end Sys2Proof.Machine

open Sys2Proof Sys2Proof.Machine

/-- Settles O27: TX_BYTE operations and the events of WRITE's sending both come to `frameSent`. -/
theorem transmitEquivalence : Obligations.TransmitEquivalence := by
  intro c x s hl hx
  obtain ⟨f, hf⟩ : ∃ f, encodeFrame s.cfg.addr c x = some f := ⟨_, encodeFrame_fits s.cfg.addr c hx⟩
  refine ⟨f, _, hf, execAll_transmit hl hf, rfl, rfl, fun he => ?_⟩
  have hwrite : exec (.write f) s = .next (waitFor .write .send (loadTx f s)) :=
    (if_neg (by simp [hl])).trans (if_neg (by simp [he]))
  exact ⟨_, _, hwrite, events_write f s, rfl, rfl⟩
end

section
/-! ## A host's read ends as VALIDATE judges the bytes taken (41_frame_codec.md R97, R98, R100) -/

namespace Sys2Proof.Machine

theorem judgeAnswer_short {r : List Byte} (e : Byte) (h : r.length < 13) : judgeAnswer r e = .error .rxNoData := if_pos h

theorem judgeAnswer_full {r : List Byte} (e : Byte) (h : r.length = 13) : judgeAnswer r e = validateFrame (frameOf r) e :=
  if_neg (Nat.not_lt.2 h.ge)

/-- What a judgement leaves in RX_STATE is one of the done values (10 R19). -/
theorem judgedState_isDone (j : Except Cause Payload) : (judgedState j).isDone = true := by
  unfold judgedState
  split
  · rfl
  · split
    · rfl
    · split <;> rfl

theorem RxOnly.setRet {s t : State} (h : RxOnly s t) (v : Option Value) :
    RxOnly (Machine.setRet v s) (Machine.setRet v t) := congrArg (Machine.setRet v) h

/-- The views of an accepted frame (10 R19). -/
theorem rxViews_accept {s : State} (h : s.rx.state = .accept) : rxPayload s = some (framePayload s.rx.buf) ∧
    rxSeq s = some (framePayload s.rx.buf)[0] ∧ rxCmd s = some s.rx.buf[2] := by
  simp [rxPayload, rxSeq, rxCmd, h, framePayload_eq]

theorem rxViews_none {s : State} (h : rxOk s = false) : rxPayload s = none ∧ rxSeq s = none ∧ rxCmd s = none := by
  have hne : s.rx.state ≠ .accept := by simpa [rxOk] using h
  simp [rxPayload, rxSeq, rxCmd, hne]

/-- From `s`, with a read armed for `e`, the read has taken the bytes `r` and ended in `t` (R100). -/
structure ReadTook (e : Byte) (r : List Byte) (s t : State) : Prop where
  only : RxOnly s t
  state : t.rx.state = judgedState (judgeAnswer r e)
  cause : t.lastCause = judgedCause s.lastCause (judgeAnswer r e)
  full : r.length = 13 → t.rx = ⟨frameOf r, 13, checksum (r.take 12), e, t.rx.state⟩

/-- Fewer than thirteen RX_BYTE operations and RX_ABORT: silence (R98). -/
theorem execAll_read_short (e : Byte) {x : List Byte} {s : State} (hl : lineBusy s = false) (hx : x.length < 13) :
    ∃ t, execAll (.rxArm e :: (x.map .rxByte ++ [.rxAbort])) s = .next t ∧
      ReadTook e ((s.link.buffered ++ x).take x.length) (readArmed e ((s.link.buffered ++ x).drop x.length) s) t := by
  obtain ⟨buf, htaken, -⟩ := execAll_armed e hl (Nat.le_of_lt_succ hx)
  have hshort : ((s.link.buffered ++ x).take x.length).length < 13 := by simpa using hx
  refine ⟨_, (execAll_append htaken).trans (execAll_cons (exec_rxAbort rfl)), rfl, ?_, ?_, fun h => absurd h hshort.ne⟩ <;>
    rw [judgeAnswer_short e hshort] <;> rfl

/-- The thirteen bytes `r` stored, RXSUM the sum of the first twelve, and not yet judged (R97). -/
def readStored (e : Byte) (r more : List Byte) (s : State) : State :=
  { readArmed e more s with rx := ⟨frameOf r, 13, checksum (r.take 12), e, .receiving⟩ }

/-- The judgement of thirteen bytes is VALIDATE's (R100). -/
theorem judgeFrame_readTook (e : Byte) {r : List Byte} (more : List Byte) (s : State) (hr : r.length = 13) :
    ReadTook e r (readArmed e more s) (setRet none (judgeFrame (readStored e r more s))) := by
  obtain ⟨hstate, hcause, hrx⟩ := judgeFrame_spec (readStored e r more s) (by simp only [readStored, frameOf_bytes hr])
  have hstored : RxOnly (readArmed e more s) (readStored e r more s) := rfl
  rw [show (readStored e r more s).rx.buf = frameOf r from rfl, ← judgeAnswer_full _ hr] at hstate hcause
  exact ⟨(hstored.trans (judgeFrame_rxOnly _)).setRet none, hstate, hcause, fun _ => hrx⟩

/-- The byte `b` arrives behind the bytes `l`, of which `n` have been taken; `c` is the byte taken next. -/
theorem take_drop_succ {l rest : List Byte} {b c : Byte} {n : Nat} (hn : n ≤ l.length)
    (h : l.drop n ++ [b] = c :: rest) :
    (l ++ [b]).take (n + 1) = l.take n ++ [c] ∧ (l ++ [b]).drop (n + 1) = rest := by
  have hall : l ++ [b] = l.take n ++ [c] ++ rest := by
    rw [← List.append_cons, ← h, ← List.append_assoc, List.take_append_drop]
  have hlen : (l.take n ++ [c]).length = n + 1 := by simp [hn]
  exact ⟨by rw [hall, List.take_left' hlen], by rw [hall, List.drop_left' hlen]⟩

/-- Thirteen RX_BYTE operations: the judgement of the thirteen bytes taken (R97). -/
theorem execAll_read_full (e : Byte) {x : List Byte} {s : State} (hl : lineBusy s = false) (hx : x.length = 13) :
    ∃ t, execAll (.rxArm e :: x.map .rxByte) s = .next t ∧
      ReadTook e ((s.link.buffered ++ x).take x.length) (readArmed e ((s.link.buffered ++ x).drop x.length) s) t := by
  obtain ⟨y, b, rfl⟩ : ∃ y b, x = y ++ [b] :=
    ⟨x.dropLast, x.getLast (List.ne_nil_of_length_pos (by omega)), (List.dropLast_append_getLast _).symm⟩
  have hy : y.length = 12 := by simpa using hx
  obtain ⟨buf, htaken, hbuf⟩ := execAll_armed e hl hy.le
  rw [hy] at htaken hbuf
  obtain ⟨c, rest, hlast⟩ : ∃ c rest, (s.link.buffered ++ y).drop 12 ++ [b] = c :: rest :=
    List.exists_cons_of_ne_nil (by simp)
  obtain ⟨hr, hmore⟩ := take_drop_succ (by simp [hy]) hlast
  have ha : ((s.link.buffered ++ y).take 12).length = 12 := by simp [hy]
  refine ⟨_, ?_, judgeFrame_readTook e _ s (by simp [hy])⟩
  rw [hx, ← List.append_assoc, hr, hmore, List.map_append, ← List.cons_append, execAll_append htaken]
  refine execAll_cons (is := []) ((exec_rxByte_last rfl rfl hlast).trans ?_)
  rw [set_last buf _ c hbuf, readStored, List.take_left' ha]
  rfl

end Sys2Proof.Machine

open Sys2Proof Sys2Proof.Machine

/-- Settles O32: the read ends as `ReadTook` says, whether it is aborted short or its thirteenth byte is judged. -/
theorem receiveEquivalence : Obligations.ReceiveEquivalence := by
  intro e x r s hl hx hr
  obtain ⟨t, ht, hread⟩ : ∃ t,
      execAll (.rxArm e :: (x.map .rxByte ++ if x.length < 13 then [.rxAbort] else [])) s = .next t ∧
      ReadTook e r (readArmed e ((s.link.buffered ++ x).drop x.length) s) t := by
    rw [hr]
    split
    · exact execAll_read_short e hl ‹_›
    · rw [List.append_nil]
      exact execAll_read_full e hl (Nat.le_antisymm hx (Nat.not_lt.1 ‹_›))
  obtain ⟨honly, hstate, hcause, hfull⟩ := hread
  refine ⟨t, ht, fun h => ?short, fun h p hv => ?accept, fun h hv => ?cmd, fun h hv => ?csum, fun h => ?sum, fun h => ?views,
    ?done, hcause, ?link, ?frame⟩
  case short =>
    rw [judgeAnswer_short e h] at hstate
    exact ⟨hstate, by rw [rxEmpty, hstate]; rfl⟩
  case accept =>
    rw [judgeAnswer_full e h, hv] at hstate
    obtain ⟨hpayload, hseq, hcmd⟩ := rxViews_accept hstate
    rw [hfull h, ← validateFrame_payload hv] at hpayload hseq
    rw [hfull h, validateFrame_cmd hv] at hcmd
    exact ⟨hstate, by rw [rxOk, hstate]; rfl, hpayload, hseq, hcmd⟩
  case cmd =>
    rw [judgeAnswer_full e h, hv] at hstate
    exact ⟨hstate, by rw [rxErrCmd, hstate]; rfl⟩
  case csum =>
    rw [judgeAnswer_full e h, hv] at hstate
    exact ⟨hstate, by rw [rxErrCsum, hstate]; rfl⟩
  case sum =>
    have hverify := verifyChecksum_frame (frameOf r)
    rw [frameOf_bytes h] at hverify
    rw [hfull h, hverify, beq_eq_false_iff_ne]
    exact ne_comm
  case views => exact rxViews_none h
  case done => rw [rxDone, hstate]; exact judgedState_isDone _
  case link => rw [honly]; rfl
  case frame => rw [honly]; rfl
end

section
/-! ## An attempt on a busy line (42_exchange_engine.md R115, 60_exceptions.md R186; log entry 16) -/

namespace Sys2Proof.Machine

/-- The transport is flushed, and OP_BUSY raised by the strobe after it (R110, 41 R94). -/
def flushedBusy (s : State) : State :=
  { s with
    lastCause := .opBusy
    raised := s.raised ++ [.opBusy]
    link := { s.link with buffered := [], history := s.link.history ++ [.flush] } }

/-- The FLUSH and the TX_LOAD of an attempt on a busy line. -/
theorem events_flush_busy (c : Call) (f : Frame) {s : State} (h : lineBusy s = true) :
    events 2 (waitFor c (.flush f) s) = abandon c (waitFor c (.load f) (flushedBusy s)) := by
  have hload : environment (waitFor c (.load f) (flushLink s)) = loadStrobe c f (waitFor c (.load f) (flushLink s)) := rfl
  have hbusy : lineBusy (waitFor c (.load f) (flushLink s)) = true := h
  rw [events, environment_flush, events, hload, loadStrobe, if_pos hbusy]
  rfl

theorem abandon_exchange {c : Call} (hc : c.runsExchange = true) (s : State) :
    abandon c s = returnPayloads c [] (closeExchange s) := by
  rw [abandon, if_pos hc]

/-- The empty result of an EXCHANGE or an interpreter (R116, 44 R150). -/
def emptyReturn : Call → Value
  | .interp _ => .measurement emptyResult
  | _ => .payloads []

theorem returnPayloads_empty {c : Call} (hc : c.runsAttempt = true) (s : State) :
    returnPayloads c [] s = returnCall (some (emptyReturn c)) s := by
  cases c with
  | attempt | exchange | interp k => rfl
  | _ => cases hc

/-- The FLUSH and the TX_LOAD of an EXCHANGE's first attempt on a busy line (R116). -/
theorem events_startExchange_busy {c : Call} (hc : c.runsExchange = true) {q : ExReq} {s : State}
    (h : lineBusy s = true) (hn : 1 ≤ s.cfg.retryCount) (hq : q.extra.length ≤ 8) :
    events 2 (startExchange c q s) = { flushedBusy s with
      ret := some (emptyReturn c), owner := none, ex := { s.ex with state := .idle, attempt := 0, req := q } } := by
  have hbusy : lineBusy (setAttempt 1 (setAttempt 0 (latchRequest q s))) = true := h
  have hstart : startExchange c q s = sendRequest c (setAttempt 1 (setAttempt 0 (latchRequest q s))) := by
    rw [startExchange, if_neg (Nat.one_le_iff_ne_zero.1 hn), startAttempt, if_pos hc]
    rfl
  rw [hstart, sendRequest_fits hq, events_flush_busy _ _ hbusy, abandon_exchange hc,
    returnPayloads_empty (Call.runsAttempt_of_runsExchange hc)]
  simp only [returnCall, closeExchange, waitFor, setRet, setOwner, flushedBusy, setAttempt, latchRequest]

theorem exec_interpInstr (k : Interp) (s : State) : exec (interpInstr k) s = callInterp k s := by cases k <;> rfl

end Sys2Proof.Machine

open Sys2Proof Sys2Proof.Machine

/-- Settles O44: each call comes to its first flush, and the TX_LOAD after it raises OP_BUSY and abandons the call. -/
theorem busyLineEndsAttempt : Obligations.BusyLineEndsAttempt := by
  intro s hl
  have free {t : State} (he : engaged s = false) :
      (if engaged s then .fault .secondOwner else .next t : Host.Outcome State Fault Refusal) = .next t :=
    if_neg (by simp [he])
  refine ⟨fun he hx => ⟨_, free he, ?attempt⟩, fun he hn c x m d t' q hq hx => ⟨_, free he, ?exchange⟩,
    fun he hn k q hq => ⟨_, (exec_interpInstr k s).trans (free he), ?interp⟩, fun ho => ?arm⟩
  case attempt =>
    have hstart : startAttempt .attempt s = sendRequest .attempt s := rfl
    have habandon (t : State) : abandon .attempt t = returnCall (some (.payloads [])) t := rfl
    rw [hstart, sendRequest_fits hx, events_flush_busy _ _ hl, habandon]
    rfl
  case exchange =>
    have hlatched : requestOf s.cfg c x m d t' = q := hq.symm
    rw [hlatched, events_startExchange_busy rfl hl hn hx]
    rfl
  case interp =>
    have hlatched : interpRequest k s = q := hq.symm
    rw [hlatched, events_startExchange_busy rfl hl hn (by simp [hq])]
    rfl
  case arm =>
    have hstrobe : environment s = armStrobe .exchange s := by rw [environment, ho]
    rw [hstrobe, armStrobe, if_pos hl, abandon_exchange rfl, returnPayloads_empty rfl]
    rfl
end

section
/-! ## The next event, and the operation of its name (60_exceptions.md R190, 70_reset_and_hazards.md R221) -/

namespace Sys2Proof.Machine

/-- Every field operation runs FIELD with its own descriptor (30 R66, R67, 43 R139). -/
theorem exec_of_descriptor {i : Instr} {d : Byte} (h : encodeWord i = some ⟨.fdField, [d]⟩) (s : State) :
    exec i s = giveField (field d s) := by
  cases i with
  | u8 | u16 | u32 | i8 | i16 | i32 | bool | descReserved => cases h; rfl
  | _ => cases h

theorem exec_decodeDescriptor (d : Byte) (s : State) :
    exec (decodeDescriptor d) s = .next (setRet ((field d s).2.map .field) (field d s).1) := by
  obtain ⟨-, hword⟩ := decodeDescriptor_names d
  exact exec_of_descriptor hword s

/-! ### Where the owner stands after a strobe of REASSEMBLE (44 R156) -/

/-- `t` is `s` but for the owner and the returned value. -/
def OwnerOnly (s t : State) : Prop := ∃ o v, t = { s with owner := o, ret := v }

theorem nextFrame_ownerOnly (c : Call) (k : Series) (ps : List Payload) (item : Nat) (got : List (MKey × MVal)) (s : State) :
    OwnerOnly s (nextFrame c k ps item got s) := by
  induction ps with
  | nil => exact ⟨_, _, rfl⟩
  | cons p ps ih =>
    unfold nextFrame
    split
    · exact ih
    · exact ⟨_, _, rfl⟩

theorem nextItem_ownerOnly (c : Call) (k : Series) (n : Nat) (ps : List Payload) (item : Nat) (got : List (MKey × MVal))
    (s : State) : OwnerOnly s (nextItem c k n ps item got s) := by
  have hframe := nextFrame_ownerOnly c k ps item got s
  unfold nextItem
  split
  · exact hframe
  · split
    · exact hframe
    · split
      · exact hframe
      · exact ⟨_, _, rfl⟩

theorem itemStrobe_ownerOnly (c : Call) (k : Series) (n : Nat) (ps : List Payload) (item : Nat) (got : List (MKey × MVal))
    (s : State) : OwnerOnly (field (seriesDescriptor k) s).1 (itemStrobe c k n ps item got s) := by
  unfold itemStrobe
  split <;> rename_i h <;> rw [h]
  · exact ⟨_, _, rfl⟩
  · exact nextItem_ownerOnly c k n ps _ _ _

/-! ### A strobe of DECODE_FIELDS (43 R138) -/

theorem fieldStrobe_raises {c : Call} {d : Byte} {ds : List Byte} {got : List FieldValue} {s : State}
    (h : (field d s).2 = none) : fieldStrobe c d ds got s = returnCall none (field d s).1 := by
  unfold fieldStrobe
  split <;> rename_i hf <;> rw [hf] at h ⊢
  cases h

theorem fieldStrobe_reads {c : Call} {d : Byte} {ds : List Byte} {got : List FieldValue} {v : FieldValue} {s : State}
    (h : (field d s).2 = some v) : fieldStrobe c d ds got s = nextField c ds (got ++ [v]) (field d s).1 := by
  unfold fieldStrobe
  split <;> rename_i hf <;> rw [hf] at h ⊢ <;> cases h
  rfl

/-! ### The events of a read (41 R97, 42 R112) -/

theorem judgeFrame_link (l : Link) (s : State) : judgeFrame { s with link := l } = { judgeFrame s with link := l } := by
  simp only [judgeFrame]
  split
  · rfl
  · split <;> rfl

/-- The validator does not look at the link. -/
theorem takeByte_link (b : Byte) (l : Link) (s : State) : takeByte b { s with link := l } = { takeByte b s with link := l } := by
  by_cases h : (storeByte b s).rx.idx = frameLen
  · have hs : takeByte b s = judgeFrame (storeByte b s) := if_pos h
    rw [hs]
    exact (if_pos h).trans (judgeFrame_link l (storeByte b s))
  · have hs : takeByte b s = storeByte b s := if_neg h
    rw [hs]
    exact if_neg h

/-- The oracle's answer is what the transport then holds (42 R112). -/
theorem receiveNext_draw {s : State} (hb : s.link.buffered = []) (ha : s.link.answered = false) :
    receiveNext s = receiveNext (setBuffered (drawAnswer s).1 (drawAnswer s).2) := by
  have hanswered : (drawAnswer s).2.link.answered = true := by unfold drawAnswer; split <;> rfl
  have hheld : (drawAnswer s).2.link.buffered = [] := by unfold drawAnswer; split <;> exact hb
  have hdraw : receiveNext s = feed (drawAnswer s).1 (drawAnswer s).2 := by
    simp only [receiveNext, hb, ha, Bool.false_eq_true, if_false]
  generalize drawAnswer s = r at hanswered hheld hdraw ⊢
  obtain ⟨answer, t⟩ := r
  dsimp only at hanswered hheld hdraw ⊢
  rw [hdraw]
  cases answer with
  | nil =>
    have hsame : setBuffered [] t = t := by rw [← hheld]; rfl
    simp only [hsame, receiveNext, hheld, hanswered, if_true]
  | cons b rest => rfl

theorem environment_answered {s : State} (hw : ownerWaits s = true) (ht : s.tx.state = .idle)
    (hr : s.rx.state = .receiving) (hb : s.link.buffered = []) (ha : s.link.answered = false) :
    environment s = environment (setBuffered (drawAnswer s).1 (drawAnswer s).2) := by
  rw [environment_read hw ht hr, receiveNext_draw hb ha]
  obtain ⟨l, e⟩ := drawAnswer_link s
  rw [e]
  exact (environment_read (s := setBuffered (drawAnswer s).1 { s with link := l }) hw ht hr).symm

end Sys2Proof.Machine

open Sys2Proof Sys2Proof.Machine

/-- Settles O8: each strobe's event is the operation's step with the owner moved on, each event of the line the operation's step
that then settles. -/
theorem environmentTakesNextEvent : Obligations.EnvironmentTakesNextEvent := by
  refine ⟨fun s c => ?strobes, fun s hw ht => ?sends, fun s hw ht hr => ?reads, fun s hw hl => ?rests, fun s c => ?settles⟩
  case strobes =>
    refine ⟨fun f ho => ?flush, fun f x y hl ho hf => ?load, fun hl ho => ?arm, fun p d ds ho => ?bind,
      fun d ds got ho => ?decode, fun k p ps n got ho => ?bindItems, fun i k m ps n got ho hi => ?items⟩
    case flush => exact ⟨_, rfl, by rw [environment, ho]; rfl⟩
    case load =>
      refine ⟨_, exec_txLoad_fits hl hf, ?_⟩
      rw [environment, ho]
      exact if_neg (by simp [hl])
    case arm =>
      refine ⟨_, exec_rxArm_idle _ hl, ?_⟩
      rw [environment, ho]
      exact if_neg (by simp [hl])
    case bind => exact ⟨_, rfl, by rw [environment, ho]; rfl⟩
    case decode =>
      have hstrobe : environment s = fieldStrobe c d ds got s := by rw [environment, ho]
      refine ⟨_, exec_decodeDescriptor d s, fun hret => ?_, fun v x xs hret hds => ?_⟩
      · have hraise : (field d s).2 = none := by simpa using hret
        rw [hstrobe, fieldStrobe_raises hraise, hraise]
        rfl
      · have hread : (field d s).2 = some v := by simpa using hret
        rw [hstrobe, fieldStrobe_reads hread, hds]
        rfl
    case bindItems =>
      obtain ⟨o, v, h⟩ := nextItem_ownerOnly c k (seriesPerFrame k) ps n got (loadFd p 1 s)
      exact ⟨_, o, v, rfl, by rw [environment, ho]; exact h⟩
    case items =>
      have hexec : exec i s = giveField (field (seriesDescriptor k) s) := by
        rcases hi with ⟨rfl, rfl⟩ | ⟨rfl, rfl⟩ <;> rfl
      obtain ⟨o, v, h⟩ := itemStrobe_ownerOnly c k m ps n got s
      exact ⟨_, o, v, hexec, by rw [environment, ho]; exact h⟩
  case sends => exact ⟨_, exec_txByte ht, environment_send hw ht⟩
  case reads =>
    have hread := environment_read hw ht hr
    refine ⟨fun b rest hb => ?byte, fun hb ha => ?abort, fun r rest hb ha hq => ?listed, fun hb ha hq => ?free⟩
    case byte =>
      have htake (x : List Byte) : takeByte b (setBuffered x s) =
          { takeByte b s with link := { s.link with buffered := x } } := takeByte_link b _ s
      have hret : (takeByte b s).ret = s.ret := by rw [takeByte_rxOnly b s]
      have hnext : receiveNext s = takeByte b (setBuffered rest s) := by simp only [receiveNext, hb, feed]
      refine ⟨_, exec_rxByte (s := setBuffered [] s) hr rfl, hread.trans (congrArg settle ?_)⟩
      show _ = { takeByte b (setBuffered [] s) with
        ret := s.ret, link := { (takeByte b (setBuffered [] s)).link with buffered := rest } }
      rw [hnext, htake, htake, ← hret]
    case abort =>
      refine ⟨_, exec_rxAbort hr, hread.trans (congrArg settle ?_)⟩
      simp only [receiveNext, hb, ha, if_true]
      rfl
    case listed =>
      rw [environment_answered hw ht hr hb ha, drawAnswer, hq]
      rfl
    case free =>
      rw [environment_answered hw ht hr hb ha, drawAnswer, hq]
      rfl
  case rests =>
    have hwake := environment_rest hw hl
    exact ⟨hwake, fun ho => by rw [hwake, wake, ho]⟩
  case settles =>
    refine ⟨fun ho => ?none, fun p hp ho => ?strobe, fun ho => ?send, fun ho => ?collect, fun ho => ?sleep⟩
    case none => simp only [settle, wake, ho, and_self]
    case strobe =>
      cases p with
      | send | pace | collect | backoff => cases hp
      | _ => simp only [settle, wake, ho, and_self]
    case send =>
      refine ⟨by simp only [wake, ho], settle_sending fun w hw => ?_⟩
      cases ho.symm.trans hw
      rfl
    case collect =>
      refine ⟨by simp only [wake, ho], settle_reading fun w hw => ?_⟩
      cases ho.symm.trans hw
      rfl
    case sleep => rcases ho with ho | ho <;> simp only [settle, ho]
end

section
/-! ## The collaborator primitives (42_exchange_engine.md R110 to R113) -/

namespace Sys2Proof.Machine

/-- WRITE and a request frame word are the same blocking write (R111, 30 R61). -/
theorem exec_startWrite {i : Instr} {f : Frame}
    (h : i = .write f ∨ ∃ a c p k, i = .frameRequest a c p k ∧ f = frameOf (wireBytes 0xA5 a c 0x08 p k)) (s : State) :
    exec i s = startWrite f s := by
  rcases h with rfl | ⟨a, c, p, k, rfl, rfl⟩
  · rfl
  · have hframe : frameOf (wireBytes 0xA5 a c 0x08 p k) = wireFrame startByte a c lenByte p k := by
      rw [← wireFrame_toList, frameOf_toList]
    rw [hframe]
    rfl

/-- The oracle's next answer to a fresh read: the next listed one, else a free one (R112). -/
theorem drawAnswer_eq {s : State} {r : List Byte} {rest : List (List Byte)} {k : Nat} (hr : r.length ≤ 13)
    (h : s.link.oracle = r :: rest ∧ k = 0 ∨
      s.link.oracle = [] ∧ rest = [] ∧ r = (Config.linkAnswer s.link.draws).take 13 ∧ k = 1) :
    drawAnswer s = (r, { s with link := { s.link with answered := true, oracle := rest, draws := s.link.draws + k } }) := by
  rcases h with ⟨hq, rfl⟩ | ⟨hq, rfl, rfl, rfl⟩
  · have hwhole : r.take frameLen = r := List.take_of_length_le hr
    simp only [drawAnswer, hq, hwhole, Nat.add_zero]
  · simp only [drawAnswer, hq]

/-- A fresh read, with nothing held by the transport, that the oracle's next answer ends, listed or free (R100, R112). -/
theorem events_read_drawn {s : State} {r : List Byte} {rest : List (List Byte)} {k : Nat} (ht : s.tx.state = .idle)
    (h : s.rx.state = .receiving) (hi : s.rx.idx = 0) (hs : s.rx.sum = 0) (hb : s.link.buffered = [])
    (ha : s.link.answered = false) (hr : r.length ≤ 13) (ho : ∀ w, s.owner = some w → w.phase = .collect)
    (hq : s.link.oracle = r :: rest ∧ k = 0 ∨
      s.link.oracle = [] ∧ rest = [] ∧ r = (Config.linkAnswer s.link.draws).take 13 ∧ k = 1) :
    ∃ n t, events n s = settle t ∧ ReadEnd r { s with link := { s.link with
      buffered := r, answered := true, oracle := rest, draws := s.link.draws + k } } t := by
  obtain ⟨n, t, hend, hread⟩ := events_answer r { s with link := { s.link with
    buffered := r, answered := true, oracle := rest, draws := s.link.draws + k } } ht h hi hs rfl rfl hr ho
  refine ⟨n + 1, t, ?_, hread⟩
  rw [← hend, events, environment_answered (ownerWaits_of rfl ho) ht h hb ha, drawAnswer_eq hr hq]
  rfl

/-- COLLECT is left when the read is done. -/
theorem settle_collect {s : State} {c : Call} (ho : s.owner = some ⟨c, .collect⟩) (hd : rxDone s = true) :
    settle s = afterRead c s := by
  simp only [settle, ho, hd, if_true]

/-- No call waits for SLEEP, so its return changes nothing (log entry 17). -/
theorem wake_of_none_pending {s : State} (h : ∀ c, s.owner ≠ some ⟨c, .pace⟩ ∧ s.owner ≠ some ⟨c, .backoff⟩) :
    wake s = s := by
  unfold wake
  split
  · rfl
  · rename_i w hw
    obtain ⟨c, p⟩ := w
    obtain ⟨hpace, hbackoff⟩ := h c
    cases p with
    | pace => exact absurd hw hpace
    | backoff => exact absurd hw hbackoff
    | _ => rfl

end Sys2Proof.Machine

open Sys2Proof Sys2Proof.Machine

/-- Settles O36: FLUSH and the return of SLEEP are each one update of the link. -/
theorem flushAndSleepOnlyRecord : Obligations.FlushAndSleepOnlyRecord := by
  intro s
  refine ⟨rfl, fun d he => ⟨_, rfl, if_neg (by simp [he]), ?returns, fun hl => environment_rest rfl hl⟩, wake_of_none_pending⟩
  case returns =>
    obtain ⟨-, ho⟩ := engaged_false.1 he
    show returnCall none (record (.sleep d) _) = _
    simp only [returnCall, setRet, setOwner, record, ho]

/-- Settles O34: the first twelve events are `events_sending`, all thirteen `events_write`. -/
theorem writeSendsFrame : Obligations.WriteSendsFrame := by
  intro i f s hi
  rw [exec_startWrite hi]
  refine ⟨fun hl he => ⟨_, rfl, ?loads, fun k hk => ?sending, ?sent⟩, fun hl => if_pos hl⟩
  case loads => exact (if_neg (by simp [hl])).trans (if_neg (by simp [he]))
  case sending =>
    rw [events_sending k _ rfl (by simpa using hk) (fun w hw => by cases hw; rfl)]
    simp
  case sent => exact events_write f s

/-- Settles O37: the read's events are `events_read_drawn`, and its end lets the blocked READ return. -/
theorem readReturnsAnswer : Obligations.ReadReturnsAnswer := by
  refine ⟨fun d s hl he => (if_neg (by simp [hl])).trans (if_neg (by simp [he])), ?answered, fun d s hl => if_pos hl⟩
  case answered =>
    intro d r rest k s ho ht h hi hs hb ha hr hq
    obtain ⟨n, t, hend, hread⟩ := events_read_drawn ht h hi hs hb ha hr (fun w hw => by cases ho.symm.trans hw; rfl) hq
    obtain ⟨honly, hstate, hcause, hbytes, -, -, hhistory, hsent, hdraws, hbuffered, horacle⟩ := hread
    have howner : t.owner = some ⟨.read d, .collect⟩ := by rw [honly]; exact ho
    have hdone : rxDone t = true := by rw [rxDone, hstate]; exact judgedState_isDone _
    have hreturns : settle t = returnCall (some (.bytes (received t))) (endRead d t) := settle_collect howner hdone
    rw [hreturns, hbytes] at hend
    refine ⟨n, _, hend, rfl, rfl, ?_, hsent, hbuffered, horacle, hdraws, hstate, hcause, ?frame⟩
    · show t.link.history ++ [.read d (received t)] = _
      rw [hhistory, hbytes]
    case frame =>
      rw [honly]
      exact ⟨rfl, rfl, rfl, rfl, rfl, rfl⟩
end

section
/-! ## Whole calls of ATTEMPT, EXCHANGE and the interpreters (42_exchange_engine.md R115, R116, R120) -/

namespace Sys2Proof.Machine

theorem exec_attempt {s : State} (h : engaged s = false) : exec .attempt s = .next (startAttempt .attempt s) :=
  if_neg (by simp [h])

theorem exec_exchange {s : State} (h : engaged s = false) (c : Byte) (x : Option (List Byte)) (m : Option Nat)
    (d t : Option Duration) :
    exec (.exchange c x m d t) s = .next (startExchange .exchange (requestOf s.cfg c x m d t) s) :=
  if_neg (by simp [h])

/-- With RETRY_COUNT = 0 an EXCHANGE gives up at once (R116 corner a). -/
theorem startExchange_noAttempt {c : Call} (hc : c.runsExchange = true) {q : ExReq} {s : State} (hn : s.cfg.retryCount = 0) :
    startExchange c q s =
      returnCall (some (emptyReturn c)) (closeExchange (recordCause .exRetriesExhausted (latchRequest q s))) := by
  rw [startExchange, if_pos hn, returnPayloads_empty (Call.runsAttempt_of_runsExchange hc)]
  rfl

/-- An EXCHANGE with an attempt to make encodes the frame of the first (R116). -/
theorem startExchange_attempt {c : Call} (hc : c.runsExchange = true) {q : ExReq} {s : State} (hn : s.cfg.retryCount ≠ 0) :
    startExchange c q s = sendRequest c (setAttempt 1 (latchRequest q s)) := by
  rw [startExchange, if_neg hn, startAttempt, if_pos hc]
  rfl

/-- More than eight extra bytes end an EXCHANGE before its first strobe (60 R186). -/
theorem startExchange_badLen {c : Call} (hc : c.runsExchange = true) {q : ExReq} {s : State} (hn : s.cfg.retryCount ≠ 0)
    (hx : 8 < q.extra.length) : startExchange c q s =
      returnCall (some (emptyReturn c)) (closeExchange (recordCause (.txBadLen q.extra.length) (latchRequest q s))) := by
  rw [startExchange_attempt hc hn, sendRequest_badLen hx, abandon_exchange hc,
    returnPayloads_empty (Call.runsAttempt_of_runsExchange hc)]
  rfl

/-- The call `c`, latched in `s`, comes by its events from `start` to what the pseudocode comes to: EX_COLLECTED tells the
payloads, and the call has returned them, or what an interpreter makes of them, or is blocked in a read without an answer. -/
def ComesTo (c : Call) (s : State) (e : Episode) (start : State) : Prop :=
  ∃ n u, events n start = u ∧ u.ex.collected = e.got ∧
    (c.runsExchange = false → u.ex = { s.ex with collected := e.got }) ∧
    (e.ended = true → episodeReturned c s u s.ex.req e ∧
      (c = .attempt ∨ c = .exchange → u.ret = some (.payloads e.got) ∧ u.fd = s.fd ∧ u.dev = s.dev) ∧
      (∀ k, c = .interp k → u.ret = (interpResult k e.got s).2.map .measurement ∧
        u.fd = (interpResult k e.got s).1.fd ∧ u.dev = (interpResult k e.got s).1.dev)) ∧
    (e.ended = false → episodeBlocked c s u s.ex.req e)

/-- What the events lead to, after the strobes by which an interpreter decodes the payloads (44 R150). -/
theorem Leads.comesTo {c : Call} {s start u : State} {e : Episode} {n : Nat} (hn : events n start = u) (h : Leads c s e u)
    (hb : e.events = [] → s.link.buffered = []) : ComesTo c s e start := by
  obtain ⟨t, b, hgot, hkept, hend⟩ := h
  have hex (hc : c.runsExchange = false) : t.ex = { s.ex with collected := e.got } := by
    obtain ⟨hstate, hattempt⟩ := hkept hc
    show t.ex = ⟨s.ex.state, s.ex.attempt, e.got, s.ex.req⟩
    rw [← hstate, ← hattempt, ← b.req, ← hgot]
  by_cases he : e.ended = true
  · rw [if_pos he] at hend
    obtain ⟨rfl, hidle⟩ := hend
    obtain ⟨m, v, hm, hreturned, hvex, hpayloads, hresult⟩ := episodeReturned_of b hb hidle
    refine ⟨n + m, v, by rw [events_add, hn, hm], by rw [hvex, hgot], fun hc => by rw [hvex, hex hc],
      fun _ => ⟨hreturned, hpayloads, hresult⟩, fun h => absurd he (by simp [h])⟩
  · rw [if_neg he] at hend
    obtain ⟨rfl, hrunning⟩ := hend
    exact ⟨n, _, hn, hgot, hex, fun h => absurd h he, fun _ => episodeBlocked_of b hgot hb hrunning⟩

/-- What ATTEMPT or EXCHANGE comes to: its payloads returned, the field decoder and the Device State as they were, or the
blocked read. -/
theorem ComesTo.payloads {c : Call} {s start : State} {e : Episode} (h : ComesTo c s e start)
    (hc : c = .attempt ∨ c = .exchange) :
    ∃ n u, events n start = u ∧ (c.runsExchange = false → u.ex = { s.ex with collected := e.got }) ∧
      (e.ended = true → u.ret = some (.payloads e.got) ∧ u.fd = s.fd ∧ u.dev = s.dev ∧ episodeReturned c s u s.ex.req e) ∧
      (e.ended = false → episodeBlocked c s u s.ex.req e) := by
  obtain ⟨n, u, hu, -, hex, hreturned, hblocked⟩ := h
  refine ⟨n, u, hu, hex, fun he => ?_, hblocked⟩
  obtain ⟨hend, hpayloads, -⟩ := hreturned he
  obtain ⟨hret, hfd, hdev⟩ := hpayloads hc
  exact ⟨hret, hfd, hdev, hend⟩

/-- An EXCHANGE that sends comes to what its pseudocode comes to (R116). -/
theorem startExchange_comesTo {c : Call} (hc : c.runsExchange = true) {q : ExReq} {s : State} (hr : Ready s)
    (hx : q.extra.length ≤ 8) (hn : s.cfg.retryCount ≠ 0) :
    ComesTo c (setAttempt 0 (latchRequest q s))
      (exchangeSpec s.cfg.backoff q (requestFrame s.cfg q) s.cfg.retryCount s.link.oracle s.lastCause)
      (startExchange c q s) := by
  obtain ⟨-, -, n, u, hu, hleads⟩ := startExchange_leads hc q s hr hx hn
  refine hleads.comesTo hu fun h => absurd h ?_
  obtain ⟨k, hk⟩ := Nat.exists_eq_succ_of_ne_zero hn
  rw [hk]
  exact exchangeSpec_events _ _ _ _ _ _

/-! ### A call taken up in a fresh read -/

/-- The answers an attempt does not use are among those listed. -/
theorem collectSpec_rest_mem (q : ExReq) {o : List (List Byte)} {got : List Payload} {k : Cause} {r : List Byte}
    (h : r ∈ (collectSpec q o got k).rest) : r ∈ o := by
  induction o generalizing got k with
  | nil => simp [collectSpec] at h
  | cons a o ih =>
    unfold collectSpec at h
    split at h
    · split at h
      · exact List.mem_cons_of_mem a h
      · split at h <;> exact List.mem_cons_of_mem a (ih h)
    · exact h

/-- `s` before its read was armed: the validator at rest. -/
theorem arm_setRxState_idle {s : State} {c : Call} (ho : s.owner = some ⟨c, .collect⟩) (hret : s.ret = none)
    (hr : s.rx.state = .receiving) (hi : s.rx.idx = 0) (hs : s.rx.sum = 0) (he : s.rx.expect = s.ex.req.cmd)
    (ha : s.link.answered = false) : waitFor c .collect (armRx s.ex.req.cmd (setRxState .idle s)) = s := by
  rw [waitFor, ← ho, ← he, armRx]
  simp only [setRet, setOwner, setRxState, ← hret, ← hr, ← hi, ← hs, ← ha]

/-- The pseudocode's end says nothing of the validator's state before. -/
theorem Leads.of_setRxState {c : Call} {s u : State} {e : Episode} {x : RxState} (h : Leads c (setRxState x s) e u) :
    Leads c s e u := by
  obtain ⟨t, b, rest⟩ := h
  exact ⟨t, ⟨b.cfg, b.fd, b.dev, b.agenda, b.draws, b.history, b.sent, b.oracle, b.buffered, b.cause, b.req, b.line⟩, rest⟩

/-- A call that runs ATTEMPT outside an EXCHANGE is ATTEMPT itself. -/
theorem Call.eq_attempt {c : Call} (h : c.runsAttempt = true) (hx : c.runsExchange ≠ true) : c = .attempt := by
  cases c with
  | attempt => rfl
  | exchange | interp => exact absurd rfl hx
  | _ => cases h

/-- An ATTEMPT in a fresh read with room for a payload (R115 step 3). -/
theorem collect_leads {s : State} (ho : ∀ r ∈ s.link.oracle, r.length ≤ 13) (hl : lineBusy s = false)
    (hb : s.link.buffered = []) (hm : s.ex.collected.length < s.ex.req.maxResponses) :
    ∃ n u, events n (waitFor .attempt .collect (armRx s.ex.req.cmd s)) = u ∧
      Leads .attempt s (collectSpec s.ex.req s.link.oracle s.ex.collected s.lastCause) u := by
  obtain ⟨n, t, b, hex, hn⟩ := collects_armed .attempt s.link.oracle s rfl ho hl hb rfl hm
  refine ⟨n, _, hn, t, b, by rw [hex], fun _ => by rw [hex]; exact ⟨rfl, rfl⟩, ?_⟩
  split
  · refine ⟨?_, nofun⟩
    show returnPayloads .attempt t.ex.collected t = _
    rw [hex]
  · exact ⟨rfl, nofun⟩

/-- An EXCHANGE in a fresh read with room for a payload (R115 step 3, R116). -/
theorem resume_leads {c : Call} (hc : c.runsExchange = true) {s : State} (ho : ∀ r ∈ s.link.oracle, r.length ≤ 13)
    (hl : lineBusy s = false) (hb : s.link.buffered = []) (hx : s.ex.req.extra.length ≤ 8)
    (hm : s.ex.collected.length < s.ex.req.maxResponses) (hr : s.ex.state = .running)
    (ha : s.ex.attempt ≤ s.cfg.retryCount) :
    ∃ n u, events n (waitFor c .collect (armRx s.ex.req.cmd s)) = u ∧
      Leads c s (resumeSpec s.cfg.backoff s.ex.req (requestFrame s.cfg s.ex.req) (s.cfg.retryCount - s.ex.attempt)
        s.link.oracle s.ex.collected s.lastCause) u := by
  obtain ⟨n, t, b, hex, hn⟩ :=
    collects_armed c s.link.oracle s (Call.runsAttempt_of_runsExchange hc) ho hl hb rfl hm
  obtain ⟨m, u, hm', hleads⟩ := exchange_end hc (requestFrame s.cfg s.ex.req) (s.cfg.retryCount - s.ex.attempt) s t _ b
    (fun r h => ho r (collectSpec_rest_mem _ h)) (encodeFrame_request _ _ hx)
    (by rw [hex]; exact Nat.add_sub_cancel' ha) (by rw [hex]; exact hr) (by rw [hex])
  exact ⟨n + m, u, by rw [events_add, hn, hm'], hleads⟩

/-! ### The pseudocode on answers that are all rejected, or all silent -/

/-- Rejected answers leave ATTEMPT's loop where it is: in a read without an answer (R119). -/
theorem collectSpec_rejected {q : ExReq} (hq : 0 < q.maxResponses) {o : List (List Byte)}
    (h : ∀ r ∈ o, r.length = 13 ∧ ∃ x, validateFrame (frameOf r) q.cmd = .error x) (k : Cause) :
    ∃ k', collectSpec q o [] k = ⟨[], k', o.map (.read q.readTimeout), [], false, 0⟩ := by
  induction o generalizing k with
  | nil => exact ⟨k, by simp [collectSpec, Nat.ne_of_gt hq]⟩
  | cons r o ih =>
    obtain ⟨hr, x, hx⟩ := h r List.mem_cons_self
    obtain ⟨k', hk'⟩ := ih (fun r hr => h r (List.mem_cons_of_mem _ hr)) x
    refine ⟨k', ?_⟩
    simp [collectSpec, hq, hr, frameLen, hx, hk', Episode.after]

/-- The events of an attempt up to its first read (R115 steps 1 and 2). -/
def sendEvents (q : ExReq) (f : Frame) : List LinkEvent := [.flush, .write f, .sleep q.interCommandDelay]

/-- The events of an attempt whose first read is silent. -/
def silentEvents (q : ExReq) (f : Frame) : List LinkEvent := sendEvents q f ++ [.read q.readTimeout []]

/-- Rejected answers leave EXCHANGE in its first attempt (R119). -/
theorem exchangeSpec_rejected {b : Duration} {q : ExReq} {f : Frame} {n : Nat} (hq : 0 < q.maxResponses)
    {o : List (List Byte)} (h : ∀ r ∈ o, r.length = 13 ∧ ∃ x, validateFrame (frameOf r) q.cmd = .error x) (k : Cause) :
    ∃ k', exchangeSpec b q f (n + 1) o k =
      ⟨[], k', sendEvents q f ++ o.map (.read q.readTimeout), [], false, n⟩ := by
  obtain ⟨k', hk'⟩ := collectSpec_rejected hq h k
  exact ⟨k', by rw [exchangeSpec, attemptSpec, hk']; rfl⟩

/-- An attempt whose first answer is empty (R115). -/
theorem attemptSpec_silent {q : ExReq} (hq : 0 < q.maxResponses) (f : Frame) (o : List (List Byte)) (k : Cause) :
    attemptSpec q f ([] :: o) k = ⟨[], .rxNoData, silentEvents q f, o, true, 0⟩ := by
  simp [attemptSpec, collectSpec, hq, frameLen, Episode.after, silentEvents, sendEvents]

/-- Silence in every attempt uses up the retries, with a backoff between two attempts (R116). -/
theorem exchangeSpec_silent {q : ExReq} (hq : 0 < q.maxResponses) (b : Duration) (f : Frame) (n : Nat)
    (rest : List (List Byte)) (k : Cause) :
    exchangeSpec b q f (n + 1) (List.replicate (n + 1) [] ++ rest) k = ⟨[], .exRetriesExhausted,
      (List.replicate n (silentEvents q f ++ [.sleep b])).flatten ++ silentEvents q f, rest, true, 0⟩ := by
  induction n generalizing k with
  | zero =>
    rw [exchangeSpec, List.replicate_succ, List.cons_append, attemptSpec_silent hq]
    rfl
  | succ n ih =>
    have hattempt (o : List (List Byte)) : exchangeSpec b q f (n + 2) ([] :: o) k =
        (exchangeSpec b q f (n + 1) o .rxNoData).after (silentEvents q f ++ [.sleep b]) := by
      rw [exchangeSpec, attemptSpec_silent hq]
      rfl
    rw [List.replicate_succ, List.cons_append, hattempt, ih]
    simp [Episode.after, List.replicate_succ]

end Sys2Proof.Machine

open Sys2Proof Sys2Proof.Machine

/-- Settles O38: the events of `attempt_events`, which lead to what the pseudocode comes to. -/
theorem attemptFollowsPseudocode : Obligations.AttemptFollowsPseudocode := by
  intro s e hr hx he
  obtain ⟨hfree, hl, ho⟩ := hr
  obtain ⟨n, u, hu, hleads⟩ := attempt_events _ s hl ho (encodeFrame_request s.cfg s.ex.req hx)
  rw [← he] at hleads
  have hcomes := hleads.comesTo hu fun h => absurd (he ▸ h) (attemptSpec_events _ _ _ _)
  obtain ⟨m, v, hv, hex, hends⟩ := hcomes.payloads (Or.inl rfl)
  have hflush : startAttempt .attempt s = waitFor .attempt (.flush (requestFrame s.cfg s.ex.req)) s := sendRequest_fits hx
  refine ⟨_, m, v, exec_attempt hfree, by rw [hflush]; rfl, by rw [hflush]; rfl, hv, hex rfl, hends⟩

/-- Settles O39: without an attempt EXCHANGE returns at once; else by `startExchange_comesTo`. -/
theorem exchangeFollowsPseudocode : Obligations.ExchangeFollowsPseudocode := by
  intro s c x m d t' q e hr hq hx he
  obtain ⟨hfree, hl, -⟩ := id hr
  have hlatched : requestOf s.cfg c x m d t' = q := hq.symm
  have hexec := exec_exchange hfree c x m d t'
  rw [hlatched] at hexec
  by_cases hn : s.cfg.retryCount = 0
  · have hstart := startExchange_noAttempt (c := .exchange) rfl (q := q) hn
    obtain rfl : e = ⟨[], .exRetriesExhausted, [], s.link.oracle, true, 0⟩ := by rw [he, hn]; rfl
    refine ⟨_, 0, _, hexec, rfl, by rw [if_pos hn, hstart]; rfl, fun _ => ?_, nofun⟩
    have hline (v : Option Value) (r : Raise) :
        lineBusy (returnCall v (closeExchange (recordCause r (latchRequest q s)))) = false := hl
    rw [events, hstart]
    simp [episodeReturned, episodeLink, writtenBytes, Raise.cause, hline, emptyReturn]
  · obtain ⟨howner, -, -⟩ := startExchange_leads (c := .exchange) rfl q s hr hx hn
    obtain ⟨n, u, hu, -, hends⟩ := (startExchange_comesTo (c := .exchange) rfl hr hx hn).payloads (Or.inr rfl)
    rw [← he] at hends
    exact ⟨_, n, u, hexec, hu, by rw [if_neg hn, howner], hends⟩

/-- Settles O46: the blocked state is one whose read has just been armed, from which COLLECT and the retries go on. -/
theorem blockedCallGoesOn : Obligations.BlockedCallGoesOn := by
  intro s c e hc ho hret ht hr hi hs hexp hb ha hlen hx hm hrun he
  have harmed := arm_setRxState_idle ho hret hr hi hs hexp ha
  have hidle : lineBusy (setRxState .idle s) = false := lineBusy_false.2 ⟨ht, nofun⟩
  have hleads : ∃ n u, events n s = u ∧ Leads c s e u := by
    by_cases hcx : c.runsExchange = true
    · obtain ⟨hstate, hattempt⟩ := hrun hcx
      obtain ⟨n, u, hu, hleads⟩ := resume_leads (s := setRxState .idle s) hcx hlen hidle hb hx hm hstate hattempt
      rw [if_pos hcx] at he
      exact ⟨n, u, (congrArg (events n) harmed).symm.trans hu, he ▸ hleads.of_setRxState⟩
    · obtain rfl := Call.eq_attempt hc hcx
      obtain ⟨n, u, hu, hleads⟩ := collect_leads (s := setRxState .idle s) hlen hidle hb hm
      rw [if_neg hcx] at he
      exact ⟨n, u, (congrArg (events n) harmed).symm.trans hu, he ▸ hleads.of_setRxState⟩
  obtain ⟨n, u, hu, hleads⟩ := hleads
  obtain ⟨m, v, hv, hgot, -, hend⟩ := hleads.comesTo hu fun _ => hb
  exact ⟨m, v, hv, hgot, hend⟩

/-- Settles O41: on rejected answers the pseudocode stays in its first attempt, so O39 leaves EXCHANGE blocked there. -/
theorem rejectedAnswersNeverEndAttempt : Obligations.RejectedAnswersNeverEndAttempt := by
  intro s c hr hn ho
  obtain ⟨n, hcount⟩ : ∃ n, s.cfg.retryCount = n + 1 := ⟨s.cfg.retryCount - 1, by omega⟩
  obtain ⟨k, hspec⟩ := exchangeSpec_rejected (b := s.cfg.backoff) (q := requestOf s.cfg c none none none none)
    (f := requestFrame s.cfg (requestOf s.cfg c none none none none)) (n := n) Nat.zero_lt_one ho s.lastCause
  rw [← hcount] at hspec
  obtain ⟨t, m, u, hexec, hm, -, -, hblocked⟩ :=
    exchangeFollowsPseudocode s c none none none none _ _ hr rfl (Nat.zero_le 8) hspec.symm
  obtain ⟨hlink, howner, hret, hrx, hidx, -, -, -, -, -, hgot, hfd, hdev, hrunning⟩ := hblocked rfl
  obtain ⟨hhistory, -, horacle, -, -, -, hcfg, hagenda⟩ := hlink
  obtain ⟨hstate, hleft⟩ := hrunning rfl
  have hattempt : u.ex.attempt = 1 := Nat.add_right_cancel (hleft.trans (hcount.trans (Nat.add_comm n 1)))
  refine ⟨t, m, u, hexec, hm, howner, hrx, hidx, hstate, hattempt, hgot, hret, horacle, ?_, hcfg, hfd, hdev, hagenda⟩
  rw [hhistory, List.append_assoc]
  rfl

/-- Settles O42: on silent answers the pseudocode uses up the retries, and O39 says that EXCHANGE returns it. -/
theorem silentExchangeReturnsEmpty : Obligations.SilentExchangeReturnsEmpty := by
  intro s c n rest hr hcount ho
  have hspec := exchangeSpec_silent (q := requestOf s.cfg c none none none none) Nat.zero_lt_one s.cfg.backoff
    (requestFrame s.cfg (requestOf s.cfg c none none none none)) n rest s.lastCause
  rw [← ho, ← hcount] at hspec
  obtain ⟨t, m, u, hexec, hm, -, hreturned, -⟩ :=
    exchangeFollowsPseudocode s c none none none none _ _ hr rfl (Nat.zero_le 8) hspec.symm
  obtain ⟨hret, hfd, hdev, hlink, howner, -, -, hidle⟩ := hreturned rfl
  obtain ⟨hhistory, -, horacle, -, -, hcause, hcfg, hagenda⟩ := hlink
  obtain ⟨hstate, hattempt⟩ := hidle rfl
  refine ⟨t, m, u, hexec, hm, hret, hcause, hstate, hattempt, horacle, ?_, howner, hcfg, hfd, hdev, hagenda⟩
  rw [hhistory, List.append_assoc]
  rfl

/-- Settles O43: each call gives up, or is abandoned, before its first strobe. -/
theorem exchangeThatSendsNothing : Obligations.ExchangeThatSendsNothing := by
  refine ⟨fun s c x m d t' he h => ⟨_, exec_exchange he c (some x) m d t', ?exchange⟩, fun s he hx => ?attempt⟩
  case exchange =>
    by_cases hn : s.cfg.retryCount = 0
    · rw [startExchange_noAttempt rfl hn]
      simp [emptyReturn, hn, Raise.cause]
    · have hx : 8 < x.length := h.resolve_left hn
      rw [startExchange_badLen rfl hn hx]
      simp [emptyReturn, hn, Raise.cause]
  case attempt =>
    have hstart : startAttempt .attempt s = sendRequest .attempt s := rfl
    rw [exec_attempt he, hstart, sendRequest_badLen hx]
    rfl
end

section
/-! ## The rows of the sequencer's table (42_exchange_engine.md R120) -/

namespace Sys2Proof.Machine

/-! ### ENDATT -/

/-- What an exchange returns to its call writes the owner and the returned value only. -/
theorem returnPayloads_ownerOnly (c : Call) (ps : List Payload) (s : State) : OwnerOnly s (returnPayloads c ps s) := by
  cases c with
  | interp k =>
    cases ps with
    | nil => exact ⟨_, _, rfl⟩
    | cons p ps =>
      show OwnerOnly s (interpret k (p :: ps) s)
      simp only [interpret]
      split
      · exact nextFrame_ownerOnly _ _ _ _ _ s
      · exact ⟨_, _, rfl⟩
  | _ => exact ⟨_, _, rfl⟩

/-- An interpreter that decodes one payload is at the FD_LOAD of the first (44 R150). -/
theorem returnPayloads_single {k : Interp} (h : interpSeries k = none) (p : Payload) (rest : List Payload) (s : State) :
    returnPayloads (.interp k) (p :: rest) s = waitFor (.interp k) (.bind p (interpSchema k)) s := by
  show interpret k (p :: rest) s = _
  simp only [interpret, h]

theorem endAttempt_returns {c : Call} (hc : c.runsExchange = true) {t : State} (h : t.ex.collected ≠ []) :
    endAttempt c t = returnPayloads c t.ex.collected (closeExchange t) := (if_pos hc).trans (if_pos h)

theorem endAttempt_backsOff {c : Call} (hc : c.runsExchange = true) {t : State} (h : t.ex.collected = [])
    (ha : t.ex.attempt < t.cfg.retryCount) : endAttempt c t = waitFor c .backoff t :=
  (if_pos hc).trans ((if_neg (not_not.2 h)).trans (if_pos ha))

theorem endAttempt_givesUp {c : Call} (hc : c.runsExchange = true) {t : State} (h : t.ex.collected = [])
    (ha : ¬ t.ex.attempt < t.cfg.retryCount) :
    endAttempt c t = returnCall (some (emptyReturn c)) (closeExchange (recordCause .exRetriesExhausted t)) := by
  rw [endAttempt, if_pos hc, if_neg (not_not.2 h), if_neg ha,
    returnPayloads_empty (Call.runsAttempt_of_runsExchange hc)]
  rfl

/-- ENDATT (R120) for an EXCHANGE: it returns the payloads, backs off or gives up, and leaves history and collection. -/
theorem endAttempt_ends {c : Call} (hc : c.runsExchange = true) {s t : State} (hcfg : t.cfg = s.cfg)
    (hcause : t.lastCause = s.lastCause) (hstate : t.ex.state = s.ex.state) (hattempt : t.ex.attempt = s.ex.attempt) :
    attemptEnds c t.link.history t.ex.collected s (endAttempt c t) ∧ (endAttempt c t).ex.collected = t.ex.collected := by
  by_cases hps : t.ex.collected = []
  · by_cases ha : t.ex.attempt < t.cfg.retryCount
    · have hlt : s.ex.attempt < s.cfg.retryCount := by rwa [hattempt, hcfg] at ha
      rw [endAttempt_backsOff hc hps ha]
      exact ⟨⟨rfl, fun h => absurd hps h, fun _ _ => ⟨rfl, rfl, hstate, hattempt, hcause⟩,
        fun _ h => absurd h (Nat.ne_of_lt hlt)⟩, rfl⟩
    · have hnot : ¬ s.ex.attempt < s.cfg.retryCount := by rwa [hattempt, hcfg] at ha
      rw [endAttempt_givesUp hc hps ha]
      exact ⟨⟨rfl, fun h => absurd hps h, fun _ h => absurd h hnot, fun _ _ => ⟨rfl, rfl, rfl, rfl,
        fun hx => by rw [hx]; rfl, fun k hk => by rw [hk]; rfl⟩⟩, rfl⟩
  · obtain ⟨o, v, honly⟩ := returnPayloads_ownerOnly c t.ex.collected (closeExchange t)
    rw [endAttempt_returns hc hps]
    refine ⟨⟨?_, fun _ => ⟨?_, ?_, ?_, ?exchange, ?interp⟩, fun h => absurd h hps, fun h => absurd h hps⟩, ?_⟩
    case exchange => rintro rfl; exact ⟨rfl, rfl⟩
    case interp =>
      rintro k p rest rfl hk hp
      rw [hp, returnPayloads_single hk]
      exact ⟨rfl, rfl⟩
    all_goals simp [honly, hcause]

/-! ### The events that end a wait -/

theorem ownerWaits_at {s : State} {c : Call} {p : Phase} (ho : s.owner = some ⟨c, p⟩) (hp : p.waits = true) :
    ownerWaits s = true := by
  rw [ownerWaits, ho]
  exact hp

/-- The last TX_BYTE of an attempt's frame records the write, and the owner paces (R115 step 2). -/
theorem environment_lastByte {s : State} {c : Call} (hc : c.runsAttempt = true) (ho : s.owner = some ⟨c, .send⟩)
    (ht : s.tx.state = .sending) (hi : s.tx.idx = 12) : environment s = waitFor c .pace (sendByte s) := by
  have hsent : txBusy (sendByte s) = false := by simp [txBusy, sendByte, hi]
  have howner : (sendByte s).owner = some ⟨c, .send⟩ := ho
  rw [environment_send (ownerWaits_at ho rfl) ht]
  simp only [settle, howner, hsent, afterSend, hc, if_true]
  rfl

/-- The return of SLEEP in PACE clears the collection (R115 step 3). -/
theorem environment_paced {s : State} {c : Call} (hc : c.runsAttempt = true) (ho : s.owner = some ⟨c, .pace⟩)
    (hl : lineBusy s = false) :
    environment s = nextRead c (setCollected [] (record (.sleep s.ex.req.interCommandDelay) s)) := by
  rw [environment_rest (ownerWaits_at ho rfl) hl, wake, ho]
  exact afterPace_attempt hc s

/-- RX_ARM of an attempt on an idle line (R115 step 3). -/
theorem environment_armed {s : State} {c : Call} (ho : s.owner = some ⟨c, .arm⟩) (hl : lineBusy s = false) :
    environment s = waitFor c .collect (armRx s.ex.req.cmd s) := by
  rw [environment, ho]
  exact if_neg (by simp [hl])

/-- TX_LOAD of an attempt on an idle line (R115 step 1). -/
theorem environment_loaded {s : State} {c : Call} {f : Frame} (ho : s.owner = some ⟨c, .load f⟩)
    (hl : lineBusy s = false) : environment s = waitFor c .send (loadTx f s) := by
  rw [environment, ho]
  exact if_neg (by simp [hl])

/-- The return of SLEEP in BACKOFF counts the next attempt, whose FLUSH comes next (R116). -/
theorem environment_backedOff {s : State} {c : Call} (hc : c.runsExchange = true) (ho : s.owner = some ⟨c, .backoff⟩)
    (hl : lineBusy s = false) (hx : s.ex.req.extra.length ≤ 8) :
    environment s = waitFor c (.flush (requestFrame s.cfg s.ex.req))
      (setAttempt (s.ex.attempt + 1) (record (.sleep s.cfg.backoff) s)) := by
  rw [environment_rest (ownerWaits_at ho rfl) hl, wake, ho]
  show startAttempt c (record (.sleep s.cfg.backoff) s) = _
  rw [startAttempt, if_pos hc]
  exact sendRequest_fits hx

theorem nextRead_arms {c : Call} {s : State} (h : s.ex.collected.length < s.ex.req.maxResponses) :
    nextRead c s = waitFor c .arm s := if_pos h

theorem nextRead_ends {c : Call} {s : State} (h : ¬ s.ex.collected.length < s.ex.req.maxResponses) :
    nextRead c s = endAttempt c s := if_neg h

/-- The end of an attempt's read is its judgement (R115 step 3). -/
theorem settle_judges {s : State} {c : Call} (hc : c.runsAttempt = true) (ho : s.owner = some ⟨c, .collect⟩)
    (hd : rxDone s = true) : settle s = judgeRead c s :=
  (settle_collect ho hd).trans (afterRead_attempt hc s)

end Sys2Proof.Machine

open Sys2Proof Sys2Proof.Machine

/-- Settles O40: each row is one lemma on the event that leaves it, and where the attempt ends `endAttempt_ends`. -/
theorem sequencerFollowsTable : Obligations.SequencerFollowsTable := by
  refine ⟨fun s i x m d t' q he hq hx => ?idle, fun s c hc => ?rows⟩
  case idle =>
    obtain ⟨-, ho⟩ := engaged_false.1 he
    have hlatched : requestOf s.cfg i x m d t' = q := hq.symm
    rw [exec_exchange he, hlatched]
    split
    · rename_i hn
      rw [startExchange_noAttempt rfl hn, ho]
      rfl
    · rename_i hn
      rw [startExchange_attempt rfl hn, sendRequest_fits hx]
      rfl
  case rows =>
    have hca := Call.runsAttempt_of_runsExchange hc
    refine ⟨fun f ho => ?flush, fun f ho hl => environment_loaded ho hl, fun ho ht hi => ?send, fun ho hl h hh => ?pace,
      fun ho hl => environment_armed ho hl, fun ho h hh => ?collect, fun ho hl hx => environment_backedOff hc ho hl hx⟩
    case flush => rw [environment, ho]; rfl
    case send =>
      rw [environment_lastByte hca ho ht hi]
      refine ⟨_, rfl, rfl, ?_, rfl, ?_⟩ <;> simp [sendByte, hi]
    case pace =>
      obtain ⟨hends, hcollected⟩ := endAttempt_ends hc (s := s)
        (t := setCollected [] (record (.sleep s.ex.req.interCommandDelay) s)) rfl rfl rfl rfl
      subst hh
      rw [environment_paced hca ho hl]
      by_cases hm : 0 < s.ex.req.maxResponses
      · exact ⟨_, nextRead_arms hm, rfl, fun _ => rfl, fun h0 => absurd h0 (Nat.ne_of_gt hm)⟩
      · exact ⟨_, nextRead_ends hm, hcollected, fun h0 => absurd h0 hm, fun _ => hends⟩
    case collect =>
      subst hh
      have hjudge (hd : s.rx.state.isDone = true) := settle_judges hca ho hd
      refine ⟨fun hrx => ?silence, fun hm hrx => ?reject, fun hrx p hp => ?accept⟩
      case silence =>
        obtain ⟨hends, -⟩ := endAttempt_ends hc (s := s) (t := endRead s.ex.req.readTimeout s) rfl rfl rfl rfl
        rw [hjudge (by rw [hrx]; rfl), judgeRead, hrx]
        exact hends
      case reject =>
        have hnext : settle s = nextRead c (endRead s.ex.req.readTimeout s) := by
          rcases hrx with hrx | hrx <;> rw [hjudge (by rw [hrx]; rfl), judgeRead, hrx]
        exact hnext.trans (nextRead_arms hm)
      case accept =>
        obtain rfl : framePayload s.rx.buf = p := by rw [rxPayload, if_pos hrx] at hp; exact Option.some.inj hp
        rw [hjudge (by rw [hrx]; rfl), judgeRead, hrx]
        refine ⟨fun hm => ?more, fun hm => ?last⟩
        case more => exact nextRead_arms (by simpa [endRead] using hm)
        case last =>
          obtain ⟨hends, -⟩ := endAttempt_ends hc (s := s)
            (t := setCollected (s.ex.collected ++ [framePayload s.rx.buf]) (endRead s.ex.req.readTimeout s)) rfl rfl rfl rfl
          dsimp only
          rw [nextRead_ends (by simp [hm, endRead])]
          exact hends
end

section
/-! ## The field decoder (43_field_decoder.md) -/

namespace Sys2Proof.Machine

/-! ### FD_LOAD (R130) -/

theorem exec_fdLoad_loads {src : PayloadSrc} {p : Payload} {n : Nat} {s : State} (hp : payloadOperand s src = some p)
    (hn : n ≤ 8) : exec (.fdLoad src n) s = .next (setRet none (loadFd p n s)) := by
  show done (fdLoadOp (payloadOperand s src) n s).1 = _
  rw [hp, fdLoadOp, if_neg (Nat.not_lt.2 hn)]
  rfl

theorem exec_fdLoad_range {src : PayloadSrc} {p : Payload} {n : Nat} {s : State} (hp : payloadOperand s src = some p)
    (hn : 8 < n) : exec (.fdLoad src n) s = .next (setRet none (takeCause (.fdLoadRange n) s)) := by
  show done (fdLoadOp (payloadOperand s src) n s).1 = _
  rw [hp, fdLoadOp, if_pos hn]
  rfl

theorem exec_fdLoad_noValue {src : PayloadSrc} (n : Nat) {s : State} (hp : payloadOperand s src = none) :
    exec (.fdLoad src n) s = .next (setRet none (takeCause .fdNotLoaded s)) := by
  show done (fdLoadOp (payloadOperand s src) n s).1 = _
  rw [hp]
  rfl

/-! ### The field operations (R131 to R137, R139) -/

theorem exec_field_reads {i : Instr} {d : Byte} {ty : Nat × Bool × Bool} {v : FieldValue} {s : State}
    (hi : encodeWord i = some ⟨.fdField, [d]⟩) (hty : fieldType d = some ty) (h : s.fd.state = .loaded)
    (hr : s.fd.cur + ty.1 ≤ 8) (hv : typedValue s.fd.buf s.fd.cur ty = v) :
    exec i s = .next (setRet (some (.field v)) (retireField d v ty.1 s)) := by
  rw [exec_of_descriptor hi, field_typed hty h hr, hv]
  rfl

theorem exec_field_range {i : Instr} {d : Byte} {ty : Nat × Bool × Bool} {s : State}
    (hi : encodeWord i = some ⟨.fdField, [d]⟩) (hty : fieldType d = some ty) (h : s.fd.state = .loaded)
    (hr : 8 < s.fd.cur + ty.1) : exec i s = .next (setRet none (takeCause (.fdFieldRange s.fd.cur ty.1) s)) := by
  rw [exec_of_descriptor hi, field_range hty h hr]
  rfl

theorem exec_field_notLoaded {i : Instr} {d : Byte} {s : State} (hi : encodeWord i = some ⟨.fdField, [d]⟩)
    (h : s.fd.state ≠ .loaded) : exec i s = .next (setRet none (takeCause .fdNotLoaded s)) := by
  rw [exec_of_descriptor hi, field_notLoaded d h]
  rfl

theorem exec_descReserved {d : Byte} {s : State} (hty : fieldType d = none) (h : s.fd.state = .loaded) :
    exec (.descReserved d) s = .next (setRet none (takeCause (.fdBadDesc d) s)) := by
  rw [exec_of_descriptor rfl, field_badDesc hty h]
  rfl

/-- R67's list holds the codes without a type. -/
theorem fieldType_eq_none_iff : ∀ d : Byte, fieldType d = none ↔ listedReserved d = true := by decide

/-- The widths of the field operations (30 R66). -/
theorem fieldOperation_width : ∀ x ∈ [(Instr.u8, 1), (.u16, 2), (.u32, 4), (.i8, 1), (.i16, 2), (.i32, 4), (.bool, 1)],
    ∃ d ty, encodeWord x.1 = some ⟨.fdField, [d]⟩ ∧ fieldType d = some ty ∧ ty.1 = x.2 := by
  intro x hx
  fin_cases hx <;> exact ⟨_, _, rfl, rfl, rfl⟩

/-! ### The big-endian number of a field's bytes (20 R43) -/

theorem bigEndianAt_one (p : Payload) (a : Nat) : bigEndianAt p a 1 = byteNum p a := by simp [bigEndianAt]

theorem bigEndianAt_two (p : Payload) (a : Nat) : bigEndianAt p a 2 = 256 * byteNum p a + byteNum p (a + 1) := by
  simp [bigEndianAt]

theorem bigEndianAt_four (p : Payload) (a : Nat) : bigEndianAt p a 4 =
    2 ^ 24 * byteNum p a + 2 ^ 16 * byteNum p (a + 1) + 2 ^ 8 * byteNum p (a + 2) + byteNum p (a + 3) := by
  simp only [bigEndianAt, Nat.add_zero]
  ring

/-- Four bytes are two halves (43 R141). -/
theorem bigEndianAt_halves (p : Payload) (a : Nat) :
    bigEndianAt p a 4 = 65536 * bigEndianAt p a 2 + bigEndianAt p (a + 2) 2 := by
  simp only [bigEndianAt_two, bigEndianAt_four, Nat.add_assoc]
  ring

theorem bigEndianAt_congr {p q : Payload} {a w : Nat} (h : ∀ k, k < w → byteNum p (a + k) = byteNum q (a + k)) :
    bigEndianAt p a w = bigEndianAt q a w := by
  induction w with
  | zero => rfl
  | succ w ih => rw [bigEndianAt, bigEndianAt, ih fun k hk => h k (Nat.lt_succ_of_lt hk), h w (Nat.lt_succ_self w)]

theorem bigEndianAt_bounds (p : Payload) (a w : Nat) : 0 ≤ bigEndianAt p a w ∧ bigEndianAt p a w < 2 ^ (8 * w) := by
  induction w with
  | zero => simp [bigEndianAt]
  | succ w ih =>
    have hbyte : byteNum p (a + w) < 256 := Int.ofNat_lt.2 (p.toList.getD (a + w) 0).isLt
    have hnonneg : 0 ≤ byteNum p (a + w) := Int.natCast_nonneg _
    have hpow : (2 : Int) ^ (8 * (w + 1)) = 256 * 2 ^ (8 * w) := by rw [Nat.mul_succ, pow_add]; ring
    rw [bigEndianAt, hpow]
    omega

theorem signedNum_emod {n : Nat} {x : Int} (h0 : 0 ≤ x) (h : x < 2 ^ n) : signedNum n x % 2 ^ n = x := by
  unfold signedNum
  split
  · exact Int.emod_eq_of_lt h0 h
  · rw [Int.sub_emod_right, Int.emod_eq_of_lt h0 h]

/-! ### What FIELD and a schema return (R138, R139, R141) -/

/-- The width of a legal descriptor's type is its field W (30 R66). -/
theorem fieldType_width {d : Byte} {ty : Nat × Bool × Bool} (h : fieldType d = some ty) : ty.1 = 1 <<< (d.toNat % 4) := by
  have ft := fieldType_spec d
  rw [h] at ft
  obtain ⟨-, hw, -⟩ := ft
  rw [← hw, descWidth, descW, BitVec.extractLsb'_toNat, Nat.shiftRight_zero]

/-- A value depends on the bytes of its field only. -/
theorem typedValue_congr {p q : Payload} {a : Nat} {d : Byte} {ty : Nat × Bool × Bool} (hty : fieldType d = some ty)
    (h : ∀ k, k < ty.1 → byteNum p (a + k) = byteNum q (a + k)) : typedValue p a ty = typedValue q a ty := by
  have hpos : 0 < ty.1 := by rw [fieldType_width hty, Nat.one_shiftLeft]; exact Nat.two_pow_pos _
  unfold typedValue
  split
  · rw [show byteNum p a = byteNum q a from h 0 hpos]
  · rw [bigEndianAt_congr h]
  · rw [bigEndianAt_congr h]

/-- FIELD's value in FD_LOADED: that of the descriptor's type, where it has one and there is room. -/
theorem field_value (d : Byte) {s : State} (h : s.fd.state = .loaded) : (field d s).2 =
    (fieldType d).bind fun ty => if 8 < s.fd.cur + ty.1 then none else some (typedValue s.fd.buf s.fd.cur ty) := by
  cases hty : fieldType d with
  | none => rw [field_badDesc hty h]; rfl
  | some ty =>
    rw [Option.bind_some]
    split
    · rename_i hr
      rw [field_range hty h hr]
    · rename_i hr
      rw [field_typed hty h (Nat.not_lt.1 hr)]

theorem field_returns {d : Byte} {v : FieldValue} {s : State} (h : (field d s).2 = some v) :
    ∃ ty, fieldType d = some ty ∧ v = typedValue s.fd.buf s.fd.cur ty := by
  have hl : s.fd.state = .loaded := by
    by_contra hn
    rw [field_notLoaded d hn] at h
    cases h
  rw [field_value d hl, Option.bind_eq_some_iff] at h
  obtain ⟨ty, hty, hv⟩ := h
  split at hv <;> cases hv
  exact ⟨ty, hty, rfl⟩

/-- A schema that does not fit, from the cursor on: the raise of its first part that cannot be read, with FCUR where that part
begins. -/
theorem fields_raise (ds : List Byte) (s : State) (h : s.fd.state = .loaded)
    (hs : schemaSpec s.fd.buf ds s.fd.cur = none) :
    ∃ r a val kind, schemaRaise s.fd.buf ds s.fd.cur = some (r, a) ∧
      fields ds s = ({ s with fd := ⟨a, s.fd.buf, .faulted, val, kind⟩, lastCause := r.cause, raised := s.raised ++ [r] },
        none) := by
  induction ds generalizing s with
  | nil => cases hs
  | cons d ds ih =>
    unfold schemaSpec at hs
    unfold schemaRaise fields
    cases hty : fieldType d with
    | none => exact ⟨_, _, _, _, rfl, by rw [field_badDesc hty h]; rfl⟩
    | some ty =>
      simp only [hty] at hs
      dsimp only
      split
      · rename_i hr
        exact ⟨_, _, _, _, rfl, by rw [field_range hty h hr]; rfl⟩
      · rename_i hr
        rw [if_neg hr, Option.map_eq_none_iff] at hs
        rw [field_typed hty h (Nat.not_lt.1 hr)]
        obtain ⟨r, a, val, kind, hraise, hfields⟩ := ih (retireField d (typedValue s.fd.buf s.fd.cur ty) ty.1 s) h hs
        exact ⟨r, a, val, kind, hraise, by dsimp only; rw [hfields]; rfl⟩

/-- The tuple a schema returns in FD_LOADED depends on FDBUF and FCUR only. -/
theorem fields_value (ds : List Byte) {s : State} (h : s.fd.state = .loaded) :
    (fields ds s).2 = (schemaSpec s.fd.buf ds s.fd.cur).map Prod.fst := by
  cases hs : schemaSpec s.fd.buf ds s.fd.cur with
  | none =>
    obtain ⟨r, a, val, kind, -, hf⟩ := fields_raise ds s h hs
    rw [hf]
    rfl
  | some x =>
    obtain ⟨vs, a⟩ := x
    obtain ⟨val, kind, hf⟩ := fields_spec ds s vs a h hs
    rw [hf]
    rfl

/-- A schema's fields end at the sum of their widths. -/
theorem schemaSpec_offset {p : Payload} {ds : List Byte} {a b : Nat} {vs : List FieldValue}
    (h : schemaSpec p ds a = some (vs, b)) : b = a + (ds.map fun d => 1 <<< (d.toNat % 4)).sum := by
  induction ds generalizing a vs with
  | nil => cases h; rfl
  | cons d ds ih =>
    unfold schemaSpec at h
    cases hty : fieldType d with
    | none => simp [hty] at h
    | some ty =>
      simp only [hty] at h
      split at h
      · cases h
      · obtain ⟨⟨ws, c⟩, hrest, hx⟩ := Option.map_eq_some_iff.1 h
        cases hx
        rw [ih hrest, fieldType_width hty, List.map_cons, List.sum_cons, Nat.add_assoc]

/-! ### DECODE_FIELDS (R138) -/

theorem exec_decodeFields {s : State} (h : engaged s = false) (src : PayloadSrc) (schema : List Byte) :
    exec (.decodeFields src schema) s = .next (bindSchema .decodeFields (payloadOperand s src) schema s) :=
  if_neg (by simp [h])

/-- DECODE_FIELDS of a schema that does not fit. -/
theorem decodeFieldsOp_raise (p : Payload) (ds : List Byte) (s : State) (h : schemaSpec p ds 0 = none) :
    ∃ r a val kind, schemaRaise p ds 0 = some (r, a) ∧
      decodeFieldsOp (some p) ds s =
        ({ s with fd := ⟨a, p, .faulted, val, kind⟩, lastCause := r.cause, raised := s.raised ++ [r] }, none) := by
  obtain ⟨r, a, val, kind, hraise, hfields⟩ := fields_raise ds (loadFd p 0 s) rfl h
  exact ⟨r, a, val, kind, hraise, by simpa [decodeFieldsOp, fdLoadOp, payloadLen] using hfields⟩

theorem setOwner_none_eq_self {s : State} (h : s.owner = none) : setOwner none s = s := by rw [setOwner, ← h]

end Sys2Proof.Machine

open Sys2Proof Sys2Proof.Machine

/-- Settles O52: the strobes come to `decodeFieldsOp`, which reads the schema's values or takes the first raise. -/
theorem decodeFieldsReturnsTuple : Obligations.DecodeFieldsReturnsTuple := by
  intro src schema s he
  obtain ⟨-, howner⟩ := engaged_false.1 he
  have hexec := exec_decodeFields he src schema
  refine ⟨fun p vs a hp hs => ?tuple, fun p hp hs => ?raise, fun hp => ?noValue⟩
  case tuple =>
    rw [hp] at hexec
    obtain ⟨n, hn⟩ := bindSchema_events .decodeFields (some p) schema s
    obtain ⟨val, kind, hop⟩ := decodeFieldsOp_spec p schema s vs a hs
    rw [hop] at hn
    exact ⟨_, n, _, hexec, hn, rfl, rfl, rfl, rfl, setOwner_none_eq_self howner⟩
  case raise =>
    rw [hp] at hexec
    obtain ⟨n, hn⟩ := bindSchema_events .decodeFields (some p) schema s
    obtain ⟨r, a, val, kind, hraise, hop⟩ := decodeFieldsOp_raise p schema s hs
    rw [hop] at hn
    exact ⟨_, n, _, r, a, hraise, hexec, hn, rfl, rfl, rfl, rfl, rfl, rfl, rfl, setOwner_none_eq_self howner⟩
  case noValue =>
    rw [hexec, hp]
    show Host.Outcome.next (setRet none (takeCause .fdNotLoaded (setOwner none s))) = _
    rw [setOwner_none_eq_self howner]
    rfl

/-- Settles O53: (a) and (c) by what a schema returns, (b) and (e) by what one field does; (d) computes the two schemas. -/
theorem fieldDecoderLaws : Obligations.FieldDecoderLaws := by
  refine ⟨fun p n ds vs s _ hvs => ?cursor, fun d s t hs ht hcur hbytes => ?bytes, fun p n ds s t => ?again,
    fun p a s ha => ?halves, fun d w s v hw hv => ?raw⟩
  case cursor =>
    rw [fields_value ds rfl] at hvs
    obtain ⟨⟨ws, b⟩, hspec, -⟩ := Option.map_eq_some_iff.1 hvs
    obtain ⟨val, kind, hfields⟩ := fields_spec ds (loadFd p n s) ws b rfl hspec
    rw [hfields]
    exact schemaSpec_offset hspec
  case bytes =>
    rw [field_value d hs, field_value d ht, ← hcur]
    refine Option.bind_congr fun ty hty => ?_
    rw [typedValue_congr hty (by rwa [fieldType_width hty])]
  case again => rw [fields_value ds rfl, fields_value ds rfl]; rfl
  case halves =>
    refine ⟨bigEndianAt p a 2, bigEndianAt p (a + 2) 2, ?_, ?_⟩ <;> rw [fields_value _ rfl]
    · have h1 : ¬ 8 < a + 2 := by omega
      have h2 : ¬ 8 < a + 2 + 2 := by omega
      simp [schemaSpec, fieldType, typedValue, payloadLen, h1, h2]
    · have h1 : ¬ 8 < a + 4 := by omega
      simp [schemaSpec, fieldType, typedValue, payloadLen, h1, bigEndianAt_halves]
  case raw =>
    obtain ⟨ty, hty, rfl⟩ := field_returns hv
    obtain rfl : w = ty.1 := hw.trans (fieldType_width hty).symm
    obtain ⟨h0, hlt⟩ := bigEndianAt_bounds s.fd.buf s.fd.cur ty.1
    have ft := fieldType_spec d
    rw [hty] at ft
    obtain ⟨-, -, -, -, hbool, -⟩ := ft
    rcases ty with ⟨w, _ | _, _ | _⟩
    case false.false => exact Int.emod_eq_of_lt h0 hlt
    case true.false => exact signedNum_emod h0 hlt
    case false.true =>
      obtain ⟨rfl, -⟩ := hbool rfl
      rw [bigEndianAt_one]
      exact bne_iff_ne
    case true.true => cases (hbool rfl).2

/-- Settles O48: each operation returns its type's value at the cursor, a big-endian number of one, two or four bytes. -/
theorem unsignedFieldValues : Obligations.UnsignedFieldValues := by
  rintro s a v h rfl
  refine ⟨fun hr hv => exec_field_reads (d := 0x00) (ty := (1, false, false)) (v := .num v) rfl rfl h hr ?u8,
    fun hr hv => exec_field_reads (d := 0x01) (ty := (2, false, false)) (v := .num v) rfl rfl h hr ?u16,
    fun hr hv => exec_field_reads (d := 0x02) (ty := (4, false, false)) (v := .num v) rfl rfl h hr ?u32⟩
  case u8 => rw [hv, typedValue, bigEndianAt_one]
  case u16 => rw [hv, typedValue, bigEndianAt_two]
  case u32 => rw [hv, typedValue, bigEndianAt_four]

/-- Settles O49: as O48, with the two's-complement reading of the number. -/
theorem signedFieldValues : Obligations.SignedFieldValues := by
  rintro s a v h rfl
  refine ⟨fun hr hv => exec_field_reads (d := 0x04) (ty := (1, true, false)) (v := .num v) rfl rfl h hr ?i8,
    fun hr hv => exec_field_reads (d := 0x05) (ty := (2, true, false)) (v := .num v) rfl rfl h hr ?i16,
    fun hr hv => exec_field_reads (d := 0x06) (ty := (4, true, false)) (v := .num v) rfl rfl h hr ?i32⟩
  case i8 => rw [hv, typedValue, bigEndianAt_one]
  case i16 => rw [hv, typedValue, bigEndianAt_two]
  case i32 => rw [hv, typedValue, bigEndianAt_four]

/-- Settles O50: the value of BOOL's type is whether the byte differs from zero. -/
theorem boolFieldValue : Obligations.BoolFieldValue := by
  intro s b h hr hb
  refine exec_field_reads (d := 0x08) (ty := (1, false, true)) (v := .truth b) rfl rfl h hr ?_
  rw [typedValue, FieldValue.truth.injEq, Bool.eq_iff_iff, bne_iff_ne, hb]

/-- Settles O51: every operation runs FIELD with its descriptor, which raises before it writes anything else. -/
theorem fieldFaultsTaken : Obligations.FieldFaultsTaken := by
  refine fun s => ⟨fun x hx => ?operation, fun d hd => ⟨exec_field_notLoaded rfl, ?reserved⟩⟩
  case operation =>
    obtain ⟨d, ty, hi, hty, hw⟩ := fieldOperation_width x hx
    rw [← hw]
    exact ⟨exec_field_notLoaded hi, exec_field_range hi hty⟩
  case reserved => exact exec_descReserved ((fieldType_eq_none_iff d).2 hd)

/-- Settles O47: each operand form holds its payload or none, and FD_LOAD looks at the operand before the start. -/
theorem fdLoadBindsPayload : Obligations.FdLoadBindsPayload := by
  refine fun s n => ⟨fun p => exec_fdLoad_loads rfl, fun h => ?view, fun i p => exec_fdLoad_loads (src := .collected i),
    fun h => ?noView, fun i h => exec_fdLoad_noValue n (List.getElem?_eq_none h), fun src p => exec_fdLoad_range⟩
  case view =>
    obtain ⟨hview, -, -⟩ := rxViews_accept h
    rw [framePayload_eq] at hview
    exact exec_fdLoad_loads hview
  case noView => exact exec_fdLoad_noValue n (if_neg h)
end

section
/-! ## The calls of the interpreters (44_interpreters.md) -/

namespace Sys2Proof.Machine

theorem exec_interp {s : State} (h : engaged s = false) (k : Interp) :
    exec (interpInstr k) s = .next (startExchange (.interp k) (interpRequest k s) s) :=
  (exec_interpInstr k s).trans (if_neg (by simp [h]))

/-- What the exchange of the interpreter `k` comes to on the answers listed (R150, 42 R116). -/
def interpEpisode (k : Interp) (s : State) : Episode :=
  exchangeSpec s.cfg.backoff (interpRequest k s) (requestFrame s.cfg (interpRequest k s)) s.cfg.retryCount s.link.oracle
    s.lastCause

theorem interpEpisode_noAttempt {k : Interp} {s : State} (hn : s.cfg.retryCount = 0) :
    interpEpisode k s = ⟨[], .exRetriesExhausted, [], s.link.oracle, true, 0⟩ := by rw [interpEpisode, hn]; rfl

/-- An interpreter whose exchange has ended returns what it makes of the payloads (R150). -/
theorem startExchange_returns (k : Interp) {s : State} (hr : Ready s) (he : (interpEpisode k s).ended = true) :
    ∃ n u, events n (startExchange (.interp k) (interpRequest k s) s) = u ∧
      episodeReturned (.interp k) s u (interpRequest k s) (interpEpisode k s) ∧
      u.ret = (interpResult k (interpEpisode k s).got s).2.map .measurement ∧
      u.fd = (interpResult k (interpEpisode k s).got s).1.fd ∧ u.dev = (interpResult k (interpEpisode k s).got s).1.dev := by
  by_cases hn : s.cfg.retryCount = 0
  · obtain ⟨-, hl, -⟩ := hr
    have hline (v : Option Value) (r : Raise) :
        lineBusy (returnCall v (closeExchange (recordCause r (latchRequest (interpRequest k s) s)))) = false := hl
    refine ⟨0, _, rfl, ?_⟩
    rw [events, startExchange_noAttempt rfl hn, interpEpisode_noAttempt hn]
    simp [episodeReturned, episodeLink, writtenBytes, Raise.cause, hline, emptyReturn, interpResult]
  · obtain ⟨n, u, hu, -, -, hreturned, -⟩ :=
      startExchange_comesTo (c := .interp k) (q := interpRequest k s) rfl hr (Nat.zero_le 8) hn
    obtain ⟨hend, -, hresult⟩ := hreturned he
    obtain ⟨hret, hfd, hdev⟩ := hresult k rfl
    obtain ⟨f, d, m, hlatched, hstart⟩ := interpResult_local k (interpEpisode k s).got
      (s := setAttempt 0 (latchRequest (interpRequest k s) s)) (t := s) rfl rfl rfl
    rw [interpEpisode] at hlatched
    rw [hlatched] at hret hfd hdev
    rw [hstart]
    exact ⟨n, u, hu, hend, hret, hfd, hdev⟩

/-! ### A first payload (R151 to R155) -/

/-- An interpreter whose exchange ends with a first payload, of which its schema reads the values `vs`. -/
theorem interpReturns_of {k : Interp} {s : State} {e : Episode} {p : Payload} {vs : List FieldValue} {cur : Nat}
    {m : Measurement} {d : DeviceState} (h : firstReply k s e p) (hk : interpSeries k = none)
    (hvs : schemaSpec p (interpSchema k) 0 = some (vs, cur))
    (hm : ∀ f, interpValues k vs { s with fd := f } = ({ s with fd := f, dev := d }, some m)) :
    interpReturns k s e p m d cur := by
  obtain ⟨hr, ⟨q, rfl, he⟩, hended, rest, hgot⟩ := h
  obtain rfl : e = interpEpisode k s := he
  have hn : s.cfg.retryCount ≠ 0 := fun h => by simp [interpEpisode_noAttempt h] at hgot
  obtain ⟨hfree, -, -⟩ := id hr
  obtain ⟨n, u, hu, hend, hret, hfd, hdev⟩ := startExchange_returns k hr hended
  obtain ⟨val, kind, hop⟩ := decodeFieldsOp_spec p (interpSchema k) s vs cur hvs
  have hresult : interpResult k (p :: rest) s = ({ s with fd := ⟨cur, p, .loaded, val, kind⟩, dev := d }, some m) := by
    simp only [interpResult, hk, hop, hm]
  have hstart : startExchange (.interp k) (interpRequest k s) s =
      waitFor (.interp k) (.flush (requestFrame s.cfg (interpRequest k s)))
        (setAttempt 1 (latchRequest (interpRequest k s) s)) :=
    (startExchange_attempt rfl hn).trans (sendRequest_fits (Nat.zero_le 8))
  rw [hgot, hresult] at hret hfd hdev
  exact ⟨_, n, u, exec_interp hfree k, by rw [hstart]; rfl, hu, hret, hdev, by rw [hfd], by rw [hfd], by rw [hfd], hend⟩

/-! ### No payload (R150, R162) -/

/-- An exchange that ends with no payload has used up its attempts (42 R116). -/
theorem exchangeSpec_empty {b : Duration} {q : ExReq} {f : Frame} {n : Nat} {o : List (List Byte)} {k : Cause}
    (he : (exchangeSpec b q f n o k).ended = true) (hg : (exchangeSpec b q f n o k).got = []) :
    (exchangeSpec b q f n o k).cause = .exRetriesExhausted := by
  induction n generalizing o k with
  | zero => rfl
  | succ n ih =>
    rw [exchangeSpec] at he hg ⊢
    generalize attemptSpec q f o k = a at he hg ⊢
    by_cases ha : a.ended = false
    · simp [retrySpec, ha] at he
    · by_cases hgot : a.got = []
      · by_cases hn : n = 0
        · simp [retrySpec, ha, hgot, hn]
        · have hnext : retrySpec b n (exchangeSpec b q f n) a =
              (exchangeSpec b q f n a.rest a.cause).after (a.events ++ [.sleep b]) := by simp [retrySpec, ha, hgot, hn]
          rw [hnext] at he hg ⊢
          exact ih he hg
      · simp [retrySpec, ha, hgot] at hg

/-- An attempt that asks for no payload reads nothing (42 R115). -/
theorem attemptSpec_unread {q : ExReq} (hq : q.maxResponses = 0) (f : Frame) (o : List (List Byte)) (k : Cause) :
    attemptSpec q f o k = ⟨[], k, sendEvents q f, o, true, 0⟩ := by
  cases o <;> simp [attemptSpec, collectSpec, hq, Episode.after, sendEvents]

/-- An exchange that asks for no payload sends its frame with every attempt and reads nothing (R162, 42 R116). -/
theorem exchangeSpec_unread {q : ExReq} (hq : q.maxResponses = 0) (b : Duration) (f : Frame) (n : Nat)
    (o : List (List Byte)) (k : Cause) :
    ∃ es, exchangeSpec b q f n o k = ⟨[], .exRetriesExhausted, es, o, true, 0⟩ ∧ (∀ d r, .read d r ∉ es) ∧
      writtenBytes es = (List.replicate n f.toList).flatten := by
  induction n generalizing k with
  | zero => exact ⟨[], rfl, by simp, rfl⟩
  | succ n ih =>
    rw [exchangeSpec, attemptSpec_unread hq]
    by_cases hn : n = 0
    · subst hn
      exact ⟨sendEvents q f, rfl, by simp [sendEvents], by simp [sendEvents, writtenBytes]⟩
    · obtain ⟨es, hspec, hread, hwritten⟩ := ih k
      refine ⟨sendEvents q f ++ [.sleep b] ++ es, by simp [retrySpec, hn, hspec, Episode.after], ?_, ?_⟩
      · simp [sendEvents, hread]
      · simp [sendEvents, writtenBytes, hwritten, List.replicate_succ]

/-! ### All payloads (R156 to R158) -/

/-- A per-item interpreter numbers the items of all its payloads; it writes the field decoder's registers only. -/
theorem interpResult_series {k : Interp} {r : Series} (hk : interpSeries k = some r) (ps : List Payload) (s : State) :
    ∃ f, interpResult k ps s = ({ s with fd := f }, some (.map (reassembleSpec r (seriesCount s.dev r) ps))) := by
  cases ps with
  | nil => exact ⟨s.fd, by simp [interpResult, emptyResult, reassembleSpec, numbered]⟩
  | cons p ps =>
    obtain ⟨f, hloop⟩ := reassembleLoop_spec r (seriesCount s.dev r) (p :: ps) 1 s
    exact ⟨f, by simp only [interpResult, hk, reassembleOp, hloop]; rfl⟩

/-- A per-item interpreter whose exchange has ended returns the reassembly of its payloads. -/
theorem startExchange_reassembles {k : Interp} {r : Series} (hk : interpSeries k = some r) {s : State} (hr : Ready s)
    (he : (interpEpisode k s).ended = true) :
    ∃ t n u, exec (interpInstr k) s = .next t ∧ events n t = u ∧
      u.ret = some (.measurement (.map (reassembleSpec r (seriesCount s.dev r) (interpEpisode k s).got))) ∧ u.dev = s.dev ∧
      episodeReturned (.interp k) s u (interpRequest k s) (interpEpisode k s) := by
  obtain ⟨hfree, -, -⟩ := id hr
  obtain ⟨n, u, hu, hend, hret, -, hdev⟩ := startExchange_returns k hr he
  obtain ⟨f, hresult⟩ := interpResult_series hk (interpEpisode k s).got s
  rw [hresult] at hret hdev
  exact ⟨_, n, u, exec_interp hfree k, hu, hret, hdev, hend⟩

end Sys2Proof.Machine

open Sys2Proof Sys2Proof.Machine

/-- Settles O54: each schema's values are the numbers of the payload's bytes. -/
theorem singleFrameResults : Obligations.SingleFrameResults := by
  refine fun s e p => ⟨fun h => interpReturns_of h rfl rfl fun f => ?soc,
    fun h => interpReturns_of h rfl rfl fun f => ?voltages,
    fun h => interpReturns_of h rfl rfl fun f => ?temperatures, fun h => interpReturns_of h rfl rfl fun f => ?mosfet⟩
  case soc => simp [interpValues, socResult, typedValue, bigEndianAt_two, FieldValue.toInt]
  case voltages =>
    simp [interpValues, cellVoltageRangeResult, typedValue, bigEndianAt_one, bigEndianAt_two, FieldValue.toInt]
  case temperatures => simp [interpValues, temperatureRangeResult, typedValue, bigEndianAt_one, FieldValue.toInt]
  case mosfet => simp [interpValues, mosfetStatusResult, typedValue, bigEndianAt_one, bigEndianAt_four, FieldValue.toInt,
    FieldValue.toBool]

/-- Settles O55: the four values are bytes, and the first two are stored as they are. -/
theorem statusResultSetsCounts : Obligations.StatusResultSetsCounts := by
  refine fun s e p h => interpReturns_of h rfl rfl fun f => ?_
  simp [interpValues, statusResult, statusCounts, typedValue, bigEndianAt_one, FieldValue.toInt, byteNum_eq, setCounts]

/-- Settles O56: `ceilDiv` is the count of the request, and the call returns what `reassembleLoop` comes to. -/
theorem multiFrameResults : Obligations.MultiFrameResults := by
  refine fun s e q hr => ⟨?voltages, ?temperatures⟩
  case voltages =>
    rintro rfl rfl he
    exact startExchange_reassembles (k := .cellVoltages) rfl hr he
  case temperatures =>
    rintro rfl rfl he
    exact startExchange_reassembles (k := .temperatures) rfl hr he

/-- Settles O57: the strobes come to `reassembleLoop`, which writes the field decoder's registers only. -/
theorem reassembleNumbersInOrder : Obligations.ReassembleNumbersInOrder := by
  intro s ps k he
  obtain ⟨-, howner⟩ := engaged_false.1 he
  have hexec : exec (.reassemble ps k) s = .next (nextFrame .reassemble k ps 1 [] s) := if_neg (by simp [he])
  obtain ⟨n, hn⟩ := nextFrame_events .reassemble k ps 1 [] s
  obtain ⟨f, hloop⟩ := reassembleLoop_spec k (seriesCount s.dev k) ps 1 s
  rw [hloop] at hn
  exact ⟨_, n, _, hexec, hn, by cases k <;> rfl, setOwner_none_eq_self howner⟩

/-- Settles O59: with no payload an interpreter's result changes nothing. -/
theorem emptyExchangeIsEmptyResult : Obligations.EmptyExchangeIsEmptyResult := by
  intro k s q e hr hq he hended hgot
  obtain rfl : q = interpRequest k s := hq
  obtain rfl : e = interpEpisode k s := he
  obtain ⟨hfree, -, -⟩ := id hr
  obtain ⟨n, u, hu, hend, hret, hfd, hdev⟩ := startExchange_returns k hr hended
  obtain ⟨⟨-, -, -, -, -, hcause, -, -⟩, -⟩ := id hend
  rw [hgot] at hret hfd hdev
  exact ⟨_, n, u, exec_interp hfree k, hu, hret, hdev, hfd, hcause.trans (exchangeSpec_empty hended hgot), hend⟩

/-- Settles O60: the exchange asks for no payload, so it reads nothing and O59 returns the empty result. -/
theorem zeroCountsSendAndReturnEmpty : Obligations.ZeroCountsSendAndReturnEmpty := by
  intro i c s hr hi
  obtain ⟨k, rfl, rfl, hcount⟩ : ∃ k, i = interpInstr k ∧ c = interpCommand s.cfg k ∧ interpResponses s.dev k = 0 := by
    rcases hi with ⟨rfl, rfl, hzero⟩ | ⟨rfl, rfl, hzero⟩
    · exact ⟨.cellVoltages, rfl, rfl, by simp [interpResponses, hzero, ceilDiv, voltPerFrame]⟩
    · exact ⟨.temperatures, rfl, rfl, by simp [interpResponses, hzero, ceilDiv, tempPerFrame]⟩
  obtain ⟨es, hspec, hread, hwritten⟩ := exchangeSpec_unread (q := interpRequest k s) hcount s.cfg.backoff
    (requestFrame s.cfg (interpRequest k s)) s.cfg.retryCount s.link.oracle s.lastCause
  obtain ⟨t, n, u, hexec, hu, hret, hdev, hfd, hcause, hend⟩ :=
    emptyExchangeIsEmptyResult k s _ _ hr rfl hspec.symm rfl rfl
  obtain ⟨⟨hhistory, hsent, horacle, -, -, -, hcfg, hagenda⟩, howner, -⟩ := hend
  rw [hwritten] at hsent
  exact ⟨t, n, u, hexec, hu, hret, howner, hcause, horacle, hdev, hfd, hcfg, hagenda, ⟨es, hhistory, hread⟩, hsent⟩
end

section
/-! ## The bitmaps of the balancing flags and the fault codes (44_interpreters.md R159, R160) -/

namespace Sys2Proof.Machine

/-- A schema of `u8` fields reads the payload's bytes in order (43 R131, 44 R164). -/
theorem schemaSpec_bytes (p : Payload) {n a : Nat} (h : a + n ≤ 8) : schemaSpec p (List.replicate n 0x00) a =
    some (((p.toList.drop a).take n).map fun b => .num b.toNat, a + n) := by
  induction n generalizing a with
  | zero => simp [schemaSpec]
  | succ n ih =>
    have ha : a < 8 := by omega
    have hlength : a < p.toList.length := by rwa [Vector.length_toList]
    have hroom : ¬ 8 < a + 1 := by omega
    rw [List.replicate_succ, schemaSpec, List.drop_eq_getElem_cons hlength, List.take_succ_cons, List.map_cons]
    simp only [fieldType, if_true, payloadLen, if_neg hroom, typedValue, bigEndianAt_one]
    rw [ih (by omega)]
    simp [byteNum_eq p a ha, Nat.add_assoc, Nat.add_comm 1]

/-- Bit `i` of a big-endian number is bit `i % 8` of the byte that `i / 8` bytes follow (R159). -/
theorem testBit_balanceBitmap (bs : List Byte) {i : Nat} (h : i < 8 * bs.length) :
    (balanceBitmap (bs.map BitVec.toNat)).testBit i = (bs.getD (bs.length - 1 - i / 8) 0).getLsbD (i % 8) := by
  induction bs using List.reverseRecOn generalizing i with
  | nil => simp at h
  | append_singleton bs b ih =>
    rw [List.length_append, List.length_singleton] at h ⊢
    have hfold : balanceBitmap ((bs ++ [b]).map BitVec.toNat) = 2 ^ 8 * balanceBitmap (bs.map BitVec.toNat) + b.toNat := by
      simp [balanceBitmap]
    rw [hfold, Nat.testBit_two_pow_mul_add _ b.isLt]
    by_cases hi : i < 8
    · have hbyte : bs.length + 1 - 1 - i / 8 = bs.length := by omega
      rw [if_pos hi, hbyte, List.getD_append_right _ _ _ _ le_rfl, Nat.mod_eq_of_lt hi]
      simp [BitVec.testBit_toNat]
    · have hbyte : bs.length + 1 - 1 - i / 8 = bs.length - 1 - (i - 8) / 8 := by omega
      have hbit : (i - 8) % 8 = i % 8 := by omega
      rw [if_neg hi, ih (by omega), hbyte, hbit, List.getD_append _ _ _ _ (by omega)]

/-- Rows of `b` columns, read row by row, are numbered by `b * i + j`. -/
theorem flatMap_range_filterMap {α : Type} (g : Nat → Nat → Option α) (a : Nat) {b : Nat} (hb : 0 < b) :
    ((List.range a).flatMap fun i => (List.range b).filterMap (g i)) =
      (List.range (b * a)).filterMap fun n => g (n / b) (n % b) := by
  induction a with
  | zero => simp
  | succ a ih =>
    rw [List.range_succ, List.flatMap_append, ih, Nat.mul_succ, List.range_add, List.filterMap_append,
      List.flatMap_singleton, List.filterMap_map]
    congr 1
    refine List.filterMap_congr fun j hj => ?_
    have hj : j < b := List.mem_range.1 hj
    simp [Nat.mul_add_div hb, Nat.div_eq_of_lt hj, Nat.mod_eq_of_lt hj]

/-- The fault strings are those of the first 57 bits, byte by byte: the last byte has one entry (R160). -/
theorem faultNames_bytes (t : FaultTable) (bs : List Byte) : faultNames t (bs.map BitVec.toNat) =
    (List.range 57).filterMap fun n =>
      if (bs.getD (n / 8) 0).getLsbD (n % 8) then FaultTable.entry t (n / 8) (n % 8) else none := by
  have hbyte (i : Nat) : (bs.map BitVec.toNat).getD i 0 = (bs.getD i 0).toNat := List.getD_map bs 0 BitVec.toNat
  have hrange : List.range (8 * 8) = List.range 57 ++ (List.range 7).map (57 + ·) := List.range_add
  rw [faultNames, flatMap_range_filterMap _ _ (by decide), hrange, List.filterMap_append,
    (List.filterMap_eq_nil_iff (l := (List.range 7).map (57 + ·))).2 ?last, List.append_nil]
  case last =>
    refine fun n hn => if_neg fun h => ?_
    obtain ⟨j, hj, rfl⟩ := List.mem_map.1 hn
    have hj : j < 7 := List.mem_range.1 hj
    obtain ⟨-, hin⟩ := h
    simp only [faultRows, faultCols, faultLastRowCols] at hin
    omega
  refine List.filterMap_congr fun n hn => ?_
  have hn : n < 57 := List.mem_range.1 hn
  have hin : n / 8 < faultRows - 1 ∨ n % 8 < faultLastRowCols := by simp only [faultRows, faultLastRowCols]; omega
  simp only [hbyte, BitVec.testBit_toNat, hin, and_true]

end Sys2Proof.Machine

open Sys2Proof Sys2Proof.Machine

/-- Settles O58: both schemas read bytes, which the bitmap and the table take as bits. -/
theorem bitmapResults : Obligations.BitmapResults := by
  have hraw (bs : List Byte) : (bs.map fun b => FieldValue.num b.toNat).map (fun v => v.toInt.toNat) =
      bs.map BitVec.toNat := by simp [FieldValue.toInt]
  refine fun s e p => ⟨fun h => interpReturns_of h rfl (schemaSpec_bytes p (n := 6) (by decide)) fun f => ?balancing,
    fun h => interpReturns_of h rfl (schemaSpec_bytes p (n := 8) (by decide)) fun f => ?faults⟩
  case balancing =>
    simp only [interpValues, balancingResult, hraw, List.drop_zero]
    congr 3
    refine List.map_congr_left fun i hi => ?_
    have hi : i < 48 := List.mem_range.1 hi
    have hlength : (p.toList.take 6).length = 6 := by simp [payloadLen]
    have hbyte : (p.toList.take 6).getD (6 - 1 - i / 8) 0 = p.toList.getD (5 - i / 8) 0 := by
      simp [List.getD_eq_getElem?_getD, show 5 - i / 8 < 6 by omega]
    rw [testBit_balanceBitmap _ (by omega), hlength, hbyte]
  case faults =>
    simp only [interpValues, hraw, List.drop_zero]
    rw [faultNames_bytes, List.take_of_length_le (by simp)]
end

section
/-! ## The step: one event (60_exceptions.md R190, 70_reset_and_hazards.md R200, R221; 92_eei_decisions.md D2) -/

namespace Sys2Proof.Machine

/-- The request for an operation, given as such or as a word that decodes to it. -/
def Request.StandsFor (r : Request) (i : Instr) : Prop := r = .op i ∨ ∃ w, r = .word w ∧ decodeWord w = .ok i

/-- A request reaches a blocked block exactly where the operation it stands for does (R190). -/
theorem Request.StandsFor.isEvent_eq {r : Request} {i : Instr} (h : r.StandsFor i) : isEvent r = isEventOp i := by
  rcases h with rfl | ⟨w, rfl, hw⟩
  · rfl
  · simp [isEvent, hw]

/-- A request runs the operation it stands for. -/
theorem Request.StandsFor.runRequest_eq {r : Request} {i : Instr} (h : r.StandsFor i) (s : State) :
    runRequest r s = runInstr i s := by
  rcases h with rfl | ⟨w, rfl, hw⟩
  · rfl
  · exact runRequest_word hw s

/-- With nothing requested the step is the next event (R200). -/
theorem step_of_no_request {s : State} (ha : s.agenda = []) : step s = .next (environment s) := by
  simp [step, ha]

/-- A request that does not reach the call in progress waits, and the step is the next event (R190). -/
theorem step_of_waiting_request {s : State} {r : Request} {rest : List Request} (ha : s.agenda = r :: rest)
    (ho : s.owner.isSome = true) (hr : isEvent r = false) : step s = .next (environment s) := by
  simp [step, ha, ho, hr]

end Sys2Proof.Machine

open Sys2Proof Sys2Proof.Machine

/-- Settles O5: the request reaches the block because its operation does, and a well-formed operation runs. -/
theorem stepRunsFetchedOperation : Obligations.StepRunsFetchedOperation := by
  intro s r rest i ha (hfor : r.StandsFor i) hwf hreach
  have hreach : s.owner = none ∨ isEvent r = true := by rwa [hfor.isEvent_eq]
  calc step s
    _ = runRequest r { s with agenda := rest } := step_of_request ha hreach
    _ = runInstr i { s with agenda := rest } := hfor.runRequest_eq _
    _ = _ := if_pos hwf

/-- Settles O6: the two requests that are events of themselves reach every block; any other waits for the call in progress. -/
theorem stepTakesOneEvent : Obligations.StepTakesOneEvent := fun _ =>
  ⟨step_of_no_request, fun _ ha => step_of_request ha (.inr rfl), fun _ ha => step_of_request ha (.inr rfl),
    fun _ _ => step_of_waiting_request⟩
end

section
/-! ## RESET, and a second owner (70_reset_and_hazards.md R200, R202, R210) -/

namespace Sys2Proof.Machine

/-- With no call in progress and an idle line no event is enabled (R200). -/
theorem environment_at_rest {s : State} (ho : s.owner = none) (hl : lineBusy s = false) : environment s = s :=
  have hw : ownerWaits s = true := by simp [ownerWaits, ho]
  calc environment s
    _ = wake s := environment_rest hw hl
    _ = s := wake_of_none_pending (by simp [ho])

theorem events_fixed {s : State} (h : environment s = s) (n : Nat) : events n s = s := by
  induction n with
  | zero => rfl
  | succ n ih => rw [events, h, ih]

/-- RESET reaches the block whatever the owner waits for, and leaves no wait that it could end (R200, R202). -/
theorem step_reset {s : State} {rest : List Request} (ha : s.agenda = .op .reset :: rest) :
    step s = .next (setRet none (resetOp { s with agenda := rest })) :=
  calc step s
    _ = runRequest (.op .reset) { s with agenda := rest } := step_of_request ha (.inr rfl)
    _ = .next (settle (setRet none (resetOp { s with agenda := rest }))) := rfl
    _ = _ := by rw [settle_of_ownerInv (resetOp_inv _).ownerInv]

/-- A blocking write on an idle line, with another call in progress (R210). -/
theorem startWrite_secondOwner {s : State} (hl : lineBusy s = false) (h : engaged s = true) (f : Frame) :
    startWrite f s = .fault .secondOwner := by
  simp only [startWrite, hl, h, Bool.false_eq_true, if_false, if_true]

theorem execRead_secondOwner {s : State} (hl : lineBusy s = false) (h : engaged s = true) (d : Duration) :
    execRead d s = .fault .secondOwner := by
  simp only [execRead, hl, h, Bool.false_eq_true, if_false, if_true]

end Sys2Proof.Machine

open Sys2Proof Sys2Proof.Machine

/-- Settles O9: each register of `State.reset` is written out in its unit's reset value. -/
theorem resetLeavesSpecValues : Obligations.ResetLeavesSpecValues :=
  ⟨rfl, rfl, rfl, rfl, rfl, rfl, rfl, rfl, rfl, rfl, rfl, rfl, rfl⟩

/-- Settles O11: RESET answers `resetOp`, whose registers are those of `State.reset` and its outside that of the state before; it
has no owner and an idle line, so it is at rest. -/
theorem resetOperationAppliesAll : Obligations.ResetOperationAppliesAll := by
  intro s
  have hrest : environment (setRet none (resetOp s)) = setRet none (resetOp s) := environment_at_rest rfl rfl
  obtain ⟨txIdx, txState, rxIdx, rxSum, rxState, cur, fdState, cause, exState, attempt, collected, -, -⟩ :=
    resetLeavesSpecValues
  exact ⟨setRet none (resetOp s), rfl, txIdx, txState, rxIdx, rxSum, rxState, cur, fdState, cause, exState, attempt, collected,
    rfl, rfl, rfl, rfl, rfl, rfl, rfl, events_fixed hrest, fun _ => step_reset⟩

/-- Settles O45: each call looks for one in progress first, those that need the line right after they have found it idle. -/
theorem secondOwnerStops : Obligations.SecondOwnerStops := by
  intro s h
  refine ⟨if_pos h, fun _ _ _ _ _ => if_pos h, fun k => ?interpreter, fun _ => if_pos h, fun _ _ => if_pos h,
    fun _ _ => if_pos h, fun hl => ⟨fun f => ?write, fun d => ?read, fun a c p k => ?frameRequest⟩⟩
  case interpreter => exact (exec_interpInstr k s).trans (if_pos h)
  case write => exact startWrite_secondOwner hl h f
  case read => exact execRead_secondOwner hl h d
  case frameRequest => exact startWrite_secondOwner hl h _
end
